-- ==== Sys2Proof/Word.lean ====
section
/-! DEFINITION. The word types of the machine (spec/00_scope.md R8, spec/10_state.md R20): every value is an
unsigned bit vector of a stated width. -/

namespace Sys2Proof

/-- An 8-bit value: a general register, a timer, a byte of memory. -/
abbrev Byte := BitVec 8

/-- A 16-bit value: I, PC, a stack entry, an instruction word. -/
abbrev Word := BitVec 16

/-- A 4-bit field: a register index, a row count, a key index. -/
abbrev Nibble := BitVec 4

/-- A 12-bit field: the `nnn` of an instruction, a load address. -/
abbrev Addr := BitVec 12

end Sys2Proof
end

