-- ==== Sys2Proof/Config.lean ====
section
/-! DEFINITION. The configuration of spec/00_scope.md R6: what is fixed for a run, and the free values of the
environment. The values this hardware takes stand in Sys2Proof/Machine/Params.lean. -/

namespace Sys2Proof

/-- `LOAD_MODE` (R6): chosen by the loader per run; it selects the load address. -/
inductive LoadMode where
  | standard
  | alternate
deriving DecidableEq, Repr

/-- `ALU_OPERAND_READ` (R6, R182): when the flag-writing ALU instructions read their operands. -/
inductive OperandRead where
  | latched
  | sequential
deriving DecidableEq, Repr

/-- `DRAW_EDGE` (R6, R121): what happens to the pixels of a sprite that cross the framebuffer's edge. -/
inductive EdgePolicy where
  | wrap
  | clip
deriving DecidableEq, Repr

/-- `KEY_INDEX_MODE` (R6, R252): how Ex9E and ExA1 index the keypad when Vx > 0xF. -/
inductive KeyIndexMode where
  | lowNibble
  | draw
deriving DecidableEq, Repr

/-- `RESET_FILL` (R6, R42): the reset contents of V, I, DT, ST and the stack entries. -/
inductive ResetFill where
  | zero
  | unwritten
deriving DecidableEq, Repr

namespace Config

/-- `MEM_SIZE` (R6): bytes of memory. -/
def memSize : Nat := 0x1000

/-- `ADDR_BITS` (R6): bits of a memory address. -/
def addrBits : Nat := 12

/-- `NREGS` (R6): general registers. -/
def nregs : Nat := 16

/-- `STACK_DEPTH` (R6): stack entries. -/
def stackDepth : Nat := 16

/-- `FB_W` (R6): framebuffer columns. -/
def fbWidth : Nat := 64

/-- `FB_H` (R6): framebuffer rows. -/
def fbHeight : Nat := 32

/-- `NKEYS` (R6): keys. -/
def nkeys : Nat := 16

end Config

/-- The sizes of R6. The numbered rules state each of them as a number (R21, R28-R31, R35-R37, R61, R69, R91, R252), so a run's
argument is admitted with no other value, and the types of `State` have these sizes (log 1). -/
structure Sizes where
  /-- `MEM_SIZE`. -/
  memSize : Nat
  /-- `ADDR_BITS`. -/
  addrBits : Nat
  /-- `NREGS`. -/
  nregs : Nat
  /-- `STACK_DEPTH`. -/
  stackDepth : Nat
  /-- `FB_W`. -/
  fbW : Nat
  /-- `FB_H`. -/
  fbH : Nat
  /-- `NKEYS`. -/
  nkeys : Nat
  /-- R35, R61, R69. -/
  memSize_eq : memSize = Config.memSize
  /-- R60, R91. -/
  addrBits_eq : addrBits = Config.addrBits
  /-- R21. -/
  nregs_eq : nregs = Config.nregs
  /-- R28-R31, R40. -/
  stackDepth_eq : stackDepth = Config.stackDepth
  /-- R36, R121. -/
  fbW_eq : fbW = Config.fbWidth
  /-- R36, R121. -/
  fbH_eq : fbH = Config.fbHeight
  /-- R37, R252. -/
  nkeys_eq : nkeys = Config.nkeys
deriving DecidableEq, Repr

/-- The parameters of R6. A run is given one `Params`; no step changes it (log 1). -/
structure Params where
  /-- `MEM_SIZE`, `ADDR_BITS`, `NREGS`, `STACK_DEPTH`, `FB_W`, `FB_H`, `NKEYS`. -/
  sizes : Sizes
  /-- `LOAD_MODE`. -/
  loadMode : LoadMode
  /-- `LOAD_ADDR_STD`. -/
  loadAddrStd : Addr
  /-- `LOAD_ADDR_ALT`. -/
  loadAddrAlt : Addr
  /-- `FONT_BASE`: the address of the font table. -/
  fontBase : Addr
  /-- `FONT`: the 80 glyph bytes that `initialize` writes. -/
  font : Vector Byte 80
  /-- `ALU_OPERAND_READ`. -/
  operandRead : OperandRead
  /-- `DRAW_EDGE`. -/
  drawEdge : EdgePolicy
  /-- `SKIP9_STRICT`: is 9xyN with N ≠ 0 the defined no-op? -/
  skip9Strict : Bool
  /-- `FONT_LOW_NIBBLE`: does Fx29 use Vx[3:0] instead of Vx? -/
  fontLowNibble : Bool
  /-- `KEY_INDEX_MODE`. -/
  keyIndexMode : KeyIndexMode
  /-- `RESET_FILL`. -/
  resetFill : ResetFill
  /-- `STEPS_PER_FRAME`: the host's cadence (R316, R362), timing only; only `frameOps` reads it. -/
  stepsPerFrame : Nat
  /-- `TICK_HZ`: the host's tick rate (R362), timing only; no rule reads it. -/
  tickHz : Nat
deriving DecidableEq, Repr

namespace Config

/-- FREE VALUE (log 2). `rnd8()` of R12: the 8-bit draw that the environment supplies to the k-th draw of a run. No law holds
of it (R192). -/
opaque freeByte : Nat → Byte

/-- FREE VALUE (log 2). `draw_bool()` of R252: the answer the environment gives under `KEY_INDEX_MODE = draw`. -/
opaque freeBit : Nat → Bool

/-- FREE VALUE (log 3). What the k-th byte element (V0..VF, then DT, ST) holds right after the n-th `initialize` under
`RESET_FILL = unwritten`. -/
opaque unwrittenByte : Nat → Nat → Byte

/-- FREE VALUE (log 3). The same for the word elements (STACK[0..15], then I). -/
opaque unwrittenWord : Nat → Nat → Word

end Config

end Sys2Proof
end

