-- ==== Sys2Proof/Machine/Params.lean ====
section
/-! DEFINITION. The values this hardware takes for the parameters of spec/00_scope.md R6, and the load address they
select. -/

namespace Sys2Proof

/-- The customary font of spec/70_reset_and_hazards.md R353: glyph d stands at bytes 5d to 5d+4.
PRESUMED (log 7), unsafe: the spec marks these bytes as general knowledge. -/
def fontTable : Vector Byte 80 :=
  #v[0xF0, 0x90, 0x90, 0x90, 0xF0, 0x20, 0x60, 0x20, 0x20, 0x70,
     0xF0, 0x10, 0xF0, 0x80, 0xF0, 0xF0, 0x10, 0xF0, 0x10, 0xF0,
     0x90, 0x90, 0xF0, 0x10, 0x10, 0xF0, 0x80, 0xF0, 0x10, 0xF0,
     0xF0, 0x80, 0xF0, 0x90, 0xF0, 0xF0, 0x10, 0x20, 0x40, 0x40,
     0xF0, 0x90, 0xF0, 0x90, 0xF0, 0xF0, 0x90, 0xF0, 0x10, 0xF0,
     0xF0, 0x90, 0xF0, 0x90, 0x90, 0xE0, 0x90, 0xE0, 0x90, 0xE0,
     0xF0, 0x80, 0x80, 0x80, 0xF0, 0xE0, 0x90, 0x90, 0x90, 0xE0,
     0xF0, 0x80, 0xF0, 0x80, 0xF0, 0xF0, 0x80, 0xF0, 0x80, 0x80]

/-- The sizes in the value column of R6. -/
def Sizes.spec : Sizes :=
  { memSize := 4096
    addrBits := 12
    nregs := 16
    stackDepth := 16
    fbW := 64
    fbH := 32
    nkeys := 16
    memSize_eq := rfl
    addrBits_eq := rfl
    nregs_eq := rfl
    stackDepth_eq := rfl
    fbW_eq := rfl
    fbH_eq := rfl
    nkeys_eq := rfl }

/-- The value column of R6, with `LOAD_MODE = standard`. -/
def Params.spec : Params :=
  { sizes := Sizes.spec
    loadMode := .standard
    loadAddrStd := 0x200
    loadAddrAlt := 0x660
    fontBase := 0x000
    font := fontTable
    operandRead := .latched
    drawEdge := .wrap
    skip9Strict := true
    fontLowNibble := false
    keyIndexMode := .lowNibble
    resetFill := .zero
    stepsPerFrame := 8
    tickHz := 60 }

/-- `LOAD_ADDR` (R6): the reset PC and the base of the program image, as `LOAD_MODE` selects. -/
def Params.loadAddr (p : Params) : Addr :=
  match p.loadMode with
  | .standard => p.loadAddrStd
  | .alternate => p.loadAddrAlt

end Sys2Proof
end

