-- ==== Sys2Proof/Syntax.lean ====
section
/-! DEFINITION. The instruction set of spec/30_encoding.md R93-R95: one constructor per row of spec/opcode_table.json. -/

namespace Sys2Proof

/-- The 34 instructions and the defined no-op. `x` and `y` are register indexes, `n` a row count, `nn` an
8-bit constant, `nnn` a 12-bit address (R91, R92). -/
inductive Instr where
  /-- 00E0 clear (R120). -/
  | clear
  /-- 00EE return (R140). -/
  | ret
  /-- 1nnn jump (R141). -/
  | jump (nnn : Addr)
  /-- 2nnn call (R142). -/
  | call (nnn : Addr)
  /-- 3xnn skip-eq-imm (R160). -/
  | skipEqImm (x : Nibble) (nn : Byte)
  /-- 4xnn skip-ne-imm (R161). -/
  | skipNeImm (x : Nibble) (nn : Byte)
  /-- 5xy0 skip-eq-reg (R162). -/
  | skipEqReg (x y : Nibble)
  /-- 6xnn load-imm (R180). -/
  | loadImm (x : Nibble) (nn : Byte)
  /-- 7xnn add-imm (R181). -/
  | addImm (x : Nibble) (nn : Byte)
  /-- 8xy0 load-reg (R183). -/
  | loadReg (x y : Nibble)
  /-- 8xy1 or (R184). -/
  | orReg (x y : Nibble)
  /-- 8xy2 and (R185). -/
  | andReg (x y : Nibble)
  /-- 8xy3 xor (R186). -/
  | xorReg (x y : Nibble)
  /-- 8xy4 add-with-carry (R187). -/
  | addWithCarry (x y : Nibble)
  /-- 8xy5 sub-with-borrow (R188). -/
  | subWithBorrow (x y : Nibble)
  /-- 8xy6 shift-right (R189). -/
  | shiftRight (x y : Nibble)
  /-- 8xy7 sub-reverse-with-borrow (R190). -/
  | subReverseWithBorrow (x y : Nibble)
  /-- 8xyE shift-left (R191). -/
  | shiftLeft (x y : Nibble)
  /-- 9xy0 skip-ne-reg (R163). `n` is the low nibble: 0 under `SKIP9_STRICT = true`, any value under false (R97). -/
  | skipNeReg (x y n : Nibble)
  /-- Annn load-I (R220). -/
  | loadI (nnn : Addr)
  /-- Bnnn jump-offset (R143). -/
  | jumpOffset (nnn : Addr)
  /-- Cxnn rand (R192). -/
  | rand (x : Nibble) (nn : Byte)
  /-- Dxyn draw (R121). -/
  | draw (x y n : Nibble)
  /-- Ex9E skip-if-key (R250). -/
  | skipIfKey (x : Nibble)
  /-- ExA1 skip-if-not-key (R251). -/
  | skipIfNotKey (x : Nibble)
  /-- Fx07 read-DT (R253). -/
  | readDT (x : Nibble)
  /-- Fx0A wait-key (R254). -/
  | waitKey (x : Nibble)
  /-- Fx15 write-DT (R255). -/
  | writeDT (x : Nibble)
  /-- Fx18 write-ST (R256). -/
  | writeST (x : Nibble)
  /-- Fx1E add-I (R221). -/
  | addI (x : Nibble)
  /-- Fx29 font-addr (R222). -/
  | fontAddr (x : Nibble)
  /-- Fx33 bcd (R223). -/
  | bcd (x : Nibble)
  /-- Fx55 store-regs (R224). -/
  | storeRegs (x : Nibble)
  /-- Fx65 load-regs (R225). -/
  | loadRegs (x : Nibble)
  /-- The defined no-op (R95): any word `w` that no row lists. -/
  | nop (w : Word)
deriving DecidableEq, Repr

end Sys2Proof
end

