-- ==== Sys2Proof/WellFormed.lean ====
section
/-! DEFINITION. The opcode table as data, and the well-formedness check on instructions. The check reads the table, not
the decoder, so that "decode gives well-formed instructions" says that the two agree (spec/30_encoding.md R94). -/

namespace Sys2Proof

/-- One row of spec/opcode_table.json: a word `w` matches it when `w &&& mask = pattern`. -/
structure OpRow where
  mnemonic : String
  pattern : Word
  mask : Word
deriving DecidableEq, Repr

/-- Families 0 to 7 of the opcode table (R93). -/
def opcodeRowsLow : List OpRow :=
  [ ⟨"clear", 0x00E0, 0xFFFF⟩, ⟨"return", 0x00EE, 0xFFFF⟩, ⟨"jump", 0x1000, 0xF000⟩, ⟨"call", 0x2000, 0xF000⟩,
    ⟨"skip-eq-imm", 0x3000, 0xF000⟩, ⟨"skip-ne-imm", 0x4000, 0xF000⟩, ⟨"skip-eq-reg", 0x5000, 0xF00F⟩,
    ⟨"load-imm", 0x6000, 0xF000⟩, ⟨"add-imm", 0x7000, 0xF000⟩ ]

/-- Family 8 of the opcode table (R93). -/
def opcodeRowsAlu : List OpRow :=
  [ ⟨"load-reg", 0x8000, 0xF00F⟩, ⟨"or", 0x8001, 0xF00F⟩, ⟨"and", 0x8002, 0xF00F⟩, ⟨"xor", 0x8003, 0xF00F⟩,
    ⟨"add-with-carry", 0x8004, 0xF00F⟩, ⟨"sub-with-borrow", 0x8005, 0xF00F⟩, ⟨"shift-right", 0x8006, 0xF00F⟩,
    ⟨"sub-reverse-with-borrow", 0x8007, 0xF00F⟩, ⟨"shift-left", 0x800E, 0xF00F⟩ ]

/-- Families 9 to F of the opcode table (R93). The mask of skip-ne-reg is 0xF000 under `SKIP9_STRICT = false` (R97). -/
def opcodeRowsHigh (strict : Bool) : List OpRow :=
  [ ⟨"skip-ne-reg", 0x9000, if strict then 0xF00F else 0xF000⟩, ⟨"load-I", 0xA000, 0xF000⟩,
    ⟨"jump-offset", 0xB000, 0xF000⟩, ⟨"rand", 0xC000, 0xF000⟩, ⟨"draw", 0xD000, 0xF000⟩,
    ⟨"skip-if-key", 0xE09E, 0xF0FF⟩, ⟨"skip-if-not-key", 0xE0A1, 0xF0FF⟩, ⟨"read-DT", 0xF007, 0xF0FF⟩,
    ⟨"wait-key", 0xF00A, 0xF0FF⟩, ⟨"write-DT", 0xF015, 0xF0FF⟩, ⟨"write-ST", 0xF018, 0xF0FF⟩,
    ⟨"add-I", 0xF01E, 0xF0FF⟩, ⟨"font-addr", 0xF029, 0xF0FF⟩, ⟨"bcd", 0xF033, 0xF0FF⟩,
    ⟨"store-regs", 0xF055, 0xF0FF⟩, ⟨"load-regs", 0xF065, 0xF0FF⟩ ]

/-- The 34 listed rows of spec/opcode_table.json, under the given `SKIP9_STRICT`. -/
def opcodeRows (strict : Bool) : List OpRow :=
  opcodeRowsLow ++ opcodeRowsAlu ++ opcodeRowsHigh strict

/-- Does the word `w` match the row? -/
def OpRow.hits (r : OpRow) (w : Word) : Bool :=
  w &&& r.mask == r.pattern

/-- Is `w` listed, that is, does it match some row (R94)? -/
def listed (strict : Bool) (w : Word) : Bool :=
  (opcodeRows strict).any (·.hits w)

/-- The row's mnemonic in spec/opcode_table.json. -/
def Instr.mnemonic : Instr → String
  | .clear => "clear"
  | .ret => "return"
  | .jump _ => "jump"
  | .call _ => "call"
  | .skipEqImm _ _ => "skip-eq-imm"
  | .skipNeImm _ _ => "skip-ne-imm"
  | .skipEqReg _ _ => "skip-eq-reg"
  | .loadImm _ _ => "load-imm"
  | .addImm _ _ => "add-imm"
  | .loadReg _ _ => "load-reg"
  | .orReg _ _ => "or"
  | .andReg _ _ => "and"
  | .xorReg _ _ => "xor"
  | .addWithCarry _ _ => "add-with-carry"
  | .subWithBorrow _ _ => "sub-with-borrow"
  | .shiftRight _ _ => "shift-right"
  | .subReverseWithBorrow _ _ => "sub-reverse-with-borrow"
  | .shiftLeft _ _ => "shift-left"
  | .skipNeReg _ _ _ => "skip-ne-reg"
  | .loadI _ => "load-I"
  | .jumpOffset _ => "jump-offset"
  | .rand _ _ => "rand"
  | .draw _ _ _ => "draw"
  | .skipIfKey _ => "skip-if-key"
  | .skipIfNotKey _ => "skip-if-not-key"
  | .readDT _ => "read-DT"
  | .waitKey _ => "wait-key"
  | .writeDT _ => "write-DT"
  | .writeST _ => "write-ST"
  | .addI _ => "add-I"
  | .fontAddr _ => "font-addr"
  | .bcd _ => "bcd"
  | .storeRegs _ => "store-regs"
  | .loadRegs _ => "load-regs"
  | .nop _ => "defined_no-op"

/-- Is the instruction one that the encoding can write and the decoder can give, under the given `SKIP9_STRICT`? Every
operand field has exactly its width, so only two forms need a check: the no-op's word must be unlisted (R95), and the low
nibble of skip-ne-reg must be 0 when `SKIP9_STRICT` is true (R97). -/
def Instr.wf (strict : Bool) : Instr → Bool
  | .nop w => !listed strict w
  | .skipNeReg _ _ n => !strict || n == 0
  | .clear | .ret | .jump _ | .call _ | .skipEqImm _ _ | .skipNeImm _ _ | .skipEqReg _ _ | .loadImm _ _ | .addImm _ _
  | .loadReg _ _ | .orReg _ _ | .andReg _ _ | .xorReg _ _ | .addWithCarry _ _ | .subWithBorrow _ _ | .shiftRight _ _
  | .subReverseWithBorrow _ _ | .shiftLeft _ _ | .loadI _ | .jumpOffset _ | .rand _ _ | .draw _ _ _ | .skipIfKey _
  | .skipIfNotKey _ | .readDT _ | .waitKey _ | .writeDT _ | .writeST _ | .addI _ | .fontAddr _ | .bcd _ | .storeRegs _
  | .loadRegs _ => true

end Sys2Proof
end

