-- ==== Sys2Proof/Decode.lean ====
section
/-! DEFINITION. Decoding (spec/30_encoding.md R90-R97), total on words, and the encoder written from the same layouts. -/

namespace Sys2Proof

/-- `family = w[15:12]` (R91). -/
def fieldFamily (w : Word) : Nibble := w.extractLsb' 12 4

/-- `x = w[11:8]` (R91). -/
def fieldX (w : Word) : Nibble := w.extractLsb' 8 4

/-- `y = w[7:4]` (R91). -/
def fieldY (w : Word) : Nibble := w.extractLsb' 4 4

/-- `n = w[3:0]` (R91). -/
def fieldN (w : Word) : Nibble := w.extractLsb' 0 4

/-- `nn = w[7:0]` (R91). -/
def fieldNN (w : Word) : Byte := w.extractLsb' 0 8

/-- `nnn = w[11:0]` (R91). -/
def fieldNNN (w : Word) : Addr := w.extractLsb' 0 12

/-- Family 0x8 (R93, C7): selected by `n`; 8xy8-8xyD and 8xyF are unlisted. -/
def decodeAlu (w : Word) : Instr :=
  match fieldN w with
  | 0x0#4 => .loadReg (fieldX w) (fieldY w)
  | 0x1#4 => .orReg (fieldX w) (fieldY w)
  | 0x2#4 => .andReg (fieldX w) (fieldY w)
  | 0x3#4 => .xorReg (fieldX w) (fieldY w)
  | 0x4#4 => .addWithCarry (fieldX w) (fieldY w)
  | 0x5#4 => .subWithBorrow (fieldX w) (fieldY w)
  | 0x6#4 => .shiftRight (fieldX w) (fieldY w)
  | 0x7#4 => .subReverseWithBorrow (fieldX w) (fieldY w)
  | 0xE#4 => .shiftLeft (fieldX w) (fieldY w)
  | _ => .nop w

/-- Family 0xE (R93): selected by `nn`. -/
def decodeKey (w : Word) : Instr :=
  match fieldNN w with
  | 0x9E#8 => .skipIfKey (fieldX w)
  | 0xA1#8 => .skipIfNotKey (fieldX w)
  | _ => .nop w

/-- Family 0xF (R93): selected by `nn`. -/
def decodeMisc (w : Word) : Instr :=
  match fieldNN w with
  | 0x07#8 => .readDT (fieldX w)
  | 0x0A#8 => .waitKey (fieldX w)
  | 0x15#8 => .writeDT (fieldX w)
  | 0x18#8 => .writeST (fieldX w)
  | 0x1E#8 => .addI (fieldX w)
  | 0x29#8 => .fontAddr (fieldX w)
  | 0x33#8 => .bcd (fieldX w)
  | 0x55#8 => .storeRegs (fieldX w)
  | 0x65#8 => .loadRegs (fieldX w)
  | _ => .nop w

/-- `decode(w)` of R94. `strict` is `SKIP9_STRICT`. Total: a word no row lists is the defined no-op (R95). -/
def decodeWord (strict : Bool) (w : Word) : Instr :=
  match fieldFamily w with
  | 0x0#4 => if w = 0x00E0#16 then .clear else if w = 0x00EE#16 then .ret else .nop w
  | 0x1#4 => .jump (fieldNNN w)
  | 0x2#4 => .call (fieldNNN w)
  | 0x3#4 => .skipEqImm (fieldX w) (fieldNN w)
  | 0x4#4 => .skipNeImm (fieldX w) (fieldNN w)
  | 0x5#4 => if fieldN w = 0 then .skipEqReg (fieldX w) (fieldY w) else .nop w
  | 0x6#4 => .loadImm (fieldX w) (fieldNN w)
  | 0x7#4 => .addImm (fieldX w) (fieldNN w)
  | 0x8#4 => decodeAlu w
  | 0x9#4 => if fieldN w = 0 ∨ strict = false then .skipNeReg (fieldX w) (fieldY w) (fieldN w) else .nop w
  | 0xA#4 => .loadI (fieldNNN w)
  | 0xB#4 => .jumpOffset (fieldNNN w)
  | 0xC#4 => .rand (fieldX w) (fieldNN w)
  | 0xD#4 => .draw (fieldX w) (fieldY w) (fieldN w)
  | 0xE#4 => decodeKey w
  | 0xF#4 => decodeMisc w
  | _ => .nop w

/-- The big-endian word of two bytes (R63): the byte at the lower address stands in bits 15:8. -/
def wordOfBytes (first second : Byte) : Word := first ++ second

/-- The two bytes of a word in address order (R63). -/
def bytesOfWord (w : Word) : List Byte := [w.extractLsb' 8 8, w.extractLsb' 0 8]

/-- Why a list of bytes is no instruction. No word is rejected (R98): only a list too short to hold one is. -/
inductive DecodeError where
  /-- Fewer than the two bytes that every instruction has (R90, R99). -/
  | tooShort
deriving DecidableEq, Repr

/-- Reads one instruction from the front of a byte list, and gives the rest of the list. -/
def decodeBytes (strict : Bool) : List Byte → Except DecodeError (Instr × List Byte)
  | first :: second :: rest => .ok (decodeWord strict (wordOfBytes first second), rest)
  | [_] => .error .tooShort
  | [] => .error .tooShort

/-- A word from its family and `nnn` (layout F_NNN of R90): w[15:12] ++ w[11:0]. -/
def layoutNNN (family : Nibble) (nnn : Addr) : Word := family ++ nnn

/-- A word from its family, `x` and `nn` (layouts F_XNN and F_X of R90): w[15:12] ++ w[11:8] ++ w[7:0]. -/
def layoutXNN (family x : Nibble) (nn : Byte) : Word := family ++ x ++ nn

/-- A word from its family, `x`, `y` and `n` (layouts F_XY and F_XYN of R90): w[15:12] ++ w[11:8] ++ w[7:4] ++ w[3:0]. -/
def layoutXYN (family x y n : Nibble) : Word := family ++ x ++ y ++ n

/-- The word of an instruction, from the layouts of R90 and the patterns of R93. -/
def encode : Instr → Word
  | .clear => 0x00E0#16
  | .ret => 0x00EE#16
  | .jump nnn => layoutNNN 0x1#4 nnn
  | .call nnn => layoutNNN 0x2#4 nnn
  | .skipEqImm x nn => layoutXNN 0x3#4 x nn
  | .skipNeImm x nn => layoutXNN 0x4#4 x nn
  | .skipEqReg x y => layoutXYN 0x5#4 x y 0x0#4
  | .loadImm x nn => layoutXNN 0x6#4 x nn
  | .addImm x nn => layoutXNN 0x7#4 x nn
  | .loadReg x y => layoutXYN 0x8#4 x y 0x0#4
  | .orReg x y => layoutXYN 0x8#4 x y 0x1#4
  | .andReg x y => layoutXYN 0x8#4 x y 0x2#4
  | .xorReg x y => layoutXYN 0x8#4 x y 0x3#4
  | .addWithCarry x y => layoutXYN 0x8#4 x y 0x4#4
  | .subWithBorrow x y => layoutXYN 0x8#4 x y 0x5#4
  | .shiftRight x y => layoutXYN 0x8#4 x y 0x6#4
  | .subReverseWithBorrow x y => layoutXYN 0x8#4 x y 0x7#4
  | .shiftLeft x y => layoutXYN 0x8#4 x y 0xE#4
  | .skipNeReg x y n => layoutXYN 0x9#4 x y n
  | .loadI nnn => layoutNNN 0xA#4 nnn
  | .jumpOffset nnn => layoutNNN 0xB#4 nnn
  | .rand x nn => layoutXNN 0xC#4 x nn
  | .draw x y n => layoutXYN 0xD#4 x y n
  | .skipIfKey x => layoutXNN 0xE#4 x 0x9E#8
  | .skipIfNotKey x => layoutXNN 0xE#4 x 0xA1#8
  | .readDT x => layoutXNN 0xF#4 x 0x07#8
  | .waitKey x => layoutXNN 0xF#4 x 0x0A#8
  | .writeDT x => layoutXNN 0xF#4 x 0x15#8
  | .writeST x => layoutXNN 0xF#4 x 0x18#8
  | .addI x => layoutXNN 0xF#4 x 0x1E#8
  | .fontAddr x => layoutXNN 0xF#4 x 0x29#8
  | .bcd x => layoutXNN 0xF#4 x 0x33#8
  | .storeRegs x => layoutXNN 0xF#4 x 0x55#8
  | .loadRegs x => layoutXNN 0xF#4 x 0x65#8
  | .nop w => w

/-- The bytes of an instruction, as memory holds them. -/
def encodeBytes (i : Instr) : List Byte := bytesOfWord (encode i)

/-- The word that a table row's bits stand for: one 16-bit word, bit 0 least significant, the bits from `nbits` up zero. -/
def tableWord (nbits w : Nat) : Word := BitVec.ofNat 16 (w % 2 ^ nbits)

/-- The instruction that the decoder of this hardware (`SKIP9_STRICT` as in R6) reads from a table row's bits, laid out as
memory holds them. -/
def decodeTableWord (nbits w : Nat) : Option Instr :=
  match decodeBytes Params.spec.skip9Strict (bytesOfWord (tableWord nbits w)) with
  | .ok (i, _) => some i
  | .error _ => none

end Sys2Proof
end

