-- ==== Sys2Proof/Machine/State.lean ====
section
/-! DEFINITION. The state of the machine (spec/10_state.md R20), plain data; the reasons a run can stop; the state after
reset (R42). -/

namespace Sys2Proof.Machine

/-- Memory: a list of (address, byte) pairs. Addresses rise strictly and no entry holds what an unlisted address reads
as (`Memory.wf` in Machine/Ops.lean). -/
abbrev Memory := List Host.Cell

/-- The framebuffer of R36: 32 rows of 64 one-bit pixels, row-major. -/
abbrev Framebuffer := Vector (Vector Bool 64) 32

/-- The causes of the sticky DIAG register (R39), in bit order. -/
inductive DiagCause where
  | pcOdd
  | pcRange
  | iRange
  | stackOvf
  | stackUnf
  | keyRange
  | fontRange
  | unlisted
  | vfOperand
  | drawEdge
deriving DecidableEq, Repr

/-- The elements whose reset contents `RESET_FILL` gives (R42). -/
inductive FillElement where
  | v (x : Nibble)
  | i
  | stack (k : Nibble)
  | dt
  | st
deriving DecidableEq, Repr

/-- Everything the spec gives the machine (R20), with the run's configuration and the count of environment draws. -/
structure State where
  /-- V0..VF (R21). -/
  v : Vector Byte 16
  /-- I (R24). -/
  i : Word
  /-- PC (R25). -/
  pc : Word
  /-- SP (R28): 8 bits of storage, 0..15. -/
  sp : Byte
  /-- STACK (R29). -/
  stack : Vector Word 16
  /-- DT (R33). -/
  dt : Byte
  /-- ST (R34). -/
  st : Byte
  /-- MEM (R35). -/
  mem : Memory
  /-- FB (R36). -/
  fb : Framebuffer
  /-- KEY (R37). -/
  key : Vector Bool 16
  /-- WAIT (R38). -/
  wait : Option Nibble
  /-- DRAW_REQ (R41). -/
  drawReq : Bool
  /-- BEEP_REQ (R41). -/
  beepReq : Bool
  /-- DIAG (R39). -/
  diag : BitVec 10
  /-- DEPTH (R40): 0..16. -/
  depth : Nat
  /-- The run's configuration (R6, log 1). No step changes it. -/
  params : Params
  /-- The model's own: counts the free values taken and the calls of `initialize` (R12, R252, R42, log 2). -/
  draws : Nat
deriving DecidableEq, Repr

/-- The reasons a run can stop with a fault. The machine of the spec has none (R300): `step` and `exec` never raise one. -/
inductive Fault where
  /-- Raised only by `Sys2Proof.strictStep`, the STRICT reading of spec/93_implementation_defined.md, when a step sets DIAG
  bits that were clear; `newBits` names them. Safe: it stops where the machine goes on. -/
  | diagnostic (newBits : BitVec 10)
  /-- Raised only by `Sys2Proof.Machine.trackedOp`, the reading of `RESET_FILL = unwritten` in R42, when an operation reads the
  element `e` before anything has written it ("read of unwritten state"). Safe: it stops where the machine goes on. -/
  | unwrittenRead (e : FillElement)
deriving DecidableEq, Repr

/-- The reasons the model gives an instruction no meaning. -/
inductive Refusal where
  /-- An instruction of the table whose arm of `exec` is not written yet. No arm raises it in this model. Safe. -/
  | notModelled (mnemonic : String)
deriving DecidableEq, Repr

/-- The machine right after `initialize` of an empty image in standard mode (R42, R350): memory lists nothing, since an
unlisted address reads as the font table or zero. V, I, DT, ST and STACK are zero by `RESET_FILL = zero` (log 3); KEY, WAIT
and the output flags by D3 (log 4); `draws` is a DESIGN CHOICE (log 2). -/
def State.reset : State :=
  { v := Vector.replicate 16 0
    i := 0
    pc := 0x0200
    sp := 15
    stack := Vector.replicate 16 0
    dt := 0
    st := 0
    mem := []
    fb := Vector.replicate 32 (Vector.replicate 64 false)
    key := Vector.replicate 16 false
    wait := none
    drawReq := false
    beepReq := false
    diag := 0
    depth := 0
    params := Params.spec
    draws := 0 }

end Sys2Proof.Machine
end

