-- ==== Sys2Proof/Machine/Ops.lean ====
section
/-! DEFINITION. The named operations over memory and registers. The machine has no exceptions (spec/60_exceptions.md
R300-R305), so there is no operation that takes one; what another machine would trap on is `diagIf` (R301). -/

namespace Sys2Proof.Machine

/-- What `exec` and `step` answer. -/
abbrev Result := Host.Outcome State Fault Refusal

/-! ### Memory (R60-R63) -/

/-- `ea(a) = a mod 0x1000` (R61), of the exact sum `a`; 0x1000 is `MEM_SIZE`. -/
def ea (z : Sizes) (a : Nat) : Nat := a % z.memSize

/-- What an unlisted address reads as: the reset contents with an empty image (R68), that is, the font table at 0x000-0x04F
and zero elsewhere. -/
def unlisted (a : Nat) : Byte := fontTable[a]?.getD 0

/-- The byte at address `a`. -/
def memGet : Memory → Nat → Byte
  | [], a => unlisted a
  | (k, b) :: m, a => if a = k then b else memGet m a

/-- Writes one byte and keeps the canonical form: writing what an unlisted address reads as removes the entry. -/
def memSet : Memory → Nat → Byte → Memory
  | [], a, b => if b = unlisted a then [] else [(a, b)]
  | (k, c) :: m, a, b =>
    if a < k then (if b = unlisted a then (k, c) :: m else (a, b) :: (k, c) :: m)
    else if a = k then (if b = unlisted a then m else (a, b) :: m)
    else (k, c) :: memSet m a b

/-- Every entry stands at `lo` or above, below 0x1000, above the entry before it, and holds no default byte. -/
def Memory.wfFrom (lo : Nat) : Memory → Bool
  | [] => true
  | (k, b) :: m => decide (lo ≤ k) && decide (k < Config.memSize) && decide (b ≠ unlisted k) && Memory.wfFrom (k + 1) m

/-- The canonical form of memory. -/
def Memory.wf (m : Memory) : Bool := Memory.wfFrom 0 m

/-- Writes a list of bytes at ascending addresses, each reduced (R61). -/
def loadBytes (z : Sizes) : Memory → Nat → List Byte → Memory
  | m, _, [] => m
  | m, a, b :: bs => loadBytes z (memSet m (ea z a) b) (a + 1) bs

/-- `MEM[ea(a)]` (R62). -/
def State.byteAt (s : State) (a : Nat) : Byte := memGet s.mem (ea s.params.sizes a)

/-! ### DIAG (R11, R39) -/

/-- The bit of DIAG that a cause sets (R39). -/
def DiagCause.bit : DiagCause → Nat
  | .pcOdd => 0
  | .pcRange => 1
  | .iRange => 2
  | .stackOvf => 3
  | .stackUnf => 4
  | .keyRange => 5
  | .fontRange => 6
  | .unlisted => 7
  | .vfOperand => 8
  | .drawEdge => 9

/-- The DIAG word with only the cause's bit set. -/
def DiagCause.mask (c : DiagCause) : BitVec 10 := 1#10 <<< c.bit

/-- `if b then diag(c)` (R11): sets one sticky bit and nothing else. -/
def diagIf (b : Bool) (c : DiagCause) (s : State) : State :=
  { s with diag := if b then s.diag ||| c.mask else s.diag }

/-! ### Registers (R9, R21) -/

/-- `V[x]`. -/
def State.reg (s : State) (x : Nibble) : Byte := s.v[x.toNat]'x.isLt

/-- `V[x] <- b`. -/
def State.setReg (s : State) (x : Nibble) (b : Byte) : State := { s with v := s.v.set x.toNat b x.isLt }

/-- `I <- a`. -/
def State.setI (s : State) (a : Word) : State := { s with i := a }

/-- `PC <- a`. -/
def State.setPc (s : State) (a : Word) : State := { s with pc := a }

/-- `if b then PC <- (PC + 2) mod 65536`: the skip of R164. -/
def skipIf (b : Bool) (s : State) : State := { s with pc := if b then s.pc + 2 else s.pc }

/-- `DT <- b`. -/
def State.setDT (s : State) (b : Byte) : State := { s with dt := b }

/-- `ST <- b`. -/
def State.setST (s : State) (b : Byte) : State := { s with st := b }

/-- `WAIT <- w`. -/
def State.setWait (s : State) (w : Option Nibble) : State := { s with wait := w }

/-- `DRAW_REQ <- b`. -/
def State.setDrawReq (s : State) (b : Bool) : State := { s with drawReq := b }

/-- `BEEP_REQ <- b`. -/
def State.setBeepReq (s : State) (b : Bool) : State := { s with beepReq := b }

/-- `KEY[k]`. -/
def State.keyAt (s : State) (k : Nibble) : Bool := s.key[k.toNat]'k.isLt

/-- `KEY[k] <- d`. -/
def State.setKeyAt (s : State) (k : Nibble) (d : Bool) : State := { s with key := s.key.set k.toNat d k.isLt }

/-- Counts one free value as taken (log 2). -/
def State.countDraw (s : State) : State := { s with draws := s.draws + 1 }

/-! ### The framebuffer (R36) -/

/-- `FB[py][px]`. -/
def pixelAt (fb : Framebuffer) (py : Fin 32) (px : Fin 64) : Bool := (fb[py.val])[px.val]

/-- `FB[py][px] <- b`. -/
def setPixelAt (fb : Framebuffer) (py : Fin 32) (px : Fin 64) (b : Bool) : Framebuffer :=
  fb.set py.val ((fb[py.val]).set px.val b)

/-- The framebuffer with every pixel 0. -/
def clearedFb : Framebuffer := Vector.replicate 32 (Vector.replicate 64 false)

/-- `FB <- fb`. -/
def State.setFb (s : State) (fb : Framebuffer) : State := { s with fb := fb }

/-! ### Data accesses through I (R61, R62) -/

/-- `MemRead(a, 1)`: the byte, and the state with the diagnostic of a reduced address. -/
def dataRead (a : Nat) (s : State) : Byte × State :=
  (s.byteAt a, diagIf (decide (a > 0xFFF)) .iRange s)

/-- `MemWrite(a, 1, b)`. -/
def dataWrite (a : Nat) (b : Byte) (s : State) : State :=
  { diagIf (decide (a > 0xFFF)) .iRange s with mem := memSet s.mem (ea s.params.sizes a) b }

/-! ### The stack (R28-R31) -/

/-- The index of the entry SP names. SP is below 16 in every state a run reaches (`MachineInv`); elsewhere it is reduced (log 5). -/
def State.stackIndex (s : State) : Fin 16 := ⟨s.sp.toNat % 16, Nat.mod_lt _ (by decide)⟩

/-- `Push(a)` (R30). -/
def push (a : Word) (s : State) : State :=
  { diagIf (decide (s.depth = s.params.sizes.stackDepth)) .stackOvf s with
    depth := if s.depth = s.params.sizes.stackDepth then s.depth else s.depth + 1
    stack := s.stack.set s.stackIndex.val a
    sp := BitVec.ofNat 8 ((s.sp.toNat + 15) % 16) }

/-- SP after a pop: `(SP + 1) mod 16` (R31). -/
def State.popSp (s : State) : Byte := BitVec.ofNat 8 ((s.sp.toNat + 1) % 16)

/-- The entry a pop returns: `STACK[(SP + 1) mod 16]` (R31). -/
def State.popValue (s : State) : Word := s.stack[(s.sp.toNat + 1) % 16]'(Nat.mod_lt _ (by decide))

/-- The state after `Pop()` (R31); the value is `State.popValue`. The entry is not cleared (R140). -/
def pop (s : State) : State :=
  { diagIf (decide (s.depth = 0)) .stackUnf s with
    depth := if s.depth = 0 then 0 else s.depth - 1
    sp := s.popSp }

/-! ### Fetch (R309) -/

/-- The big-endian word at PC, each byte address reduced on its own (R63, R309). -/
def fetchWord (s : State) : Word := wordOfBytes (s.byteAt s.pc.toNat) (s.byteAt (s.pc.toNat + 1))

/-- Does a fetch at this PC record PC_RANGE (R309)? -/
def pcOutOfRange (s : State) : Bool :=
  decide (s.pc.toNat < s.params.loadAddr.toNat) || decide (s.pc.toNat > 0xFFE)

/-- The state after `Fetch()` (R309): the diagnostics, and PC advanced by 2. The word is `fetchWord`. -/
def fetch (s : State) : State :=
  { diagIf (pcOutOfRange s) .pcRange (diagIf (s.pc.getLsbD 0) .pcOdd s) with pc := s.pc + 2 }

/-- Stores a word big-endian where `fetch` reads it. -/
def placeWord (w : Word) (s : State) : State :=
  { s with
    mem := memSet (memSet s.mem (ea s.params.sizes s.pc.toNat) (w.extractLsb' 8 8)) (ea s.params.sizes (s.pc.toNat + 1))
      (w.extractLsb' 0 8) }

end Sys2Proof.Machine
end

