-- ==== Sys2Proof/Machine/Flags.lean ====
section
/-! DEFINITION. The flag computations: VF as carry, no-borrow and shifted-out bit (spec/43_alu.md R182, R187-R191). VF is
written before the result (spec/10_state.md R23). -/

namespace Sys2Proof.Machine

/-- The index of VF. -/
def vf : Nibble := 0xF

/-- `bool(c)` as a register value (R8). -/
def flagByte (b : Bool) : Byte := if b then 1 else 0

/-- `a + b > 255`, of the exact sum (R187). -/
def carryOut (a b : Byte) : Bool := decide (a.toNat + b.toNat > 255)

/-- `minuend > subtrahend`, strictly (R188, R190). -/
def noBorrow (minuend subtrahend : Byte) : Bool := decide (minuend.toNat > subtrahend.toNat)

/-- `VF <- flag; V[x] <- result`, with the operands read as `ALU_OPERAND_READ` says (R182): once before any write
(`latched`), or again after the write of VF (`sequential`). -/
def flagThenResult (flag : Byte → Byte → Bool) (result : Byte → Byte → Byte) (x y : Nibble) (s : State) : State :=
  match s.params.operandRead with
  | .latched => (s.setReg vf (flagByte (flag (s.reg x) (s.reg y)))).setReg x (result (s.reg x) (s.reg y))
  | .sequential =>
    let s1 := s.setReg vf (flagByte (flag (s.reg x) (s.reg y)))
    s1.setReg x (result (s1.reg x) (s1.reg y))

/-- The two-operand flag instructions record VF_OPERAND when x or y is F (R182). -/
def flagBinary (flag : Byte → Byte → Bool) (result : Byte → Byte → Byte) (x y : Nibble) (s : State) : State :=
  flagThenResult flag result x y (diagIf (x == vf || y == vf) .vfOperand s)

/-- The shifts read only Vx, and record VF_OPERAND when x is F (R182). -/
def flagShift (flag : Byte → Bool) (result : Byte → Byte) (x : Nibble) (s : State) : State :=
  flagThenResult (fun a _ => flag a) (fun a _ => result a) x x (diagIf (x == vf) .vfOperand s)

end Sys2Proof.Machine
end

