-- ==== Sys2Proof/Machine/Alu.lean ====
section
/-! DEFINITION. Register loads and ALU: 6xnn, 7xnn, 8xy0-8xyE, Cxnn (spec/43_alu.md). -/

namespace Sys2Proof.Machine

/-- 6xnn load-imm (R180). -/
def execLoadImm (x : Nibble) (nn : Byte) (s : State) : Result := .next (s.setReg x nn)

/-- 7xnn add-imm (R181): no flag. -/
def execAddImm (x : Nibble) (nn : Byte) (s : State) : Result := .next (s.setReg x (s.reg x + nn))

/-- 8xy0 load-reg (R183). -/
def execLoadReg (x y : Nibble) (s : State) : Result := .next (s.setReg x (s.reg y))

/-- 8xy1 or (R184): VF is not reset. -/
def execOrReg (x y : Nibble) (s : State) : Result := .next (s.setReg x (s.reg x ||| s.reg y))

/-- 8xy2 and (R185): VF is not reset. -/
def execAndReg (x y : Nibble) (s : State) : Result := .next (s.setReg x (s.reg x &&& s.reg y))

/-- 8xy3 xor (R186): VF is not reset. -/
def execXorReg (x y : Nibble) (s : State) : Result := .next (s.setReg x (s.reg x ^^^ s.reg y))

/-- 8xy4 add-with-carry (R187). -/
def execAddWithCarry (x y : Nibble) (s : State) : Result := .next (flagBinary carryOut (fun a b => a + b) x y s)

/-- 8xy5 sub-with-borrow (R188). -/
def execSubWithBorrow (x y : Nibble) (s : State) : Result := .next (flagBinary noBorrow (fun a b => a - b) x y s)

/-- 8xy6 shift-right (R189): Vy is not read. -/
def execShiftRight (x _y : Nibble) (s : State) : Result :=
  .next (flagShift (fun a => a.getLsbD 0) (fun a => a >>> 1) x s)

/-- 8xy7 sub-reverse-with-borrow (R190). -/
def execSubReverseWithBorrow (x y : Nibble) (s : State) : Result :=
  .next (flagBinary (fun a b => noBorrow b a) (fun a b => b - a) x y s)

/-- 8xyE shift-left (R191): Vy is not read. -/
def execShiftLeft (x _y : Nibble) (s : State) : Result :=
  .next (flagShift (fun a => a.getLsbD 7) (fun a => a <<< 1) x s)

/-- Cxnn with the draw `r` given (R192). -/
def randWith (r : Byte) (x : Nibble) (nn : Byte) (s : State) : State := s.setReg x (r &&& nn)

/-- Cxnn rand (R192): the draw is the run's next free value (log 2). -/
def execRand (x : Nibble) (nn : Byte) (s : State) : Result :=
  .next (randWith (Config.freeByte s.draws) x nn s.countDraw)

end Sys2Proof.Machine
end

