-- ==== Sys2Proof/Machine/Operands.lean ====
section
/-! DEFINITION. Operand forms (spec/30_encoding.md R92): absolute targets, the keypad lookup, the font address, the
decimal digits, the register range. -/

namespace Sys2Proof.Machine

/-- `zext_16(nnn)` (R92): an absolute address. -/
def absolute (nnn : Addr) : Word := nnn.setWidth 16

/-- `(zext_16(nnn) + zext_16(V[0])) mod 65536`, the target of Bnnn (R143). -/
def offsetTarget (nnn : Addr) (s : State) : Word := absolute nnn + (s.reg 0).setWidth 16

/-- `KeyDown(v)` (R252): the answer, and the state with the diagnostic and the free value counted. -/
def keyDown (b : Byte) (s : State) : Bool × State :=
  if b.toNat < s.params.sizes.nkeys then (s.keyAt (b.setWidth 4), s)
  else match s.params.keyIndexMode with
    | .lowNibble => (s.keyAt (b.setWidth 4), diagIf true .keyRange s)
    | .draw => (Config.freeBit s.draws, (diagIf true .keyRange s).countDraw)

/-- The digit that Fx29 uses (R222): Vx, or Vx[3:0] under `FONT_LOW_NIBBLE`. -/
def fontDigit (b : Byte) (s : State) : Nat := if s.params.fontLowNibble then b.toNat % 16 else b.toNat

/-- `zext_16(FONT_BASE) + d * 5` (R222). -/
def glyphAddress (base : Addr) (d : Nat) : Word := BitVec.ofNat 16 (base.toNat + d * 5)

/-- The hundreds, tens and ones digits of a byte (R223). -/
def bcdHundreds (b : Byte) : Byte := BitVec.ofNat 8 (b.toNat / 100)

/-- The tens digit (R223). -/
def bcdTens (b : Byte) : Byte := BitVec.ofNat 8 (b.toNat / 10 % 10)

/-- The ones digit (R223). -/
def bcdOnes (b : Byte) : Byte := BitVec.ofNat 8 (b.toNat % 10)

/-- `k` in `0..x`: the indexes of the register range V0..Vx (R92, R224, R225). -/
def regRange (x : Nibble) : List Nat := List.range (x.toNat + 1)

/-- `for k in ks: MemWrite(I + k, 1, V[k])` (R224). -/
def storeRange : List Nat → State → State
  | [], s => s
  | k :: ks, s => storeRange ks (dataWrite (s.i.toNat + k) (s.reg (BitVec.ofNat 4 k)) s)

/-- `for k in ks: V[k] <- MemRead(I + k, 1)` (R225). -/
def loadRange : List Nat → State → State
  | [], s => s
  | k :: ks, s =>
    loadRange ks ((dataRead (s.i.toNat + k) s).2.setReg (BitVec.ofNat 4 k) (dataRead (s.i.toNat + k) s).1)

end Sys2Proof.Machine
end

