-- ==== Sys2Proof/Machine/Display.lean ====
section
/-! DEFINITION. The display instructions: 00E0 and Dxyn (spec/40_display.md). -/

namespace Sys2Proof.Machine

/-- What a draw works on: the framebuffer, whether a pixel collided (`hit`), whether a set sprite bit crossed the edge. -/
structure Canvas where
  fb : Framebuffer
  hit : Bool
  edge : Bool
deriving DecidableEq, Repr

/-- Does the unreduced coordinate lie past the right or the bottom edge (R121)? -/
def offScreen (z : Sizes) (ux uy : Nat) : Bool := decide (z.fbW ≤ ux) || decide (z.fbH ≤ uy)

/-- The column `ux mod 64`. -/
def columnOf (z : Sizes) (ux : Nat) : Fin 64 := ⟨ux % z.fbW, z.fbW_eq ▸ Nat.mod_lt _ (by decide)⟩

/-- The row `uy mod 32`. -/
def rowOf (z : Sizes) (uy : Nat) : Fin 32 := ⟨uy % z.fbH, z.fbH_eq ▸ Nat.mod_lt _ (by decide)⟩

/-- Plots one set sprite bit at the unreduced coordinate (R121): under `clip` a pixel past the edge is left out. -/
def plot (z : Sizes) (policy : EdgePolicy) (ux uy : Nat) (c : Canvas) : Canvas :=
  if policy = .wrap ∨ offScreen z ux uy = false then
    { fb := setPixelAt c.fb (rowOf z uy) (columnOf z ux) (!pixelAt c.fb (rowOf z uy) (columnOf z ux))
      hit := c.hit || pixelAt c.fb (rowOf z uy) (columnOf z ux)
      edge := c.edge || offScreen z ux uy }
  else { c with edge := c.edge || offScreen z ux uy }

/-- One sprite row: bit 7 of `b` is the leftmost pixel (R122; PRESUMED, log 9). -/
def plotRow (z : Sizes) (policy : EdgePolicy) (b : Byte) (cx uy : Nat) : List Nat → Canvas → Canvas
  | [], c => c
  | k :: ks, c => plotRow z policy b cx uy ks (if b.getLsbD (7 - k) then plot z policy (cx + k) uy c else c)

/-- The sprite's rows `rs`, each a byte read at `base + r` (R121). -/
def plotRows (z : Sizes) (policy : EdgePolicy) (byte : Nat → Byte) (cx cy : Nat) : List Nat → Canvas → Canvas
  | [], c => c
  | r :: rs, c => plotRows z policy byte cx cy rs (plotRow z policy (byte r) cx (cy + r) (List.range 8) c)

/-- The canvas after the sprite of Dxyn. -/
def drawSprite (x y n : Nibble) (s : State) : Canvas :=
  plotRows s.params.sizes s.params.drawEdge (fun r => s.byteAt (s.i.toNat + r)) ((s.reg x).toNat % s.params.sizes.fbW)
    ((s.reg y).toNat % s.params.sizes.fbH) (List.range n.toNat) { fb := s.fb, hit := false, edge := false }

/-- Does some row's byte lie past 0xFFF, so that the draw records I_RANGE (R61, R121)? -/
def spriteWraps (n : Nibble) (s : State) : Bool :=
  (List.range n.toNat).any fun r => decide (s.i.toNat + r > 0xFFF)

/-- 00E0 clear (R120). -/
def execClear (s : State) : Result := .next ((s.setFb clearedFb).setDrawReq true)

/-- Dxyn draw (R121). The coordinates are read before VF is cleared, so the one write of VF is its final value: the write
of 0 before it is not observable (R121, log 10). -/
def execDraw (x y n : Nibble) (s : State) : Result :=
  let c := drawSprite x y n s
  let s1 := diagIf c.edge .drawEdge (diagIf (spriteWraps n s) .iRange s)
  .next (((s1.setFb c.fb).setReg vf (flagByte c.hit)).setDrawReq true)

end Sys2Proof.Machine
end

