-- ==== Sys2Proof/Machine/Flow.lean ====
section
/-! DEFINITION. Control transfer: 00EE, 1nnn, 2nnn, Bnnn (spec/41_flow.md). PC is already advanced by 2. -/

namespace Sys2Proof.Machine

/-- 00EE return (R140). -/
def execRet (s : State) : Result := .next ((pop s).setPc s.popValue)

/-- 1nnn jump (R141). -/
def execJump (nnn : Addr) (s : State) : Result := .next (s.setPc (absolute nnn))

/-- 2nnn call (R142). -/
def execCall (nnn : Addr) (s : State) : Result := .next ((push s.pc s).setPc (absolute nnn))

/-- Bnnn jump-offset (R143). -/
def execJumpOffset (nnn : Addr) (s : State) : Result := .next (s.setPc (offsetTarget nnn s))

end Sys2Proof.Machine
end

