-- ==== Sys2Proof/Machine/Index.lean ====
section
/-! DEFINITION. Index register and memory transfers: Annn, Fx1E, Fx29, Fx33, Fx55, Fx65 (spec/44_index_memory.md). -/

namespace Sys2Proof.Machine

/-- Annn load-I (R220). -/
def execLoadI (nnn : Addr) (s : State) : Result := .next (s.setI (absolute nnn))

/-- Fx1E add-I (R221): no mask to 12 bits, no flag. -/
def execAddI (x : Nibble) (s : State) : Result := .next (s.setI (s.i + (s.reg x).setWidth 16))

/-- Fx29 font-addr (R222). -/
def execFontAddr (x : Nibble) (s : State) : Result :=
  .next ((diagIf (decide ((s.reg x).toNat > 0xF)) .fontRange s).setI (glyphAddress s.params.fontBase (fontDigit (s.reg x) s)))

/-- Fx33 bcd (R223). -/
def execBcd (x : Nibble) (s : State) : Result :=
  .next (dataWrite (s.i.toNat + 2) (bcdOnes (s.reg x))
    (dataWrite (s.i.toNat + 1) (bcdTens (s.reg x)) (dataWrite (s.i.toNat + 0) (bcdHundreds (s.reg x)) s)))

/-- Fx55 store-regs (R224): I is unchanged. -/
def execStoreRegs (x : Nibble) (s : State) : Result := .next (storeRange (regRange x) s)

/-- Fx65 load-regs (R225): I is unchanged. -/
def execLoadRegs (x : Nibble) (s : State) : Result := .next (loadRange (regRange x) s)

end Sys2Proof.Machine
end

