-- ==== Sys2Proof/Machine/Skip.lean ====
section
/-! DEFINITION. Conditional skips: 3xnn, 4xnn, 5xy0, 9xy0 (spec/42_skip.md). -/

namespace Sys2Proof.Machine

/-- 3xnn skip-eq-imm (R160). -/
def execSkipEqImm (x : Nibble) (nn : Byte) (s : State) : Result := .next (skipIf (s.reg x == nn) s)

/-- 4xnn skip-ne-imm (R161). -/
def execSkipNeImm (x : Nibble) (nn : Byte) (s : State) : Result := .next (skipIf (s.reg x != nn) s)

/-- 5xy0 skip-eq-reg (R162). -/
def execSkipEqReg (x y : Nibble) (s : State) : Result := .next (skipIf (s.reg x == s.reg y) s)

/-- 9xy0 skip-ne-reg (R163). A low nibble other than 0, which only `SKIP9_STRICT = false` lets through, records UNLISTED
(R97). -/
def execSkipNeReg (x y n : Nibble) (s : State) : Result :=
  .next (skipIf (s.reg x != s.reg y) (diagIf (n != 0) .unlisted s))

end Sys2Proof.Machine
end

