-- ==== Sys2Proof/Machine/TimerInput.lean ====
section
/-! DEFINITION. Keypad, wait and timer instructions: Ex9E, ExA1, Fx07, Fx0A, Fx15, Fx18 (spec/45_timer_input.md), and the
defined no-op (spec/30_encoding.md R95). -/

namespace Sys2Proof.Machine

/-- Ex9E skip-if-key (R250). -/
def execSkipIfKey (x : Nibble) (s : State) : Result :=
  .next (skipIf (keyDown (s.reg x) s).1 (keyDown (s.reg x) s).2)

/-- ExA1 skip-if-not-key (R251). -/
def execSkipIfNotKey (x : Nibble) (s : State) : Result :=
  .next (skipIf (!(keyDown (s.reg x) s).1) (keyDown (s.reg x) s).2)

/-- Fx07 read-DT (R253). -/
def execReadDT (x : Nibble) (s : State) : Result := .next (s.setReg x s.dt)

/-- Fx0A wait-key (R254): only the latch is written; `setKey` writes Vx later (R312). -/
def execWaitKey (x : Nibble) (s : State) : Result := .next (s.setWait (some x))

/-- Fx15 write-DT (R255). -/
def execWriteDT (x : Nibble) (s : State) : Result := .next (s.setDT (s.reg x))

/-- Fx18 write-ST (R256): BEEP_REQ is not touched. -/
def execWriteST (x : Nibble) (s : State) : Result := .next (s.setST (s.reg x))

/-- The defined no-op (R95). -/
def execNop (_w : Word) (s : State) : Result := .next (diagIf true .unlisted s)

end Sys2Proof.Machine
end

