-- ==== Sys2Proof/Machine/Step.lean ====
section
/-! DEFINITION. One step (spec/60_exceptions.md R308): nothing while waiting for a key, else one fetch-decode-execute. -/

namespace Sys2Proof.Machine

/-- `step(r)` of R308. The draw r is the run's next free value (log 2). -/
def step (s : State) : Host.Outcome State Fault Refusal :=
  match s.wait with
  | some _ => .next s
  | none => exec (decodeWord s.params.skip9Strict (fetchWord s)) (fetch s)

/-- The state with a table row's bits stored where `step` fetches next, and not waiting, so that the next step runs them. -/
def State.withFetchWord (s : State) (nbits w : Nat) : State := placeWord (tableWord nbits w) (s.setWait none)

end Sys2Proof.Machine
end

