-- ==== Sys2Proof/Machine/HostOps.lean ====
section
/-! DEFINITION. The host's operations other than `step` (spec/60_exceptions.md R307, R310-R315; spec/70_reset_and_hazards.md
R350). Each is one atomic transition between steps. -/

namespace Sys2Proof.Machine

/-- A timer after one tick: it stops at 0 (R310). -/
def tickDown (b : Byte) : Byte := if b.toNat > 0 then b - 1 else b

/-- `tick_timers()` (R310): BEEP_REQ is set only by the tick that takes ST from 1 to 0 (R311). WAIT is not read. -/
def tickTimers (s : State) : State :=
  { s with
    dt := tickDown s.dt
    st := tickDown s.st
    beepReq := if s.st.toNat > 0 ∧ tickDown s.st = 0 then true else s.beepReq }

/-- `set_key(k, d)` (R312): a press resolves a pending wait, whatever KEY[k] held before (C8, log 16). -/
def setKey (k : Nibble) (d : Bool) (s : State) : State :=
  match d, s.wait with
  | true, some r => ((s.setKeyAt k true).setReg r (k.setWidth 8)).setWait none
  | _, _ => s.setKeyAt k d

/-- `ack_draw()` (R314). -/
def ackDraw (s : State) : State := s.setDrawReq false

/-- `ack_beep()` (R315). -/
def ackBeep (s : State) : State := s.setBeepReq false

/-- MEM after `initialize` (R350): zero everywhere, then the font at FONT_BASE, then the image at LOAD_ADDR, truncated to
fit. An unlisted address past 0x04F reads as zero, so the zero fill writes the addresses below it. -/
def bootMemory (p : Params) (image : List Byte) : Memory :=
  loadBytes p.sizes
    (loadBytes p.sizes (loadBytes p.sizes [] 0 (List.replicate 80 0)) p.fontBase.toNat p.font.toList) p.loadAddr.toNat
    (image.take (p.sizes.memSize - p.loadAddr.toNat))

/-- The reset contents of the k-th byte element after the n-th `initialize` (R42): zero, or under `RESET_FILL = unwritten` a
free value (log 3). -/
def fillByte (fill : ResetFill) (n k : Nat) : Byte :=
  match fill with
  | .zero => 0
  | .unwritten => Config.unwrittenByte n k

/-- The reset contents of the k-th word element (R42). -/
def fillWord (fill : ResetFill) (n k : Nat) : Word :=
  match fill with
  | .zero => 0
  | .unwritten => Config.unwrittenWord n k

/-- The state right after `initialize` with the configuration `p` (R350, R42), when the run has taken `n` free values. -/
def boot (p : Params) (n : Nat) (image : List Byte) : State :=
  { State.reset with
    v := Vector.ofFn fun k => fillByte p.resetFill n k.val
    i := fillWord p.resetFill n 16
    stack := Vector.ofFn fun k => fillWord p.resetFill n k.val
    dt := fillByte p.resetFill n 16
    st := fillByte p.resetFill n 17
    pc := p.loadAddr.setWidth 16
    mem := bootMemory p image
    params := p
    draws := n }

/-- `initialize(image, mode)` (R350, R351): a full reset. Only the configuration, which is no machine state, outlives it,
with `LOAD_MODE` as the loader chooses, and the count of draws, which goes up so that every `initialize` takes fresh free values. -/
def initializeOp (image : List Byte) (mode : LoadMode) (s : State) : State :=
  boot { s.params with loadMode := mode } (s.draws + 1) image

end Sys2Proof.Machine
end

