-- ==== Sys2Proof/Machine/Run.lean ====
section
/-! DEFINITION. Runs: the host's operations in any order (spec/60_exceptions.md R307, R316; spec/70_reset_and_hazards.md R363). -/

namespace Sys2Proof.Machine

/-- The six operations of R307. The index of `setKey` is 4 bits wide, so none outside 0x0-0xF can be passed (D23). -/
inductive HostOp where
  | initializeOp (image : List Byte) (mode : LoadMode)
  | step
  | tickTimers
  | setKey (k : Nibble) (d : Bool)
  | ackDraw
  | ackBeep
deriving DecidableEq, Repr

/-- The transition of one operation. -/
def applyOp (op : HostOp) (s : State) : Result :=
  match op with
  | .initializeOp image mode => .next (initializeOp image mode s)
  | .step => step s
  | .tickTimers => .next (tickTimers s)
  | .setKey k d => .next (setKey k d s)
  | .ackDraw => .next (ackDraw s)
  | .ackBeep => .next (ackBeep s)

/-- A finite sequence of operations, in the order the host calls them (R71, R363). -/
def runOps : List HostOp → State → Result
  | [], s => .next s
  | op :: ops, s =>
    match applyOp op s with
    | .next t => runOps ops t
    | .fault f => .fault f
    | .refused r => .refused r

/-- One frame of the driver (R316): the pending transitions, `STEPS_PER_FRAME` steps, one tick. -/
def frameOps (p : Params) (transitions : List (Nibble × Bool)) : List HostOp :=
  transitions.map (fun t => HostOp.setKey t.1 t.2) ++ List.replicate p.stepsPerFrame HostOp.step ++ [HostOp.tickTimers]

end Sys2Proof.Machine
end

