-- ==== Sys2Proof/Machine/Unwritten.lean ====
section
/-! DEFINITION. The reading of `RESET_FILL = unwritten` (spec/10_state.md R42): a run that remembers which elements nothing has
written since `initialize`, and stops at the first read of one of them. What each operation reads and writes is that of its
rule's pseudocode (spec/10_state.md R43). -/

namespace Sys2Proof.Machine

/-- A machine, and the elements that nothing has written since its last `initialize`. -/
structure Tracked where
  machine : State
  unwritten : List FillElement
deriving DecidableEq, Repr

/-- V0..Vx as elements. -/
def regElements (x : Nibble) : List FillElement := (List.range (x.toNat + 1)).map fun k => .v (BitVec.ofNat 4 k)

/-- Every element whose reset contents `RESET_FILL` gives (R42). -/
def allElements : List FillElement :=
  regElements 0xF ++ (List.range 16).map (fun k => .stack (BitVec.ofNat 4 k)) ++ [.i, .dt, .st]

/-- The elements an instruction reads before it writes any, in the order it reads them (R43). `s` is the state it runs in. -/
def readElements (i : Instr) (s : State) : List FillElement :=
  match i with
  | .clear | .jump _ | .call _ | .loadImm _ _ | .loadI _ | .rand _ _ | .waitKey _ | .nop _ => []
  | .ret => [.stack (BitVec.ofNat 4 ((s.sp.toNat + 1) % 16))]
  | .skipEqImm x _ | .skipNeImm x _ | .addImm x _ | .shiftRight x _ | .shiftLeft x _ | .skipIfKey x | .skipIfNotKey x
  | .writeDT x | .writeST x | .fontAddr x => [.v x]
  | .skipEqReg x y | .orReg x y | .andReg x y | .xorReg x y | .addWithCarry x y | .subWithBorrow x y
  | .subReverseWithBorrow x y | .skipNeReg x y _ => [.v x, .v y]
  | .loadReg _ y => [.v y]
  | .jumpOffset _ => [.v 0]
  | .draw x y _ => [.v x, .v y, .i]
  | .readDT _ => [.dt]
  | .addI x => [.i, .v x]
  | .bcd x => [.v x, .i]
  | .storeRegs x => .i :: regElements x
  | .loadRegs _ => [.i]

/-- The elements an instruction writes (R43). -/
def writtenElements (i : Instr) (s : State) : List FillElement :=
  match i with
  | .clear | .ret | .jump _ | .skipEqImm _ _ | .skipNeImm _ _ | .skipEqReg _ _ | .skipNeReg _ _ _ | .jumpOffset _
  | .skipIfKey _ | .skipIfNotKey _ | .waitKey _ | .bcd _ | .storeRegs _ | .nop _ => []
  | .call _ => [.stack (BitVec.ofNat 4 s.stackIndex.val)]
  | .loadImm x _ | .addImm x _ | .loadReg x _ | .orReg x _ | .andReg x _ | .xorReg x _ | .rand x _ | .readDT x => [.v x]
  | .addWithCarry x _ | .subWithBorrow x _ | .shiftRight x _ | .subReverseWithBorrow x _ | .shiftLeft x _ => [.v 0xF, .v x]
  | .draw _ _ _ => [.v 0xF]
  | .loadI _ | .addI _ | .fontAddr _ => [.i]
  | .writeDT _ => [.dt]
  | .writeST _ => [.st]
  | .loadRegs x => regElements x

/-- The elements an operation of the host reads. A waiting step reads none; a tick reads both timers (R310). -/
def opReads (op : HostOp) (s : State) : List FillElement :=
  match op, s.wait with
  | .step, none => readElements (decodeWord s.params.skip9Strict (fetchWord s)) (fetch s)
  | .step, some _ => []
  | .tickTimers, _ => [.dt, .st]
  | .initializeOp _ _, _ | .setKey _ _, _ | .ackDraw, _ | .ackBeep, _ => []

/-- The elements that nothing has written after an operation on `s`, when before it nothing had written those of `u`. -/
def stillUnwritten (op : HostOp) (s : State) (u : List FillElement) : List FillElement :=
  match op, s.wait with
  | .step, none =>
    u.filter fun e => !(writtenElements (decodeWord s.params.skip9Strict (fetchWord s)) (fetch s)).contains e
  | .setKey _ true, some r => u.filter fun e => e != .v r
  | .initializeOp _ _, _ => if s.params.resetFill = .unwritten then allElements else []
  | .step, some _ | .tickTimers, _ | .setKey _ _, _ | .ackDraw, _ | .ackBeep, _ => u

/-- One operation: a fault at the first element it reads that nothing has written (R42), else the machine's own transition. -/
def trackedOp (op : HostOp) (t : Tracked) : Host.Outcome Tracked Fault Refusal :=
  match (opReads op t.machine).find? fun e => t.unwritten.contains e with
  | some e => .fault (.unwrittenRead e)
  | none =>
    match applyOp op t.machine with
    | .next s => .next { machine := s, unwritten := stillUnwritten op t.machine t.unwritten }
    | .fault f => .fault f
    | .refused r => .refused r

/-- A finite sequence of operations. -/
def trackedRun : List HostOp → Tracked → Host.Outcome Tracked Fault Refusal
  | [], t => .next t
  | op :: ops, t =>
    match trackedOp op t with
    | .next t' => trackedRun ops t'
    | .fault f => .fault f
    | .refused r => .refused r

end Sys2Proof.Machine
end

