-- ==== Sys2Proof/Safety.lean ====
section
/-! DEFINITION. What claims are stated in: the machine invariant, the diagnostics-free run, the STRICT machine of
spec/93_implementation_defined.md, the end of a run (spec/70_reset_and_hazards.md R363). -/

namespace Sys2Proof

open Sys2Proof.Machine

/-- Has DIAG the bit of cause `c` set? -/
def Machine.State.hasDiag (s : State) (c : DiagCause) : Bool := s.diag.getLsbD c.bit

/-- The invariant of the machine: memory is canonical (R35), SP is in 0..15 (R28), DEPTH in 0..16 (R40), and while no
push overflowed and no pop underflowed, SP and DEPTH agree: SP stands DEPTH places below 15, modulo 16 (R30, R31). -/
structure MachineInv (s : State) : Prop where
  mem_wf : Memory.wf s.mem = true
  sp_lt : s.sp.toNat < 16
  depth_le : s.depth ≤ 16
  balanced : s.hasDiag .stackOvf = false → s.hasDiag .stackUnf = false → (s.sp.toNat + s.depth) % 16 = 15

/-- The STRICT reading: the first setting of a DIAG bit is a fault that names the new bits
(spec/93_implementation_defined.md, Strict and permissive models). -/
def strictStep (s : State) : Host.Outcome State Fault Refusal :=
  match step s with
  | .next t => if t.diag &&& ~~~s.diag = 0 then .next t else .fault (.diagnostic (t.diag &&& ~~~s.diag))
  | .fault f => .fault f
  | .refused r => .refused r

/-- `k` steps of the STRICT machine. -/
def strictRun : Nat → State → Host.Outcome State Fault Refusal
  | 0, s => .next s
  | k + 1, s =>
    match strictStep s with
    | .next t => strictRun k t
    | .fault f => .fault f
    | .refused r => .refused r

/-- A program has finished (R363): it is not waiting, and the word at PC is a jump to PC itself, whose fetch records no
diagnostic that DIAG does not hold already. -/
def Machine.State.Finished (s : State) : Prop :=
  s.wait = none ∧ (∃ nnn : Addr, fetchWord s = layoutNNN 0x1 nnn ∧ absolute nnn = s.pc) ∧ (fetch s).diag = s.diag

end Sys2Proof
end

