-- ==== Sys2Proof/Certificates/Slice0/Obligations.lean ====
section
/-! DEFINITION. The statements for the provers. Each docstring names the rules of spec/ it formalises, and the model's or the
spec's own choices it rests on. `exec` runs with PC already advanced by 2 (R309), so "PC unchanged" is the PC the fetch left.
A clause `t = { s with … }` says that every element of the state it does not name is unchanged: registers, special registers,
stack, memory byte by byte, framebuffer, keypad, latch, flags. -/

open Sys2Proof Sys2Proof.Machine

/-! ### Words of the statements -/

namespace Sys2Proof.Claim

/-- `i` completes, writes the value `val` to Vx, and changes nothing else. -/
def WritesReg (i : Instr) (s : State) (x : Nibble) (val : Nat) : Prop :=
  ∃ t, exec i s = .next t ∧ (∀ r, (t.reg r).toNat = if r = x then val else (s.reg r).toNat) ∧ t = { s with v := t.v }

/-- `i` completes, adds 2 to PC modulo 65536 exactly when `cond` holds, and changes nothing else. -/
def SkipsWhen (i : Instr) (s : State) (cond : Prop) : Prop :=
  ∃ t, exec i s = .next t ∧ (cond → t.pc.toNat = (s.pc.toNat + 2) % 65536) ∧ (¬cond → t.pc = s.pc) ∧
    t = { s with pc := t.pc }

/-- `t` holds the DIAG bits of `s`, and the bit of `c` as well when `cond` holds. -/
def Records (s t : State) (c : DiagCause) (cond : Prop) : Prop :=
  ∀ d, t.hasDiag d = true ↔ s.hasDiag d = true ∨ (d = c ∧ cond)

/-- The value of register `r` after `VF <- bool(flag a b); V[x] <- result a b` on the registers of `s`. -/
def flagValue (s : State) (x r : Nibble) (flag : Bool) (result : Nat) : Nat :=
  if r = x then result else if r = 0xF then flag.toNat else (s.reg r).toNat

/-- The five flag instructions (R182): `flag` and `result` are functions of the operands Vx and Vy. Under `latched` both are
computed from the values before the instruction. Under `sequential` the result reads its operands again, after VF holds the flag. -/
def FlagAlu (i : Instr) (s : State) (x y : Nibble) (flag : Nat → Nat → Bool) (result : Nat → Nat → Nat)
    (matters : Prop) : Prop :=
  ∃ t, exec i s = .next t ∧
    (s.params.operandRead = .latched →
      ∀ r, (t.reg r).toNat =
        flagValue s x r (flag (s.reg x).toNat (s.reg y).toNat) (result (s.reg x).toNat (s.reg y).toNat)) ∧
    (s.params.operandRead = .sequential →
      ∀ r, (t.reg r).toNat =
        flagValue s x r (flag (s.reg x).toNat (s.reg y).toNat)
          (result (if x = 0xF then (flag (s.reg x).toNat (s.reg y).toNat).toNat else (s.reg x).toNat)
            (if y = 0xF then (flag (s.reg x).toNat (s.reg y).toNat).toNat else (s.reg y).toNat))) ∧
    Records s t .vfOperand matters ∧
    t = { s with v := t.v, diag := t.diag }

/-- Bit `c`, counted from the left, of row `r` of the sprite at I (R122). -/
def spriteBit (s : State) (r c : Nat) : Bool := (s.byteAt (s.i.toNat + r)).getLsbD (7 - c)

/-- The unreduced column of sprite column `c` (R121). -/
def column (s : State) (x : Nibble) (c : Nat) : Nat := (s.reg x).toNat % 64 + c

/-- The unreduced row of sprite row `r` (R121). -/
def row (s : State) (y : Nibble) (r : Nat) : Nat := (s.reg y).toNat % 32 + r

/-- Does Dxyn in `s` plot the pixel at row `py` and column `px` (R121)? -/
def Plots (s : State) (x y n : Nibble) (py : Fin 32) (px : Fin 64) : Prop :=
  ∃ r < n.toNat, ∃ c < 8, spriteBit s r c = true ∧ column s x c % 64 = px.val ∧ row s y r % 32 = py.val ∧
    (s.params.drawEdge = .wrap ∨ (column s x c < 64 ∧ row s y r < 32))

/-- Pushes a list of values, the first first. -/
def pushes (vs : List Word) (s : State) : State := vs.foldl (fun s a => push a s) s

/-- The values that `k` pops return, the first first. -/
def popped : Nat → State → List Word
  | 0, _ => []
  | k + 1, s => s.popValue :: popped k (pop s)

/-- The state after `k` pops. -/
def pops : Nat → State → State
  | 0, s => s
  | k + 1, s => pops k (pop s)

/-- The registers that an instruction may write (R43, R22). -/
def mayWrite : Instr → Nibble → Bool
  | .loadImm x _, r | .addImm x _, r | .loadReg x _, r | .orReg x _, r | .andReg x _, r | .xorReg x _, r
  | .rand x _, r | .readDT x, r => r == x
  | .addWithCarry x _, r | .subWithBorrow x _, r | .shiftRight x _, r | .subReverseWithBorrow x _, r
  | .shiftLeft x _, r => r == x || r == 0xF
  | .draw _ _ _, r => r == 0xF
  | .loadRegs x, r => decide (r.toNat ≤ x.toNat)
  | .clear, _ | .ret, _ | .jump _, _ | .call _, _ | .skipEqImm _ _, _ | .skipNeImm _ _, _ | .skipEqReg _ _, _
  | .skipNeReg _ _ _, _ | .loadI _, _ | .jumpOffset _, _ | .skipIfKey _, _ | .skipIfNotKey _, _ | .waitKey _, _
  | .writeDT _, _ | .writeST _, _ | .addI _, _ | .fontAddr _, _ | .bcd _, _ | .storeRegs _, _ | .nop _, _ => false

/-- How many bytes, from I on, an instruction stores to (R66). -/
def storeCount : Instr → Nat
  | .bcd _ => 3
  | .storeRegs x => x.toNat + 1
  | .clear | .ret | .jump _ | .call _ | .skipEqImm _ _ | .skipNeImm _ _ | .skipEqReg _ _ | .loadImm _ _ | .addImm _ _
  | .loadReg _ _ | .orReg _ _ | .andReg _ _ | .xorReg _ _ | .addWithCarry _ _ | .subWithBorrow _ _ | .shiftRight _ _
  | .subReverseWithBorrow _ _ | .shiftLeft _ _ | .skipNeReg _ _ _ | .loadI _ | .jumpOffset _ | .rand _ _ | .draw _ _ _
  | .skipIfKey _ | .skipIfNotKey _ | .readDT _ | .waitKey _ | .writeDT _ | .writeST _ | .addI _ | .fontAddr _
  | .loadRegs _ | .nop _ => 0

/-- The answer of `KeyDown(V[x])` (R252); the bit under `KEY_INDEX_MODE = draw` is a free value (log 2). -/
def KeyIsDown (s : State) (x : Nibble) : Prop :=
  if (s.reg x).toNat ≤ 0xF ∨ s.params.keyIndexMode = .lowNibble then s.key[(s.reg x).toNat % 16]? = some true
  else Config.freeBit s.draws = true

/-- A key skip completes: it skips when `cond` holds, records KEY_RANGE when Vx > 0xF, takes a free bit only under `draw`
(R250-R252). -/
def KeySkip (i : Instr) (s : State) (x : Nibble) (cond : Prop) : Prop :=
  ∃ t, exec i s = .next t ∧ (cond → t.pc.toNat = (s.pc.toNat + 2) % 65536) ∧ (¬cond → t.pc = s.pc) ∧
    Records s t .keyRange ((s.reg x).toNat > 0xF) ∧
    t.draws = (if (s.reg x).toNat > 0xF ∧ s.params.keyIndexMode = .draw then s.draws + 1 else s.draws) ∧
    t = { s with pc := t.pc, diag := t.diag, draws := t.draws }

/-- The value of an element, as a number. -/
def elementValue (s : State) : FillElement → Nat
  | .v x => (s.reg x).toNat
  | .i => s.i.toNat
  | .stack k => s.stack[k.toNat]?.elim 0 BitVec.toNat
  | .dt => s.dt.toNat
  | .st => s.st.toNat

/-- `s'` differs from `s` in no more than the elements of `u` and the parameter RESET_FILL. -/
def AgreeOutside (u : List FillElement) (s s' : State) : Prop :=
  (∀ e, e ∉ u → elementValue s' e = elementValue s e) ∧
  s' = { s with
    v := s'.v, i := s'.i, stack := s'.stack, dt := s'.dt, st := s'.st
    params := { s.params with resetFill := s'.params.resetFill } }

end Sys2Proof.Claim

/-! ### Encoding -/

/-- R90-R94: decoding the word, or the bytes, of a well-formed instruction gives it back, with every operand, under either
value of SKIP9_STRICT. -/
def Obligations.DecodeOfEncodeIsIdentity : Prop :=
  ∀ (strict : Bool) (i : Instr) (rest : List Byte), i.wf strict = true →
    decodeWord strict (encode i) = i ∧ decodeBytes strict (encodeBytes i ++ rest) = .ok (i, rest)

/-- R90, R94: decode is total, every word's instruction is well-formed, and encoding it gives the word back. That no bit of 9xyN or
of an unlisted word is dropped is the model's choice: `skipNeReg` carries n (log 12) and `nop` its word (log 24), which R94's
SNER(x, y) and NOP do not. -/
def Obligations.EncodeOfDecodeIsIdentity : Prop :=
  ∀ (strict : Bool) (w : Word), encode (decodeWord strict w) = w ∧ (decodeWord strict w).wf strict = true

/-- R93, R94: no two rows of the opcode table match one word; a word that matches a row decodes to that row's instruction;
a word that matches none decodes to the defined no-op. -/
def Obligations.DecodeFollowsOpcodeTable : Prop :=
  ∀ strict : Bool,
    (opcodeRows strict).Pairwise (fun p q => ∀ w, ¬(p.hits w = true ∧ q.hits w = true)) ∧
    ∀ w : Word,
      (∀ r ∈ opcodeRows strict, r.hits w = true → (decodeWord strict w).mnemonic = r.mnemonic) ∧
      (listed strict w = false → decodeWord strict w = .nop w)

/-- R91: the fields of a word, as numbers: family w[15:12], x w[11:8], y w[7:4], n w[3:0], nn w[7:0], nnn w[11:0]. -/
def Obligations.FieldsAreBitRanges : Prop :=
  ∀ w : Word,
    (fieldFamily w).toNat = w.toNat / 0x1000 ∧ (fieldX w).toNat = w.toNat / 0x100 % 0x10 ∧
    (fieldY w).toNat = w.toNat / 0x10 % 0x10 ∧ (fieldN w).toNat = w.toNat % 0x10 ∧
    (fieldNN w).toNat = w.toNat % 0x100 ∧ (fieldNNN w).toNat = w.toNat % 0x1000

/-- spec/95_test_vectors.md L2-D: a sample of words, one or more of each family. -/
def Obligations.SampleWordsDecode : Prop :=
  decodeWord true 0x0000 = .nop 0x0000 ∧ decodeWord true 0x00E0 = .clear ∧ decodeWord true 0x00E1 = .nop 0x00E1 ∧
  decodeWord true 0x00EE = .ret ∧ decodeWord true 0x0123 = .nop 0x0123 ∧ decodeWord true 0x1FFF = .jump 0xFFF ∧
  decodeWord true 0x5120 = .skipEqReg 1 2 ∧ decodeWord true 0x5121 = .nop 0x5121 ∧ decodeWord true 0x8008 = .nop 0x8008 ∧
  decodeWord true 0x800F = .nop 0x800F ∧ decodeWord true 0x801E = .shiftLeft 0 1 ∧
  decodeWord true 0x9120 = .skipNeReg 1 2 0 ∧ decodeWord true 0x9121 = .nop 0x9121 ∧
  decodeWord false 0x9121 = .skipNeReg 1 2 1 ∧ decodeWord true 0xD000 = .draw 0 0 0 ∧
  decodeWord true 0xE09E = .skipIfKey 0 ∧ decodeWord true 0xE09F = .nop 0xE09F ∧ decodeWord true 0xF000 = .nop 0xF000 ∧
  decodeWord true 0xF00A = .waitKey 0 ∧ decodeWord true 0xF165 = .loadRegs 1 ∧ decodeWord true 0xFFFF = .nop 0xFFFF

/-! ### Step and fetch -/

/-- R308: a waiting step does nothing; any other step executes the one instruction that the two bytes at PC decode to, in the
state the fetch leaves. -/
def Obligations.StepRunsOneDecodedInstruction : Prop :=
  ∀ s : State,
    (∀ r, s.wait = some r → step s = .next s) ∧
    (s.wait = none →
      ∀ i, decodeBytes s.params.skip9Strict [s.byteAt s.pc.toNat, s.byteAt (s.pc.toNat + 1)] = .ok (i, []) →
        i.wf s.params.skip9Strict = true → step s = exec i (fetch s))

/-- R309: the fetch reads the bytes at PC mod 0x1000 and (PC + 1) mod 0x1000 big-endian, advances PC by 2 modulo 65536, records
PC_ODD and PC_RANGE, and changes nothing else. The wrap and the diagnostics are the spec's own decisions D5, D6, D19. -/
def Obligations.FetchReadsTwoBytesAndAdvancesPc : Prop :=
  ∀ s : State,
    (fetchWord s).toNat =
      (memGet s.mem (s.pc.toNat % 0x1000)).toNat * 256 + (memGet s.mem ((s.pc.toNat + 1) % 0x1000)).toNat ∧
    (fetch s).pc.toNat = (s.pc.toNat + 2) % 65536 ∧
    (∀ d, (fetch s).hasDiag d = true ↔
      s.hasDiag d = true ∨ (d = .pcOdd ∧ s.pc.toNat % 2 = 1) ∨
        (d = .pcRange ∧ (s.pc.toNat < s.params.loadAddr.toNat ∨ s.pc.toNat > 0x0FFE))) ∧
    fetch s = { s with pc := (fetch s).pc, diag := (fetch s).diag }

/-- R300: every state and every instruction has a next state; no step faults and no instruction is refused. -/
def Obligations.EveryStepHasANextState : Prop :=
  (∀ (i : Instr) (s : State), ∃ t, exec i s = .next t) ∧ ∀ s : State, ∃ t, step s = .next t

/-! ### Display -/

/-- R120: 00E0 clears every pixel, sets DRAW_REQ, and changes nothing else. -/
def Obligations.ClearBlanksTheFramebuffer : Prop :=
  ∀ (strict : Bool) (s : State), decodeWord strict 0x00E0 = .clear ∧
    ∃ t, exec .clear s = .next t ∧ (∀ py px, pixelAt t.fb py px = false) ∧ t = { s with fb := t.fb, drawReq := true }

/-- R121, with the bit order of R122 (general knowledge, log 9), the coordinates read before VF is cleared (D9, log 10) and n = 0
drawing nothing (D11, log 10): Dxyn inverts exactly the pixels its set bits plot, under either DRAW_EDGE; VF becomes 1 exactly when one of them was 1; DRAW_REQ is set; I_RANGE and DRAW_EDGE are recorded; nothing
else changes. -/
def Obligations.DrawXorsTheSprite : Prop :=
  ∀ (strict : Bool) (x y n : Nibble) (s : State),
    decodeWord strict (layoutXYN 0xD x y n) = .draw x y n ∧
    ∃ t, exec (.draw x y n) s = .next t ∧
      (∀ py px, (Claim.Plots s x y n py px → pixelAt t.fb py px = !pixelAt s.fb py px) ∧
        (¬Claim.Plots s x y n py px → pixelAt t.fb py px = pixelAt s.fb py px)) ∧
      ((∃ py px, Claim.Plots s x y n py px ∧ pixelAt s.fb py px = true) → t.reg 0xF = 1) ∧
      ((¬∃ py px, Claim.Plots s x y n py px ∧ pixelAt s.fb py px = true) → t.reg 0xF = 0) ∧
      (∀ r, r ≠ 0xF → t.reg r = s.reg r) ∧
      (∀ d, t.hasDiag d = true ↔
        s.hasDiag d = true ∨ (d = .iRange ∧ ∃ r < n.toNat, s.i.toNat + r > 0xFFF) ∨
          (d = .drawEdge ∧ ∃ r < n.toNat, ∃ c < 8, Claim.spriteBit s r c = true ∧
            (Claim.column s x c ≥ 64 ∨ Claim.row s y r ≥ 32))) ∧
      t = { s with v := t.v, fb := t.fb, drawReq := true, diag := t.diag }

/-- R123: a second draw of the same sprite at the same place restores the framebuffer; if the first draw plotted a pixel and
met none that was 1, the second sets VF. The place is the same only when neither coordinate register is VF. -/
def Obligations.DrawTwiceRestoresTheFramebuffer : Prop :=
  ∀ (x y n : Nibble) (s : State), x ≠ 0xF → y ≠ 0xF →
    ∃ t u, exec (.draw x y n) s = .next t ∧ exec (.draw x y n) t = .next u ∧ u.fb = s.fb ∧
      ((∃ py px, Claim.Plots s x y n py px) → t.reg 0xF = 0 → u.reg 0xF = 1)

/-! ### Control transfer -/

/-- R140, R31: 00EE pops PC: SP goes up by one modulo 16 and PC is the entry there, which stays in place; a pop at DEPTH 0
records STACK_UNF; nothing else changes. -/
def Obligations.ReturnPopsPc : Prop :=
  ∀ (strict : Bool) (s : State), decodeWord strict 0x00EE = .ret ∧
    ∃ t, exec .ret s = .next t ∧ t.sp.toNat = (s.sp.toNat + 1) % 16 ∧ s.stack[(s.sp.toNat + 1) % 16]? = some t.pc ∧
      t.depth = s.depth - 1 ∧ Claim.Records s t .stackUnf (s.depth = 0) ∧
      t = { s with pc := t.pc, sp := t.sp, depth := t.depth, diag := t.diag }

/-- R142, R30: 2nnn stores PC, already advanced, at STACK[SP], lowers SP modulo 16 and jumps to nnn; a push at DEPTH 16 records
STACK_OVF; nothing else changes. SP is in 0..15 by the machine's invariant. -/
def Obligations.CallPushesPc : Prop :=
  ∀ (strict : Bool) (nnn : Addr) (s : State), decodeWord strict (layoutNNN 0x2 nnn) = .call nnn ∧
    (s.sp.toNat < 16 →
      ∃ t, exec (.call nnn) s = .next t ∧ t.pc.toNat = nnn.toNat ∧ (t.sp.toNat : Int) = ((s.sp.toNat : Int) - 1) % 16 ∧
        t.stack[s.sp.toNat]? = some s.pc ∧ (∀ k, k ≠ s.sp.toNat → t.stack[k]? = s.stack[k]?) ∧
        t.depth = (if s.depth = 16 then 16 else s.depth + 1) ∧ Claim.Records s t .stackOvf (s.depth = 16) ∧
        t = { s with pc := t.pc, sp := t.sp, stack := t.stack, depth := t.depth, diag := t.diag })

/-- R141, R143: 1nnn sets PC to nnn, Bnnn to nnn + V0, unmasked and unchecked; nothing else changes. That a target past 0xFFF or an
odd one is legal is the spec's own decisions D5 and D6 (logs 6, 8). -/
def Obligations.JumpsSetPc : Prop :=
  ∀ (strict : Bool) (nnn : Addr) (s : State),
    decodeWord strict (layoutNNN 0x1 nnn) = .jump nnn ∧ decodeWord strict (layoutNNN 0xB nnn) = .jumpOffset nnn ∧
    (∃ t, exec (.jump nnn) s = .next t ∧ t.pc.toNat = nnn.toNat ∧ t = { s with pc := t.pc }) ∧
    ∃ t, exec (.jumpOffset nnn) s = .next t ∧ t.pc.toNat = (nnn.toNat + (s.reg 0).toNat) % 65536 ∧ t = { s with pc := t.pc }

/-- R142's testable property: a return at the stack a call left gives back the PC and the SP before the call. -/
def Obligations.CallThenReturnRestoresPc : Prop :=
  ∀ (nnn : Addr) (s : State), s.sp.toNat < 16 →
    ∃ t, exec (.call nnn) s = .next t ∧
      ∀ t' : State, t'.stack = t.stack → t'.sp = t.sp →
        ∃ u, exec .ret t' = .next u ∧ u.pc = s.pc ∧ u.sp = s.sp

/-- R32: up to sixteen pushes are popped in reverse order, and SP is back where it was; if the stack had room, DEPTH and DIAG
are too. -/
def Obligations.NestedPushesPopInReverse : Prop :=
  ∀ (vs : List Word) (s : State), vs.length ≤ 16 → s.sp.toNat < 16 →
    Claim.popped vs.length (Claim.pushes vs s) = vs.reverse ∧
    (Claim.pops vs.length (Claim.pushes vs s)).sp = s.sp ∧
    (s.depth + vs.length ≤ 16 →
      (Claim.pops vs.length (Claim.pushes vs s)).depth = s.depth ∧
      (Claim.pops vs.length (Claim.pushes vs s)).diag = s.diag)

/-! ### Skips -/

/-- R160, R161, R162: the skips on Vx = nn, Vx ≠ nn and Vx = Vy, with their encodings; 5xyN with N ≠ 0 is the defined no-op. -/
def Obligations.SkipsCompareRegistersAndConstants : Prop :=
  ∀ (strict : Bool) (x y n : Nibble) (nn : Byte) (s : State),
    decodeWord strict (layoutXNN 0x3 x nn) = .skipEqImm x nn ∧ decodeWord strict (layoutXNN 0x4 x nn) = .skipNeImm x nn ∧
    decodeWord strict (layoutXYN 0x5 x y 0) = .skipEqReg x y ∧
    (n ≠ 0 → decodeWord strict (layoutXYN 0x5 x y n) = .nop (layoutXYN 0x5 x y n)) ∧
    Claim.SkipsWhen (.skipEqImm x nn) s ((s.reg x).toNat = nn.toNat) ∧
    Claim.SkipsWhen (.skipNeImm x nn) s ((s.reg x).toNat ≠ nn.toNat) ∧
    Claim.SkipsWhen (.skipEqReg x y) s ((s.reg x).toNat = (s.reg y).toNat)

/-- R163, R97: 9xy0 skips when Vx ≠ Vy. 9xyN with N ≠ 0 is the defined no-op under SKIP9_STRICT = true, and the skip under false;
it records UNLISTED either way. -/
def Obligations.SkipNeRegFollowsSkip9Strict : Prop :=
  ∀ (strict : Bool) (x y n : Nibble) (s : State),
    decodeWord strict (layoutXYN 0x9 x y 0) = .skipNeReg x y 0 ∧
    decodeWord false (layoutXYN 0x9 x y n) = .skipNeReg x y n ∧
    (n ≠ 0 → decodeWord true (layoutXYN 0x9 x y n) = .nop (layoutXYN 0x9 x y n)) ∧
    (∃ t, exec (.skipNeReg x y n) s = .next t ∧
      ((s.reg x).toNat ≠ (s.reg y).toNat → t.pc.toNat = (s.pc.toNat + 2) % 65536) ∧
      ((s.reg x).toNat = (s.reg y).toNat → t.pc = s.pc) ∧
      Claim.Records s t .unlisted (n ≠ 0) ∧ t = { s with pc := t.pc, diag := t.diag }) ∧
    ∃ t, exec (.nop (layoutXYN 0x9 x y n)) s = .next t ∧ Claim.Records s t .unlisted True ∧ t = { s with diag := t.diag }

/-! ### Loads and ALU -/

/-- R180, R181: 6xnn loads nn; 7xnn adds nn modulo 256 and writes no flag. -/
def Obligations.ImmediateLoadsAndAdds : Prop :=
  ∀ (strict : Bool) (x : Nibble) (nn : Byte) (s : State),
    decodeWord strict (layoutXNN 0x6 x nn) = .loadImm x nn ∧ decodeWord strict (layoutXNN 0x7 x nn) = .addImm x nn ∧
    Claim.WritesReg (.loadImm x nn) s x nn.toNat ∧
    Claim.WritesReg (.addImm x nn) s x (((s.reg x).toNat + nn.toNat) % 256)

/-- R183-R186: 8xy0 copies Vy; 8xy1, 8xy2 and 8xy3 are bitwise or, and, xor; VF is not reset. -/
def Obligations.RegisterMovesAndLogic : Prop :=
  ∀ (strict : Bool) (x y : Nibble) (s : State),
    decodeWord strict (layoutXYN 0x8 x y 0) = .loadReg x y ∧ decodeWord strict (layoutXYN 0x8 x y 1) = .orReg x y ∧
    decodeWord strict (layoutXYN 0x8 x y 2) = .andReg x y ∧ decodeWord strict (layoutXYN 0x8 x y 3) = .xorReg x y ∧
    Claim.WritesReg (.loadReg x y) s x (s.reg y).toNat ∧
    Claim.WritesReg (.orReg x y) s x ((s.reg x).toNat ||| (s.reg y).toNat) ∧
    Claim.WritesReg (.andReg x y) s x ((s.reg x).toNat &&& (s.reg y).toNat) ∧
    Claim.WritesReg (.xorReg x y) s x ((s.reg x).toNat ^^^ (s.reg y).toNat)

/-- R187, under either ALU_OPERAND_READ: sum modulo 256, VF = 1 iff the exact sum exceeds 255, the result written last. -/
def Obligations.AddWithCarryResult : Prop :=
  ∀ (strict : Bool) (x y : Nibble) (s : State),
    decodeWord strict (layoutXYN 0x8 x y 4) = .addWithCarry x y ∧
    Claim.FlagAlu (.addWithCarry x y) s x y (fun a b => decide (a + b > 255)) (fun a b => (a + b) % 256)
      (x = 0xF ∨ y = 0xF)

/-- R188, R190, under either ALU_OPERAND_READ: difference modulo 256, VF = 1 iff minuend > subtrahend strictly, the result
written last. -/
def Obligations.SubtractionResults : Prop :=
  ∀ (strict : Bool) (x y : Nibble) (s : State),
    decodeWord strict (layoutXYN 0x8 x y 5) = .subWithBorrow x y ∧
    decodeWord strict (layoutXYN 0x8 x y 7) = .subReverseWithBorrow x y ∧
    Claim.FlagAlu (.subWithBorrow x y) s x y (fun a b => decide (a > b)) (fun a b => (a + 256 - b) % 256)
      (x = 0xF ∨ y = 0xF) ∧
    Claim.FlagAlu (.subReverseWithBorrow x y) s x y (fun a b => decide (b > a)) (fun a b => (b + 256 - a) % 256)
      (x = 0xF ∨ y = 0xF)

/-- R189, R191, under either ALU_OPERAND_READ: Vx, not Vy, shifted by one; VF = the bit shifted out; the result written last. -/
def Obligations.ShiftResults : Prop :=
  ∀ (strict : Bool) (x y : Nibble) (s : State),
    decodeWord strict (layoutXYN 0x8 x y 6) = .shiftRight x y ∧ decodeWord strict (layoutXYN 0x8 x y 0xE) = .shiftLeft x y ∧
    Claim.FlagAlu (.shiftRight x y) s x y (fun a _ => decide (a % 2 = 1)) (fun a _ => a / 2) (x = 0xF) ∧
    Claim.FlagAlu (.shiftLeft x y) s x y (fun a _ => decide (a ≥ 128)) (fun a _ => a * 2 % 256) (x = 0xF)

/-- R192: Cxnn writes the environment's draw, a free value (log 2), masked by nn: whatever the draw, the bits of Vx outside nn are
0. The count of draws, the model's own, goes up by one. -/
def Obligations.RandMasksTheDraw : Prop :=
  ∀ (strict : Bool) (x : Nibble) (nn : Byte) (s : State),
    decodeWord strict (layoutXNN 0xC x nn) = .rand x nn ∧
    ∃ t, exec (.rand x nn) s = .next t ∧
      (t.reg x).toNat = (Config.freeByte s.draws).toNat &&& nn.toNat ∧ (∀ r, r ≠ x → t.reg r = s.reg r) ∧
      t = { s with v := t.v, draws := s.draws + 1 }

/-! ### Index register and memory transfers -/

/-- R220: Annn sets I to nnn, zero-extended, and changes nothing else. -/
def Obligations.IndexLoadsTheAddress : Prop :=
  ∀ (strict : Bool) (nnn : Addr) (s : State),
    decodeWord strict (layoutNNN 0xA nnn) = .loadI nnn ∧
    ∃ t, exec (.loadI nnn) s = .next t ∧ t.i.toNat = nnn.toNat ∧ t = { s with i := t.i }

/-- R221: Fx1E adds Vx to I modulo 65536, with no mask to 12 bits and no flag. The wrap past 16 bits is the spec's own decision
D7 (log 15). -/
def Obligations.IndexAddWrapsAtSixteenBits : Prop :=
  ∀ (strict : Bool) (x : Nibble) (s : State),
    decodeWord strict (layoutXNN 0xF x 0x1E) = .addI x ∧
    ∃ t, exec (.addI x) s = .next t ∧ t.i.toNat = (s.i.toNat + (s.reg x).toNat) % 65536 ∧ t = { s with i := t.i }

/-- R222: Fx29 sets I to FONT_BASE plus five times the digit, Vx or its low nibble as FONT_LOW_NIBBLE says, and records FONT_RANGE
for Vx > 0xF. FONT_BASE is 0x000 on this hardware (R6). -/
def Obligations.FontAddrPointsAtTheGlyph : Prop :=
  ∀ (strict : Bool) (x : Nibble) (s : State),
    decodeWord strict (layoutXNN 0xF x 0x29) = .fontAddr x ∧
    ∃ t, exec (.fontAddr x) s = .next t ∧
      (s.params.fontLowNibble = false → t.i.toNat = s.params.fontBase.toNat + (s.reg x).toNat * 5) ∧
      (s.params.fontLowNibble = true → t.i.toNat = s.params.fontBase.toNat + (s.reg x).toNat % 16 * 5) ∧
      Claim.Records s t .fontRange ((s.reg x).toNat > 0xF) ∧ t = { s with i := t.i, diag := t.diag } ∧
      Params.spec.fontBase.toNat = 0

/-- R223: Fx33 stores the hundreds, tens and ones of Vx at I, I+1 and I+2, each address reduced; every other byte and I are
unchanged. -/
def Obligations.BcdWritesThreeDigits : Prop :=
  ∀ (strict : Bool) (x : Nibble) (s : State),
    decodeWord strict (layoutXNN 0xF x 0x33) = .bcd x ∧
    (Memory.wf s.mem = true →
      ∃ t, exec (.bcd x) s = .next t ∧
        (∀ a < 0x1000, (t.byteAt a).toNat =
          if a = s.i.toNat % 0x1000 then (s.reg x).toNat / 100
          else if a = (s.i.toNat + 1) % 0x1000 then (s.reg x).toNat / 10 % 10
          else if a = (s.i.toNat + 2) % 0x1000 then (s.reg x).toNat % 10 else (s.byteAt a).toNat) ∧
        Claim.Records s t .iRange (s.i.toNat + 2 > 0xFFF) ∧ t = { s with mem := t.mem, diag := t.diag })

/-- R224: Fx55 stores V0..Vx at I..I+x, each address reduced; every other byte and I are unchanged. -/
def Obligations.StoreRegsWritesTheRange : Prop :=
  ∀ (strict : Bool) (x : Nibble) (s : State),
    decodeWord strict (layoutXNN 0xF x 0x55) = .storeRegs x ∧
    (Memory.wf s.mem = true →
      ∃ t, exec (.storeRegs x) s = .next t ∧
        (∀ r : Nibble, r.toNat ≤ x.toNat → t.byteAt ((s.i.toNat + r.toNat) % 0x1000) = s.reg r) ∧
        (∀ a < 0x1000, (∀ k ≤ x.toNat, a ≠ (s.i.toNat + k) % 0x1000) → t.byteAt a = s.byteAt a) ∧
        Claim.Records s t .iRange (s.i.toNat + x.toNat > 0xFFF) ∧ t = { s with mem := t.mem, diag := t.diag })

/-- R225: Fx65 loads V0..Vx from I..I+x, each address reduced; the other registers, memory and I are unchanged. -/
def Obligations.LoadRegsReadsTheRange : Prop :=
  ∀ (strict : Bool) (x : Nibble) (s : State),
    decodeWord strict (layoutXNN 0xF x 0x65) = .loadRegs x ∧
    ∃ t, exec (.loadRegs x) s = .next t ∧
      (∀ r : Nibble, t.reg r =
        if r.toNat ≤ x.toNat then memGet s.mem ((s.i.toNat + r.toNat) % 0x1000) else s.reg r) ∧
      Claim.Records s t .iRange (s.i.toNat + x.toNat > 0xFFF) ∧ t = { s with v := t.v, diag := t.diag }

/-! ### Keypad, timers, wait, no-op -/

/-- R250-R252: Ex9E skips when the key of Vx is down, ExA1 when it is up, under either KEY_INDEX_MODE. -/
def Obligations.KeySkipsSampleTheKeypad : Prop :=
  ∀ (strict : Bool) (x : Nibble) (s : State),
    decodeWord strict (layoutXNN 0xE x 0x9E) = .skipIfKey x ∧ decodeWord strict (layoutXNN 0xE x 0xA1) = .skipIfNotKey x ∧
    Claim.KeySkip (.skipIfKey x) s x (Claim.KeyIsDown s x) ∧ Claim.KeySkip (.skipIfNotKey x) s x (¬Claim.KeyIsDown s x)

/-- R253, R255, R256: Fx07 reads DT, Fx15 and Fx18 write DT and ST; no other instruction changes DT; the beep comes only from
the tick that takes ST from 1 to 0, so Fx18 itself never sets BEEP_REQ. -/
def Obligations.TimerTransfers : Prop :=
  ∀ (strict : Bool) (x : Nibble) (s : State),
    decodeWord strict (layoutXNN 0xF x 0x07) = .readDT x ∧ decodeWord strict (layoutXNN 0xF x 0x15) = .writeDT x ∧
    decodeWord strict (layoutXNN 0xF x 0x18) = .writeST x ∧
    Claim.WritesReg (.readDT x) s x s.dt.toNat ∧
    exec (.writeDT x) s = .next { s with dt := s.reg x } ∧ exec (.writeST x) s = .next { s with st := s.reg x } ∧
    (∀ i t, exec i s = .next t → (∀ z, i ≠ .writeDT z) → t.dt = s.dt) ∧ (s.dt = 0 → (tickTimers s).dt = 0) ∧
    ((tickTimers s).beepReq = true ↔ s.beepReq = true ∨ s.st = 1)

/-- R254: Fx0A sets the latch and nothing else; then every step does nothing, a release leaves the latch, a tick counts on, and a
press writes the key's index to Vx, for x = 0 too, and ends the wait. -/
def Obligations.WaitKeyHaltsUntilAPress : Prop :=
  ∀ (strict : Bool) (x : Nibble) (s : State),
    decodeWord strict (layoutXNN 0xF x 0x0A) = .waitKey x ∧
    ∃ t, exec (.waitKey x) s = .next t ∧ t = { s with wait := some x } ∧ step t = .next t ∧
      (∀ k, (setKey k false t).wait = some x ∧ (setKey k false t).v = s.v) ∧
      ((tickTimers t).wait = some x ∧ (tickTimers t).dt.toNat = s.dt.toNat - 1) ∧
      ∀ k, (setKey k true t).wait = none ∧ (setKey k true t).pc = s.pc ∧
        ∀ r, ((setKey k true t).reg r).toNat = if r = x then k.toNat else (s.reg r).toNat

/-- R95: a word that no row of the opcode table lists decodes to the defined no-op, whose whole effect is the bit UNLISTED. -/
def Obligations.UnlistedWordsOnlyRecordUnlisted : Prop :=
  (∀ (strict : Bool) (w : Word), listed strict w = false → decodeWord strict w = .nop w) ∧
  ∀ (w : Word) (s : State),
    ∃ t, exec (.nop w) s = .next t ∧ Claim.Records s t .unlisted True ∧ t = { s with diag := t.diag }

/-! ### Host operations -/

/-- R310: a tick lowers DT and ST by one, each stopping at 0, and sets BEEP_REQ when ST goes from 1 to 0; it touches nothing else
and reads no WAIT. -/
def Obligations.TickTimersCountsDown : Prop :=
  ∀ s : State,
    (tickTimers s).dt.toNat = s.dt.toNat - 1 ∧ (tickTimers s).st.toNat = s.st.toNat - 1 ∧
    ((tickTimers s).beepReq = true ↔ s.beepReq = true ∨ s.st.toNat = 1) ∧
    tickTimers s = { s with dt := (tickTimers s).dt, st := (tickTimers s).st, beepReq := (tickTimers s).beepReq }

/-- R311: of all operations, only a tick with ST = 1 raises BEEP_REQ; only `ack_beep` and `initialize` lower it. -/
def Obligations.BeepOnlyOnTheEdge : Prop :=
  ∀ (op : HostOp) (s t : State), applyOp op s = .next t →
    (s.beepReq = false → t.beepReq = true → op = .tickTimers ∧ s.st = 1) ∧
    (s.beepReq = true → t.beepReq = false → op = .ackBeep ∨ ∃ image mode, op = .initializeOp image mode)

/-- R41: DRAW_REQ is raised only by a step that executes 00E0 or Dxyn, each of which raises it, and lowered only by `ack_draw` and
by `initialize`. -/
def Obligations.DrawRequestIsSticky : Prop :=
  ∀ (op : HostOp) (s t : State), applyOp op s = .next t →
    (s.drawReq = false → t.drawReq = true → op = .step ∧ s.wait = none ∧
      (decodeWord s.params.skip9Strict (fetchWord s)).mnemonic ∈ ["clear", "draw"]) ∧
    (op = .step → s.wait = none → (decodeWord s.params.skip9Strict (fetchWord s)).mnemonic ∈ ["clear", "draw"] →
      t.drawReq = true) ∧
    (s.drawReq = true → t.drawReq = false → op = .ackDraw ∨ ∃ image mode, op = .initializeOp image mode)

/-- R312: `set_key` writes KEY[k]; a press while a wait for Vr is pending writes k to Vr and ends the wait, whatever KEY[k] held;
nothing else changes. -/
def Obligations.SetKeyResolvesTheWait : Prop :=
  ∀ (k : Nibble) (d : Bool) (s : State),
    (∀ j, (setKey k d s).keyAt j = if j = k then d else s.keyAt j) ∧
    (∀ r, d = true → s.wait = some r → (setKey k d s).wait = none ∧
      ∀ q, ((setKey k d s).reg q).toNat = if q = r then k.toNat else (s.reg q).toNat) ∧
    (d = false ∨ s.wait = none → (setKey k d s).wait = s.wait ∧ (setKey k d s).v = s.v) ∧
    setKey k d s = { s with key := (setKey k d s).key, wait := (setKey k d s).wait, v := (setKey k d s).v }

/-- R314, R315: each acknowledge clears its flag and nothing else. -/
def Obligations.AcknowledgesClearOneFlag : Prop :=
  ∀ s : State, ackDraw s = { s with drawReq := false } ∧ ackBeep s = { s with beepReq := false }

/-- R350, R68, R69: after `initialize` memory holds the image at LOAD_ADDR, truncated at the top of memory, else the font table at
FONT_BASE, and zero elsewhere, under any parameters. The font's bytes are the parameter FONT (log 7). That a font table past the
top of memory goes on at 0x000 is the model's choice for a FONT_BASE other than this hardware's 0x000 (log 1). -/
def Obligations.InitializeLoadsMemory : Prop :=
  ∀ (image : List Byte) (mode : LoadMode) (s : State) (a : Nat), a < 0x1000 →
    (initializeOp image mode s).byteAt a =
      if (initializeOp image mode s).params.loadAddr.toNat ≤ a then
        image[a - (initializeOp image mode s).params.loadAddr.toNat]?.getD
          (s.params.font[(a + 0x1000 - s.params.fontBase.toNat) % 0x1000]?.getD 0)
      else s.params.font[(a + 0x1000 - s.params.fontBase.toNat) % 0x1000]?.getD 0

/-- R69: an image's bytes past the room above LOAD_ADDR are dropped, with no diagnostic; the room is 3584 bytes in standard mode and
2464 in alternate mode under the parameters of R6. -/
def Obligations.OversizeImageIsTruncated : Prop :=
  (∀ (image : List Byte) (mode : LoadMode) (s : State),
    initializeOp image mode s =
      initializeOp (image.take (0x1000 - (initializeOp image mode s).params.loadAddr.toNat)) mode s ∧
    (initializeOp image mode s).diag = 0) ∧
  0x1000 - ({ Params.spec with loadMode := .standard } : Params).loadAddr.toNat = 3584 ∧
  0x1000 - ({ Params.spec with loadMode := .alternate } : Params).loadAddr.toNat = 2464

/-- R42, R350-R352: every other element after `initialize`. The zeros of V, I, DT, ST and STACK under `RESET_FILL = zero`, this
hardware's value, are the spec's own decision D2 (log 3); under `unwritten` they hold free values, whose reads
`Obligations.UnwrittenElementsAreNeverRead` rules out. The values of KEY, WAIT and the flags are D3 (log 4); that the configuration
and the count of draws outlive it is the model's choice (logs 1, 2). -/
def Obligations.InitializeResetsEveryElement : Prop :=
  ∀ (image : List Byte) (mode : LoadMode) (s t : State), t = initializeOp image mode s →
    t.params = { s.params with loadMode := mode } ∧ t.pc.toNat = t.params.loadAddr.toNat ∧ t.sp.toNat = 15 ∧
    (s.params.resetFill = .zero →
      (∀ r, t.reg r = 0) ∧ t.i = 0 ∧ t.dt = 0 ∧ t.st = 0 ∧ (∀ k < 16, t.stack[k]? = some 0)) ∧
    Params.spec.resetFill = .zero ∧
    (∀ py px, pixelAt t.fb py px = false) ∧ (∀ k, t.keyAt k = false) ∧ t.wait = none ∧ t.drawReq = false ∧
    t.beepReq = false ∧ t.diag = 0 ∧ t.depth = 0 ∧ t.draws = s.draws + 1

/-- The model's `State.reset` is `initialize` of an empty image in standard mode with the parameters of R6: PC 0x200, SP 15,
memory that lists nothing (log 20). The sizes of R6 have their one value under every parameters (log 1). -/
def Obligations.ResetIsInitializeOfTheEmptyImage : Prop :=
  State.reset = boot Params.spec 0 [] ∧ State.reset.pc.toNat = 0x200 ∧ State.reset.sp.toNat = 15 ∧ State.reset.mem = [] ∧
    Params.spec.loadAddr.toNat = 0x200 ∧
    ∀ p : Params, p.sizes.memSize = 4096 ∧ 2 ^ p.sizes.addrBits = p.sizes.memSize ∧ p.sizes.nregs = 16 ∧
      p.sizes.stackDepth = 16 ∧ p.sizes.fbW = 64 ∧ p.sizes.fbH = 32 ∧ p.sizes.nkeys = 16

/-! ### The wait latch -/

/-- R313: the transitions of the input-wait state machine, for every operation. -/
def Obligations.WaitLatchStateMachine : Prop :=
  ∀ (op : HostOp) (s t : State), applyOp op s = .next t →
    (op = .step → s.wait = none →
      ∀ r, t.wait = some r ↔ decodeWord s.params.skip9Strict (fetchWord s) = .waitKey r) ∧
    (op = .step → s.wait ≠ none → t = s) ∧
    (∀ k, op = .setKey k true → t.wait = none) ∧
    (∀ k, op = .setKey k false → t.wait = s.wait) ∧
    (op = .tickTimers ∨ op = .ackDraw ∨ op = .ackBeep → t.wait = s.wait) ∧
    (∀ image mode, op = .initializeOp image mode → t.wait = none)

/-- R358, R316: a frame of the host's protocol without a press leaves a waiting machine waiting, with PC and every register
unchanged, while its timers count down (R310). That they count during a wait is the spec's own decision D22 (log 17); the frame has
STEPS_PER_FRAME steps, any number (D24, log 21). -/
def Obligations.WaitLastsAFrameWithoutPress : Prop :=
  ∀ (transitions : List (Nibble × Bool)) (s : State) (r : Nibble), s.wait = some r → (∀ p ∈ transitions, p.2 = false) →
    ∃ t, runOps (frameOps s.params transitions) s = .next t ∧ t.wait = some r ∧ t.pc = s.pc ∧ t.v = s.v ∧ t.mem = s.mem ∧
      t.dt.toNat = s.dt.toNat - 1 ∧ t.st.toNat = s.st.toNat - 1

/-! ### Invariants and frames over all instructions -/

/-- R28, R35, R40: from every state that meets the invariant, a step gives one that meets it. -/
def Obligations.StepKeepsInvariant : Prop :=
  ∀ s t : State, MachineInv s → step s = .next t → MachineInv t

/-- R307, R316: the invariant holds after every sequence of the host's operations, in any order, that starts where it holds. -/
def Obligations.RunsKeepInvariant : Prop :=
  ∀ (ops : List HostOp) (s t : State), MachineInv s → runOps ops s = .next t → MachineInv t

/-- R42: the invariant holds right after reset, and after `initialize` of any image under any parameters. -/
def Obligations.InitializedStatesHaveInvariant : Prop :=
  MachineInv State.reset ∧ ∀ (p : Params) (n : Nat) (image : List Byte), MachineInv (boot p n image)

/-- R39, R301: no operation but `initialize` clears a bit of DIAG. -/
def Obligations.DiagnosticsAreSticky : Prop :=
  ∀ (op : HostOp) (s t : State) (c : DiagCause), (∀ image mode, op ≠ .initializeOp image mode) →
    applyOp op s = .next t → s.hasDiag c = true → t.hasDiag c = true

/-- R301, R40: DIAG and DEPTH never influence a step: from any other values of the two, the step gives the same state but for
the two. -/
def Obligations.DiagAndDepthInfluenceNothing : Prop :=
  ∀ (s t : State) (d : BitVec 10) (k : Nat), step s = .next t →
    ∃ d' k', step { s with diag := d, depth := k } = .next { t with diag := d', depth := k' }

/-- R43: of all instructions, only those its table names write each element, and none writes KEY or BEEP_REQ. The configuration
and the count of draws are the model's own (logs 1, 2). -/
def Obligations.OnlyNamedInstructionsWriteEachElement : Prop :=
  ∀ (i : Instr) (s t : State), exec i s = .next t →
    (t.i = s.i ∨ i.mnemonic ∈ ["load-I", "add-I", "font-addr"]) ∧
    (t.pc = s.pc ∨ i.mnemonic ∈ ["return", "jump", "call", "jump-offset", "skip-eq-imm", "skip-ne-imm", "skip-eq-reg",
      "skip-ne-reg", "skip-if-key", "skip-if-not-key"]) ∧
    ((t.sp = s.sp ∧ t.depth = s.depth) ∨ i.mnemonic ∈ ["return", "call"]) ∧ (t.stack = s.stack ∨ i.mnemonic = "call") ∧
    (t.dt = s.dt ∨ i.mnemonic = "write-DT") ∧ (t.st = s.st ∨ i.mnemonic = "write-ST") ∧
    (t.mem = s.mem ∨ i.mnemonic ∈ ["bcd", "store-regs"]) ∧ (t.fb = s.fb ∨ i.mnemonic ∈ ["clear", "draw"]) ∧
    t.key = s.key ∧ (t.wait = s.wait ∨ i.mnemonic = "wait-key") ∧
    (t.drawReq = s.drawReq ∨ (t.drawReq = true ∧ i.mnemonic ∈ ["clear", "draw"])) ∧
    t.beepReq = s.beepReq ∧ t.params = s.params ∧
    (t.draws = s.draws ∨ i.mnemonic ∈ ["rand", "skip-if-key", "skip-if-not-key"])

/-- R22, R43: an instruction changes no general register but its destination, VF where it writes a flag, and V0..Vx for Fx65. -/
def Obligations.OnlyNamedRegistersChange : Prop :=
  ∀ (i : Instr) (s t : State) (r : Nibble), exec i s = .next t → Claim.mayWrite i r = false → t.reg r = s.reg r

/-- R66: an instruction changes no byte of memory outside the bytes it stores to: I..I+2 for Fx33, I..I+x for Fx55, none for every
other. -/
def Obligations.StoresTouchOnlyTheirBytes : Prop :=
  ∀ (i : Instr) (s t : State) (a : Nat), Memory.wf s.mem = true → exec i s = .next t → a < 0x1000 →
    (∀ k < Claim.storeCount i, a ≠ (s.i.toNat + k) % 0x1000) → t.byteAt a = s.byteAt a

/-! ### Memory -/

/-- R62, R61: a data read gives MEM[a mod 0x1000]; a data write changes that byte and no other; each records I_RANGE exactly when
the address is reduced. The mask is the spec's own decision D5 (log 6). -/
def Obligations.MemoryPrimitives : Prop :=
  ∀ (a : Nat) (b : Byte) (s : State),
    (dataRead a s).1 = memGet s.mem (a % 0x1000) ∧
    Claim.Records s (dataRead a s).2 .iRange (a > 0xFFF) ∧
    (dataRead a s).2 = { s with diag := (dataRead a s).2.diag } ∧
    (fetchWord s).toNat = (s.byteAt s.pc.toNat).toNat * 256 + (s.byteAt (s.pc.toNat + 1)).toNat ∧
    (Memory.wf s.mem = true →
      (∀ c < 0x1000, (dataWrite a b s).byteAt c = if c = a % 0x1000 then b else s.byteAt c) ∧
      Memory.wf (dataWrite a b s).mem = true) ∧
    Claim.Records s (dataWrite a b s) .iRange (a > 0xFFF) ∧
    dataWrite a b s = { s with mem := (dataWrite a b s).mem, diag := (dataWrite a b s).diag }

/-- R75, R357: a word that Fx55 stores over the next instruction is the word the next fetch reads. -/
def Obligations.StoredWordIsFetchedNext : Prop :=
  ∀ (x : Nibble) (k : Nat) (s : State), Memory.wf s.mem = true → k < x.toNat →
    (s.i.toNat + k) % 0x1000 = s.pc.toNat % 0x1000 →
      ∃ t, exec (.storeRegs x) s = .next t ∧
        (fetchWord t).toNat = (s.reg (BitVec.ofNat 4 k)).toNat * 256 + (s.reg (BitVec.ofNat 4 (k + 1))).toNat

/-! ### Whole runs -/

/-- R39 and D8, D9, D12, D13, D14: a run of steps alone (no other host operation) that ends with DIAG = 0 does not depend on the
parameters whose two readings the source leaves open: under any other parameters with the same LOAD_ADDR and FONT_BASE it is the
same run. -/
def Obligations.DiagnosticFreeRunsIgnoreParameters : Prop :=
  ∀ (k : Nat) (s t : State) (p : Params), p.loadAddr = s.params.loadAddr → p.fontBase = s.params.fontBase → core.run k s = .next t → t.diag = 0 →
    core.run k { s with params := p } = .next { t with params := p }

/-- spec/93_implementation_defined.md, strict and permissive models: from DIAG = 0, the STRICT machine's runs are exactly the
machine's runs that end with DIAG = 0. -/
def Obligations.StrictRunIsTheDiagnosticFreeRun : Prop :=
  ∀ (k : Nat) (s t : State), s.diag = 0 → (strictRun k s = .next t ↔ core.run k s = .next t ∧ t.diag = 0)

/-- R363: at a jump to itself, not waiting, with its fetch's diagnostics recorded, every further step leaves the state as it is. -/
def Obligations.FinishedStateIsFixed : Prop :=
  ∀ (s : State) (k : Nat), s.Finished → step s = .next s ∧ core.run k s = .next s

/-- R356: seen from a whole step, a call pushes the address of the next instruction, a taken skip lands four bytes on, and a jump
lands exactly at nnn. -/
def Obligations.PcIsAdvancedBeforeExecution : Prop :=
  ∀ s : State, s.wait = none →
    (∀ nnn, fetchWord s = layoutNNN 0x2 nnn → s.sp.toNat < 16 →
      ∃ t, step s = .next t ∧ t.pc.toNat = nnn.toNat ∧ t.stack[s.sp.toNat]? = some (s.pc + 2)) ∧
    (∀ x nn, fetchWord s = layoutXNN 0x3 x nn →
      ∃ t, step s = .next t ∧ t.pc.toNat = (s.pc.toNat + if s.reg x = nn then 4 else 2) % 65536) ∧
    (∀ nnn, fetchWord s = layoutNNN 0x1 nnn → ∃ t, step s = .next t ∧ t.pc.toNat = nnn.toNat)

/-- R42, R43 and D2: RESET_FILL. Under `unwritten` an operation that reads an element nothing has written stops with a fault, and a
run that does not stop is the machine's own run and depends on no reset contents: from any other contents of those elements, and
under `zero`, it is the same run but for elements still unwritten. `initialize` makes every element unwritten. Under `zero` no
run stops so. That the fault is one of `trackedOp` beside `step`, and that the elements hold free values meanwhile, is the model's
choice (log 3). -/
def Obligations.UnwrittenElementsAreNeverRead : Prop :=
  (∀ (op : HostOp) (s : State) (u : List FillElement) (e : FillElement), e ∈ opReads op s → e ∈ u →
    ∃ e', e' ∈ opReads op s ∧ e' ∈ u ∧ trackedOp op ⟨s, u⟩ = .fault (.unwrittenRead e')) ∧
  (∀ (ops : List HostOp) (s s' t : State) (u u' : List FillElement), s.params.resetFill = .unwritten →
    Claim.AgreeOutside u s s' → trackedRun ops ⟨s, u⟩ = .next ⟨t, u'⟩ →
      runOps ops s = .next t ∧ ∃ t', runOps ops s' = .next t' ∧ Claim.AgreeOutside u' t t') ∧
  (∀ (image : List Byte) (mode : LoadMode) (s : State) (u : List FillElement) (e : FillElement),
    s.params.resetFill = .unwritten →
      ∃ u', trackedOp (.initializeOp image mode) ⟨s, u⟩ = .next ⟨initializeOp image mode s, u'⟩ ∧ e ∈ u') ∧
  ∀ (ops : List HostOp) (s : State), s.params.resetFill = .zero →
    ∃ t, runOps ops s = .next t ∧ trackedRun ops ⟨s, []⟩ = .next ⟨t, []⟩
end

