-- ==== Sys2Proof/Laws/Sizes.lean ====
section
/-! SUPPORT. The one value each size of R6 can have. -/

namespace Sys2Proof

@[simp] theorem Sizes.memSize_val (z : Sizes) : z.memSize = 0x1000 := z.memSize_eq

@[simp] theorem Sizes.addrBits_val (z : Sizes) : z.addrBits = 12 := z.addrBits_eq

@[simp] theorem Sizes.nregs_val (z : Sizes) : z.nregs = 16 := z.nregs_eq

@[simp] theorem Sizes.stackDepth_val (z : Sizes) : z.stackDepth = 16 := z.stackDepth_eq

@[simp] theorem Sizes.fbW_val (z : Sizes) : z.fbW = 64 := z.fbW_eq

@[simp] theorem Sizes.fbH_val (z : Sizes) : z.fbH = 32 := z.fbH_eq

@[simp] theorem Sizes.nkeys_val (z : Sizes) : z.nkeys = 16 := z.nkeys_eq

/-- There is one `Sizes`. -/
theorem Sizes.eq_spec (z : Sizes) : z = Sizes.spec := by
  obtain ⟨_, _, _, _, _, _, _, rfl, rfl, rfl, rfl, rfl, rfl, rfl⟩ := z
  rfl

end Sys2Proof
end

