-- ==== Sys2Proof/Laws/Memory.lean ====
section
/-! SUPPORT. The laws of memory: a write is read back, it leaves every other byte alone, it keeps the canonical form, and
canonical memories that read alike are equal. -/

namespace Sys2Proof.Machine

/-- R61, with the number the rule states. -/
theorem ea_eq (z : Sizes) (a : Nat) : ea z a = a % 0x1000 := by rw [ea, Sizes.memSize_val]

theorem ea_lt (z : Sizes) (a : Nat) : ea z a < Config.memSize := by
  rw [ea_eq]
  exact Nat.mod_lt _ (by decide)

theorem ea_of_lt {z : Sizes} {a : Nat} (h : a < 0x1000) : ea z a = a := by rw [ea_eq, Nat.mod_eq_of_lt h]

theorem wfFrom_nil (lo : Nat) : Memory.wfFrom lo [] = true := rfl

theorem wfFrom_cons {lo k : Nat} {b : Byte} {m : Memory} :
    Memory.wfFrom lo ((k, b) :: m) = true ↔
      lo ≤ k ∧ k < Config.memSize ∧ b ≠ unlisted k ∧ Memory.wfFrom (k + 1) m = true := by
  simp [Memory.wfFrom, and_assoc]

theorem wfFrom_mono {m : Memory} {lo lo' : Nat} (h : lo ≤ lo') (hm : Memory.wfFrom lo' m = true) :
    Memory.wfFrom lo m = true := by
  cases m with
  | nil => rfl
  | cons c m =>
    rw [wfFrom_cons] at hm ⊢
    exact ⟨h.trans hm.1, hm.2⟩

/-- Below its lowest entry a canonical memory reads as unlisted. -/
theorem memGet_of_lt {m : Memory} {lo a : Nat} (hm : Memory.wfFrom lo m = true) (ha : a < lo) :
    memGet m a = unlisted a := by
  induction m generalizing lo with
  | nil => rfl
  | cons c m ih =>
    obtain ⟨k, b⟩ := c
    obtain ⟨hk, -, -, hm⟩ := wfFrom_cons.1 hm
    rw [memGet, if_neg (by omega), ih hm (by omega)]

/-- A write keeps the canonical form. -/
theorem wfFrom_memSet {m : Memory} {lo a : Nat} (b : Byte) (hm : Memory.wfFrom lo m = true) (hlo : lo ≤ a)
    (ha : a < Config.memSize) : Memory.wfFrom lo (memSet m a b) = true := by
  induction m generalizing lo with
  | nil =>
    unfold memSet
    split
    · rfl
    · next h => exact wfFrom_cons.2 ⟨hlo, ha, h, rfl⟩
  | cons c m ih =>
    obtain ⟨k, d⟩ := c
    obtain ⟨hk, hk', hd, hm'⟩ := wfFrom_cons.1 hm
    unfold memSet
    split
    · next hlt =>
      split
      · exact hm
      · next h => exact wfFrom_cons.2 ⟨hlo, ha, h, wfFrom_cons.2 ⟨hlt, hk', hd, hm'⟩⟩
    · split
      · next heq =>
        split
        · exact wfFrom_mono (by omega) hm'
        · next h => exact wfFrom_cons.2 ⟨hlo, ha, h, heq ▸ hm'⟩
      · exact wfFrom_cons.2 ⟨hk, hk', hd, ih hm' (by omega)⟩

theorem wf_memSet {m : Memory} {a : Nat} (b : Byte) (hm : Memory.wf m = true) (ha : a < Config.memSize) :
    Memory.wf (memSet m a b) = true :=
  wfFrom_memSet b hm (Nat.zero_le a) ha

/-- Read after write, on a canonical memory. -/
theorem memGet_memSet_from {m : Memory} {lo : Nat} (a : Nat) (b : Byte) (c : Nat) (hm : Memory.wfFrom lo m = true) :
    memGet (memSet m a b) c = if c = a then b else memGet m c := by
  induction m generalizing lo with
  | nil =>
    unfold memSet
    split
    · next h => by_cases hc : c = a <;> simp [memGet, hc, h]
    · simp [memGet]
  | cons e m ih =>
    obtain ⟨k, d⟩ := e
    obtain ⟨-, -, -, hm'⟩ := wfFrom_cons.1 hm
    unfold memSet
    split
    · next hlt =>
      split
      · next h =>
        by_cases hc : c = a
        · subst hc
          rw [if_pos rfl, memGet, if_neg (by omega), memGet_of_lt hm' (by omega), h]
        · rw [if_neg hc]
      · rw [memGet]
    · split
      · next heq =>
        subst heq
        split
        · next h =>
          by_cases hc : c = a
          · rw [hc, if_pos rfl, memGet_of_lt hm' (by omega), h]
          · rw [if_neg hc, memGet, if_neg hc]
        · rw [memGet, memGet]
          split <;> rfl
      · rw [memGet, memGet, ih hm']
        by_cases hc : c = k
        · rw [if_pos hc, if_neg (by omega), if_pos hc]
        · rw [if_neg hc, if_neg hc]

theorem memGet_memSet {m : Memory} (a : Nat) (b : Byte) (c : Nat) (hm : Memory.wf m = true) :
    memGet (memSet m a b) c = if c = a then b else memGet m c :=
  memGet_memSet_from a b c hm

/-- Canonical memories that read alike at every address are equal. -/
theorem memory_ext_from {m m' : Memory} {lo : Nat} (hm : Memory.wfFrom lo m = true) (hm' : Memory.wfFrom lo m' = true)
    (h : ∀ a, memGet m a = memGet m' a) : m = m' := by
  induction m generalizing m' lo with
  | nil =>
    cases m' with
    | nil => rfl
    | cons e m' =>
      obtain ⟨k, d⟩ := e
      obtain ⟨-, -, hd, -⟩ := wfFrom_cons.1 hm'
      have := h k
      rw [memGet, memGet, if_pos rfl] at this
      exact absurd this.symm hd
  | cons e m ih =>
    obtain ⟨k, d⟩ := e
    obtain ⟨hk, -, hd, hm1⟩ := wfFrom_cons.1 hm
    cases m' with
    | nil =>
      have := h k
      rw [memGet, memGet, if_pos rfl] at this
      exact absurd this hd
    | cons e' m' =>
      obtain ⟨k', d'⟩ := e'
      obtain ⟨hk', -, hd', hm1'⟩ := wfFrom_cons.1 hm'
      have hkk : k = k' := by
        rcases Nat.lt_trichotomy k k' with hlt | heq | hgt
        · have := h k
          rw [memGet, if_pos rfl, memGet, if_neg (by omega), memGet_of_lt hm1' (by omega)] at this
          exact absurd this hd
        · exact heq
        · have := h k'
          rw [memGet, if_neg (by omega), memGet_of_lt hm1 (by omega), memGet, if_pos rfl] at this
          exact absurd this.symm hd'
      subst hkk
      have hdd : d = d' := by
        have := h k
        rwa [memGet, memGet, if_pos rfl, if_pos rfl] at this
      subst hdd
      rw [ih hm1 hm1' fun a => ?_]
      by_cases ha : a = k
      · rw [ha, memGet_of_lt hm1 (by omega), memGet_of_lt hm1' (by omega)]
      · have := h a
        rwa [memGet, memGet, if_neg ha, if_neg ha] at this

theorem memory_ext {m m' : Memory} (hm : Memory.wf m = true) (hm' : Memory.wf m' = true)
    (h : ∀ a, memGet m a = memGet m' a) : m = m' :=
  memory_ext_from hm hm' h

/-- A loaded byte list keeps the canonical form. -/
theorem wf_loadBytes {z : Sizes} {m : Memory} {a : Nat} {bs : List Byte} (hm : Memory.wf m = true) :
    Memory.wf (loadBytes z m a bs) = true := by
  induction bs generalizing m a with
  | nil => exact hm
  | cons b bs ih => exact ih (wf_memSet b hm (ea_lt z a))

/-- What a loaded byte list reads as: the k-th byte stands at `ea z (a + k)`. -/
theorem memGet_loadBytes {z : Sizes} {m : Memory} {a : Nat} {bs : List Byte} {c : Nat} (hm : Memory.wf m = true)
    (h : bs.length ≤ 0x1000) (hc : c < 0x1000) :
    memGet (loadBytes z m a bs) c = bs[(c + 0x1000 - a % 0x1000) % 0x1000]?.getD (memGet m c) := by
  induction bs generalizing m a with
  | nil => simp [loadBytes]
  | cons b bs ih =>
    rw [List.length_cons] at h
    rw [loadBytes, ih (wf_memSet b hm (ea_lt z a)) (by omega), memGet_memSet (ea z a) b c hm, ea_eq]
    by_cases h1 : c = a % 0x1000
    · have h2 : (c + 0x1000 - a % 0x1000) % 0x1000 = 0 := by omega
      have h3 : bs[(c + 0x1000 - (a + 1) % 0x1000) % 0x1000]? = none := List.getElem?_eq_none (by omega)
      rw [h2, h3, if_pos h1]
      rfl
    · have h2 : (c + 0x1000 - a % 0x1000) % 0x1000 = (c + 0x1000 - (a + 1) % 0x1000) % 0x1000 + 1 := by omega
      rw [if_neg h1, h2, List.getElem?_cons_succ]

/-- Reading through `byteAt` after one data write (R62). -/
theorem byteAt_dataWrite {s : State} (a : Nat) (b : Byte) (c : Nat) (hm : Memory.wf s.mem = true) :
    (dataWrite a b s).byteAt c = if ea s.params.sizes c = ea s.params.sizes a then b else s.byteAt c :=
  memGet_memSet (ea _ a) b (ea _ c) hm

theorem wf_dataWrite {s : State} (a : Nat) (b : Byte) (hm : Memory.wf s.mem = true) :
    Memory.wf (dataWrite a b s).mem = true :=
  wf_memSet b hm (ea_lt _ a)

end Sys2Proof.Machine
end

