-- ==== Sys2Proof/Laws/State.lean ====
section
/-! SUPPORT. One lemma per field per update of State, each true by rfl, so that no later proof unfolds a record update. -/

namespace Sys2Proof.Machine

/-! ### diagIf -/

@[simp] theorem diagIf_v (b : Bool) (c : DiagCause) (s : State) : (diagIf b c s).v = s.v := rfl
@[simp] theorem diagIf_i (b : Bool) (c : DiagCause) (s : State) : (diagIf b c s).i = s.i := rfl
@[simp] theorem diagIf_pc (b : Bool) (c : DiagCause) (s : State) : (diagIf b c s).pc = s.pc := rfl
@[simp] theorem diagIf_sp (b : Bool) (c : DiagCause) (s : State) : (diagIf b c s).sp = s.sp := rfl
@[simp] theorem diagIf_stack (b : Bool) (c : DiagCause) (s : State) : (diagIf b c s).stack = s.stack := rfl
@[simp] theorem diagIf_dt (b : Bool) (c : DiagCause) (s : State) : (diagIf b c s).dt = s.dt := rfl
@[simp] theorem diagIf_st (b : Bool) (c : DiagCause) (s : State) : (diagIf b c s).st = s.st := rfl
@[simp] theorem diagIf_mem (b : Bool) (c : DiagCause) (s : State) : (diagIf b c s).mem = s.mem := rfl
@[simp] theorem diagIf_fb (b : Bool) (c : DiagCause) (s : State) : (diagIf b c s).fb = s.fb := rfl
@[simp] theorem diagIf_key (b : Bool) (c : DiagCause) (s : State) : (diagIf b c s).key = s.key := rfl
@[simp] theorem diagIf_wait (b : Bool) (c : DiagCause) (s : State) : (diagIf b c s).wait = s.wait := rfl
@[simp] theorem diagIf_drawReq (b : Bool) (c : DiagCause) (s : State) : (diagIf b c s).drawReq = s.drawReq := rfl
@[simp] theorem diagIf_beepReq (b : Bool) (c : DiagCause) (s : State) : (diagIf b c s).beepReq = s.beepReq := rfl
@[simp] theorem diagIf_diag (b : Bool) (c : DiagCause) (s : State) : (diagIf b c s).diag = if b then s.diag ||| c.mask else s.diag := rfl
@[simp] theorem diagIf_depth (b : Bool) (c : DiagCause) (s : State) : (diagIf b c s).depth = s.depth := rfl
@[simp] theorem diagIf_params (b : Bool) (c : DiagCause) (s : State) : (diagIf b c s).params = s.params := rfl
@[simp] theorem diagIf_draws (b : Bool) (c : DiagCause) (s : State) : (diagIf b c s).draws = s.draws := rfl
@[simp] theorem diagIf_reg (b : Bool) (c : DiagCause) (s : State) (r : Nibble) : (diagIf b c s).reg r = s.reg r := rfl
@[simp] theorem diagIf_byteAt (b : Bool) (c : DiagCause) (s : State) (adr : Nat) : (diagIf b c s).byteAt adr = s.byteAt adr := rfl
@[simp] theorem diagIf_keyAt (b : Bool) (c : DiagCause) (s : State) (r : Nibble) : (diagIf b c s).keyAt r = s.keyAt r := rfl

/-! ### setReg -/

@[simp] theorem setReg_v (x : Nibble) (b : Byte) (s : State) : (s.setReg x b).v = s.v.set x.toNat b x.isLt := rfl
@[simp] theorem setReg_i (x : Nibble) (b : Byte) (s : State) : (s.setReg x b).i = s.i := rfl
@[simp] theorem setReg_pc (x : Nibble) (b : Byte) (s : State) : (s.setReg x b).pc = s.pc := rfl
@[simp] theorem setReg_sp (x : Nibble) (b : Byte) (s : State) : (s.setReg x b).sp = s.sp := rfl
@[simp] theorem setReg_stack (x : Nibble) (b : Byte) (s : State) : (s.setReg x b).stack = s.stack := rfl
@[simp] theorem setReg_dt (x : Nibble) (b : Byte) (s : State) : (s.setReg x b).dt = s.dt := rfl
@[simp] theorem setReg_st (x : Nibble) (b : Byte) (s : State) : (s.setReg x b).st = s.st := rfl
@[simp] theorem setReg_mem (x : Nibble) (b : Byte) (s : State) : (s.setReg x b).mem = s.mem := rfl
@[simp] theorem setReg_fb (x : Nibble) (b : Byte) (s : State) : (s.setReg x b).fb = s.fb := rfl
@[simp] theorem setReg_key (x : Nibble) (b : Byte) (s : State) : (s.setReg x b).key = s.key := rfl
@[simp] theorem setReg_wait (x : Nibble) (b : Byte) (s : State) : (s.setReg x b).wait = s.wait := rfl
@[simp] theorem setReg_drawReq (x : Nibble) (b : Byte) (s : State) : (s.setReg x b).drawReq = s.drawReq := rfl
@[simp] theorem setReg_beepReq (x : Nibble) (b : Byte) (s : State) : (s.setReg x b).beepReq = s.beepReq := rfl
@[simp] theorem setReg_diag (x : Nibble) (b : Byte) (s : State) : (s.setReg x b).diag = s.diag := rfl
@[simp] theorem setReg_depth (x : Nibble) (b : Byte) (s : State) : (s.setReg x b).depth = s.depth := rfl
@[simp] theorem setReg_params (x : Nibble) (b : Byte) (s : State) : (s.setReg x b).params = s.params := rfl
@[simp] theorem setReg_draws (x : Nibble) (b : Byte) (s : State) : (s.setReg x b).draws = s.draws := rfl
@[simp] theorem setReg_byteAt (x : Nibble) (b : Byte) (s : State) (adr : Nat) : (s.setReg x b).byteAt adr = s.byteAt adr := rfl
@[simp] theorem setReg_keyAt (x : Nibble) (b : Byte) (s : State) (r : Nibble) : (s.setReg x b).keyAt r = s.keyAt r := rfl

/-! ### setI -/

@[simp] theorem setI_v (a : Word) (s : State) : (s.setI a).v = s.v := rfl
@[simp] theorem setI_i (a : Word) (s : State) : (s.setI a).i = a := rfl
@[simp] theorem setI_pc (a : Word) (s : State) : (s.setI a).pc = s.pc := rfl
@[simp] theorem setI_sp (a : Word) (s : State) : (s.setI a).sp = s.sp := rfl
@[simp] theorem setI_stack (a : Word) (s : State) : (s.setI a).stack = s.stack := rfl
@[simp] theorem setI_dt (a : Word) (s : State) : (s.setI a).dt = s.dt := rfl
@[simp] theorem setI_st (a : Word) (s : State) : (s.setI a).st = s.st := rfl
@[simp] theorem setI_mem (a : Word) (s : State) : (s.setI a).mem = s.mem := rfl
@[simp] theorem setI_fb (a : Word) (s : State) : (s.setI a).fb = s.fb := rfl
@[simp] theorem setI_key (a : Word) (s : State) : (s.setI a).key = s.key := rfl
@[simp] theorem setI_wait (a : Word) (s : State) : (s.setI a).wait = s.wait := rfl
@[simp] theorem setI_drawReq (a : Word) (s : State) : (s.setI a).drawReq = s.drawReq := rfl
@[simp] theorem setI_beepReq (a : Word) (s : State) : (s.setI a).beepReq = s.beepReq := rfl
@[simp] theorem setI_diag (a : Word) (s : State) : (s.setI a).diag = s.diag := rfl
@[simp] theorem setI_depth (a : Word) (s : State) : (s.setI a).depth = s.depth := rfl
@[simp] theorem setI_params (a : Word) (s : State) : (s.setI a).params = s.params := rfl
@[simp] theorem setI_draws (a : Word) (s : State) : (s.setI a).draws = s.draws := rfl
@[simp] theorem setI_reg (a : Word) (s : State) (r : Nibble) : (s.setI a).reg r = s.reg r := rfl
@[simp] theorem setI_byteAt (a : Word) (s : State) (adr : Nat) : (s.setI a).byteAt adr = s.byteAt adr := rfl
@[simp] theorem setI_keyAt (a : Word) (s : State) (r : Nibble) : (s.setI a).keyAt r = s.keyAt r := rfl

/-! ### setPc -/

@[simp] theorem setPc_v (a : Word) (s : State) : (s.setPc a).v = s.v := rfl
@[simp] theorem setPc_i (a : Word) (s : State) : (s.setPc a).i = s.i := rfl
@[simp] theorem setPc_pc (a : Word) (s : State) : (s.setPc a).pc = a := rfl
@[simp] theorem setPc_sp (a : Word) (s : State) : (s.setPc a).sp = s.sp := rfl
@[simp] theorem setPc_stack (a : Word) (s : State) : (s.setPc a).stack = s.stack := rfl
@[simp] theorem setPc_dt (a : Word) (s : State) : (s.setPc a).dt = s.dt := rfl
@[simp] theorem setPc_st (a : Word) (s : State) : (s.setPc a).st = s.st := rfl
@[simp] theorem setPc_mem (a : Word) (s : State) : (s.setPc a).mem = s.mem := rfl
@[simp] theorem setPc_fb (a : Word) (s : State) : (s.setPc a).fb = s.fb := rfl
@[simp] theorem setPc_key (a : Word) (s : State) : (s.setPc a).key = s.key := rfl
@[simp] theorem setPc_wait (a : Word) (s : State) : (s.setPc a).wait = s.wait := rfl
@[simp] theorem setPc_drawReq (a : Word) (s : State) : (s.setPc a).drawReq = s.drawReq := rfl
@[simp] theorem setPc_beepReq (a : Word) (s : State) : (s.setPc a).beepReq = s.beepReq := rfl
@[simp] theorem setPc_diag (a : Word) (s : State) : (s.setPc a).diag = s.diag := rfl
@[simp] theorem setPc_depth (a : Word) (s : State) : (s.setPc a).depth = s.depth := rfl
@[simp] theorem setPc_params (a : Word) (s : State) : (s.setPc a).params = s.params := rfl
@[simp] theorem setPc_draws (a : Word) (s : State) : (s.setPc a).draws = s.draws := rfl
@[simp] theorem setPc_reg (a : Word) (s : State) (r : Nibble) : (s.setPc a).reg r = s.reg r := rfl
@[simp] theorem setPc_byteAt (a : Word) (s : State) (adr : Nat) : (s.setPc a).byteAt adr = s.byteAt adr := rfl
@[simp] theorem setPc_keyAt (a : Word) (s : State) (r : Nibble) : (s.setPc a).keyAt r = s.keyAt r := rfl

/-! ### skipIf -/

@[simp] theorem skipIf_v (b : Bool) (s : State) : (skipIf b s).v = s.v := rfl
@[simp] theorem skipIf_i (b : Bool) (s : State) : (skipIf b s).i = s.i := rfl
@[simp] theorem skipIf_pc (b : Bool) (s : State) : (skipIf b s).pc = if b then s.pc + 2 else s.pc := rfl
@[simp] theorem skipIf_sp (b : Bool) (s : State) : (skipIf b s).sp = s.sp := rfl
@[simp] theorem skipIf_stack (b : Bool) (s : State) : (skipIf b s).stack = s.stack := rfl
@[simp] theorem skipIf_dt (b : Bool) (s : State) : (skipIf b s).dt = s.dt := rfl
@[simp] theorem skipIf_st (b : Bool) (s : State) : (skipIf b s).st = s.st := rfl
@[simp] theorem skipIf_mem (b : Bool) (s : State) : (skipIf b s).mem = s.mem := rfl
@[simp] theorem skipIf_fb (b : Bool) (s : State) : (skipIf b s).fb = s.fb := rfl
@[simp] theorem skipIf_key (b : Bool) (s : State) : (skipIf b s).key = s.key := rfl
@[simp] theorem skipIf_wait (b : Bool) (s : State) : (skipIf b s).wait = s.wait := rfl
@[simp] theorem skipIf_drawReq (b : Bool) (s : State) : (skipIf b s).drawReq = s.drawReq := rfl
@[simp] theorem skipIf_beepReq (b : Bool) (s : State) : (skipIf b s).beepReq = s.beepReq := rfl
@[simp] theorem skipIf_diag (b : Bool) (s : State) : (skipIf b s).diag = s.diag := rfl
@[simp] theorem skipIf_depth (b : Bool) (s : State) : (skipIf b s).depth = s.depth := rfl
@[simp] theorem skipIf_params (b : Bool) (s : State) : (skipIf b s).params = s.params := rfl
@[simp] theorem skipIf_draws (b : Bool) (s : State) : (skipIf b s).draws = s.draws := rfl
@[simp] theorem skipIf_reg (b : Bool) (s : State) (r : Nibble) : (skipIf b s).reg r = s.reg r := rfl
@[simp] theorem skipIf_byteAt (b : Bool) (s : State) (adr : Nat) : (skipIf b s).byteAt adr = s.byteAt adr := rfl
@[simp] theorem skipIf_keyAt (b : Bool) (s : State) (r : Nibble) : (skipIf b s).keyAt r = s.keyAt r := rfl

/-! ### setDT -/

@[simp] theorem setDT_v (b : Byte) (s : State) : (s.setDT b).v = s.v := rfl
@[simp] theorem setDT_i (b : Byte) (s : State) : (s.setDT b).i = s.i := rfl
@[simp] theorem setDT_pc (b : Byte) (s : State) : (s.setDT b).pc = s.pc := rfl
@[simp] theorem setDT_sp (b : Byte) (s : State) : (s.setDT b).sp = s.sp := rfl
@[simp] theorem setDT_stack (b : Byte) (s : State) : (s.setDT b).stack = s.stack := rfl
@[simp] theorem setDT_dt (b : Byte) (s : State) : (s.setDT b).dt = b := rfl
@[simp] theorem setDT_st (b : Byte) (s : State) : (s.setDT b).st = s.st := rfl
@[simp] theorem setDT_mem (b : Byte) (s : State) : (s.setDT b).mem = s.mem := rfl
@[simp] theorem setDT_fb (b : Byte) (s : State) : (s.setDT b).fb = s.fb := rfl
@[simp] theorem setDT_key (b : Byte) (s : State) : (s.setDT b).key = s.key := rfl
@[simp] theorem setDT_wait (b : Byte) (s : State) : (s.setDT b).wait = s.wait := rfl
@[simp] theorem setDT_drawReq (b : Byte) (s : State) : (s.setDT b).drawReq = s.drawReq := rfl
@[simp] theorem setDT_beepReq (b : Byte) (s : State) : (s.setDT b).beepReq = s.beepReq := rfl
@[simp] theorem setDT_diag (b : Byte) (s : State) : (s.setDT b).diag = s.diag := rfl
@[simp] theorem setDT_depth (b : Byte) (s : State) : (s.setDT b).depth = s.depth := rfl
@[simp] theorem setDT_params (b : Byte) (s : State) : (s.setDT b).params = s.params := rfl
@[simp] theorem setDT_draws (b : Byte) (s : State) : (s.setDT b).draws = s.draws := rfl
@[simp] theorem setDT_reg (b : Byte) (s : State) (r : Nibble) : (s.setDT b).reg r = s.reg r := rfl
@[simp] theorem setDT_byteAt (b : Byte) (s : State) (adr : Nat) : (s.setDT b).byteAt adr = s.byteAt adr := rfl
@[simp] theorem setDT_keyAt (b : Byte) (s : State) (r : Nibble) : (s.setDT b).keyAt r = s.keyAt r := rfl

/-! ### setST -/

@[simp] theorem setST_v (b : Byte) (s : State) : (s.setST b).v = s.v := rfl
@[simp] theorem setST_i (b : Byte) (s : State) : (s.setST b).i = s.i := rfl
@[simp] theorem setST_pc (b : Byte) (s : State) : (s.setST b).pc = s.pc := rfl
@[simp] theorem setST_sp (b : Byte) (s : State) : (s.setST b).sp = s.sp := rfl
@[simp] theorem setST_stack (b : Byte) (s : State) : (s.setST b).stack = s.stack := rfl
@[simp] theorem setST_dt (b : Byte) (s : State) : (s.setST b).dt = s.dt := rfl
@[simp] theorem setST_st (b : Byte) (s : State) : (s.setST b).st = b := rfl
@[simp] theorem setST_mem (b : Byte) (s : State) : (s.setST b).mem = s.mem := rfl
@[simp] theorem setST_fb (b : Byte) (s : State) : (s.setST b).fb = s.fb := rfl
@[simp] theorem setST_key (b : Byte) (s : State) : (s.setST b).key = s.key := rfl
@[simp] theorem setST_wait (b : Byte) (s : State) : (s.setST b).wait = s.wait := rfl
@[simp] theorem setST_drawReq (b : Byte) (s : State) : (s.setST b).drawReq = s.drawReq := rfl
@[simp] theorem setST_beepReq (b : Byte) (s : State) : (s.setST b).beepReq = s.beepReq := rfl
@[simp] theorem setST_diag (b : Byte) (s : State) : (s.setST b).diag = s.diag := rfl
@[simp] theorem setST_depth (b : Byte) (s : State) : (s.setST b).depth = s.depth := rfl
@[simp] theorem setST_params (b : Byte) (s : State) : (s.setST b).params = s.params := rfl
@[simp] theorem setST_draws (b : Byte) (s : State) : (s.setST b).draws = s.draws := rfl
@[simp] theorem setST_reg (b : Byte) (s : State) (r : Nibble) : (s.setST b).reg r = s.reg r := rfl
@[simp] theorem setST_byteAt (b : Byte) (s : State) (adr : Nat) : (s.setST b).byteAt adr = s.byteAt adr := rfl
@[simp] theorem setST_keyAt (b : Byte) (s : State) (r : Nibble) : (s.setST b).keyAt r = s.keyAt r := rfl

/-! ### setWait -/

@[simp] theorem setWait_v (w : Option Nibble) (s : State) : (s.setWait w).v = s.v := rfl
@[simp] theorem setWait_i (w : Option Nibble) (s : State) : (s.setWait w).i = s.i := rfl
@[simp] theorem setWait_pc (w : Option Nibble) (s : State) : (s.setWait w).pc = s.pc := rfl
@[simp] theorem setWait_sp (w : Option Nibble) (s : State) : (s.setWait w).sp = s.sp := rfl
@[simp] theorem setWait_stack (w : Option Nibble) (s : State) : (s.setWait w).stack = s.stack := rfl
@[simp] theorem setWait_dt (w : Option Nibble) (s : State) : (s.setWait w).dt = s.dt := rfl
@[simp] theorem setWait_st (w : Option Nibble) (s : State) : (s.setWait w).st = s.st := rfl
@[simp] theorem setWait_mem (w : Option Nibble) (s : State) : (s.setWait w).mem = s.mem := rfl
@[simp] theorem setWait_fb (w : Option Nibble) (s : State) : (s.setWait w).fb = s.fb := rfl
@[simp] theorem setWait_key (w : Option Nibble) (s : State) : (s.setWait w).key = s.key := rfl
@[simp] theorem setWait_wait (w : Option Nibble) (s : State) : (s.setWait w).wait = w := rfl
@[simp] theorem setWait_drawReq (w : Option Nibble) (s : State) : (s.setWait w).drawReq = s.drawReq := rfl
@[simp] theorem setWait_beepReq (w : Option Nibble) (s : State) : (s.setWait w).beepReq = s.beepReq := rfl
@[simp] theorem setWait_diag (w : Option Nibble) (s : State) : (s.setWait w).diag = s.diag := rfl
@[simp] theorem setWait_depth (w : Option Nibble) (s : State) : (s.setWait w).depth = s.depth := rfl
@[simp] theorem setWait_params (w : Option Nibble) (s : State) : (s.setWait w).params = s.params := rfl
@[simp] theorem setWait_draws (w : Option Nibble) (s : State) : (s.setWait w).draws = s.draws := rfl
@[simp] theorem setWait_reg (w : Option Nibble) (s : State) (r : Nibble) : (s.setWait w).reg r = s.reg r := rfl
@[simp] theorem setWait_byteAt (w : Option Nibble) (s : State) (adr : Nat) : (s.setWait w).byteAt adr = s.byteAt adr := rfl
@[simp] theorem setWait_keyAt (w : Option Nibble) (s : State) (r : Nibble) : (s.setWait w).keyAt r = s.keyAt r := rfl

/-! ### setDrawReq -/

@[simp] theorem setDrawReq_v (b : Bool) (s : State) : (s.setDrawReq b).v = s.v := rfl
@[simp] theorem setDrawReq_i (b : Bool) (s : State) : (s.setDrawReq b).i = s.i := rfl
@[simp] theorem setDrawReq_pc (b : Bool) (s : State) : (s.setDrawReq b).pc = s.pc := rfl
@[simp] theorem setDrawReq_sp (b : Bool) (s : State) : (s.setDrawReq b).sp = s.sp := rfl
@[simp] theorem setDrawReq_stack (b : Bool) (s : State) : (s.setDrawReq b).stack = s.stack := rfl
@[simp] theorem setDrawReq_dt (b : Bool) (s : State) : (s.setDrawReq b).dt = s.dt := rfl
@[simp] theorem setDrawReq_st (b : Bool) (s : State) : (s.setDrawReq b).st = s.st := rfl
@[simp] theorem setDrawReq_mem (b : Bool) (s : State) : (s.setDrawReq b).mem = s.mem := rfl
@[simp] theorem setDrawReq_fb (b : Bool) (s : State) : (s.setDrawReq b).fb = s.fb := rfl
@[simp] theorem setDrawReq_key (b : Bool) (s : State) : (s.setDrawReq b).key = s.key := rfl
@[simp] theorem setDrawReq_wait (b : Bool) (s : State) : (s.setDrawReq b).wait = s.wait := rfl
@[simp] theorem setDrawReq_drawReq (b : Bool) (s : State) : (s.setDrawReq b).drawReq = b := rfl
@[simp] theorem setDrawReq_beepReq (b : Bool) (s : State) : (s.setDrawReq b).beepReq = s.beepReq := rfl
@[simp] theorem setDrawReq_diag (b : Bool) (s : State) : (s.setDrawReq b).diag = s.diag := rfl
@[simp] theorem setDrawReq_depth (b : Bool) (s : State) : (s.setDrawReq b).depth = s.depth := rfl
@[simp] theorem setDrawReq_params (b : Bool) (s : State) : (s.setDrawReq b).params = s.params := rfl
@[simp] theorem setDrawReq_draws (b : Bool) (s : State) : (s.setDrawReq b).draws = s.draws := rfl
@[simp] theorem setDrawReq_reg (b : Bool) (s : State) (r : Nibble) : (s.setDrawReq b).reg r = s.reg r := rfl
@[simp] theorem setDrawReq_byteAt (b : Bool) (s : State) (adr : Nat) : (s.setDrawReq b).byteAt adr = s.byteAt adr := rfl
@[simp] theorem setDrawReq_keyAt (b : Bool) (s : State) (r : Nibble) : (s.setDrawReq b).keyAt r = s.keyAt r := rfl

/-! ### setBeepReq -/

@[simp] theorem setBeepReq_v (b : Bool) (s : State) : (s.setBeepReq b).v = s.v := rfl
@[simp] theorem setBeepReq_i (b : Bool) (s : State) : (s.setBeepReq b).i = s.i := rfl
@[simp] theorem setBeepReq_pc (b : Bool) (s : State) : (s.setBeepReq b).pc = s.pc := rfl
@[simp] theorem setBeepReq_sp (b : Bool) (s : State) : (s.setBeepReq b).sp = s.sp := rfl
@[simp] theorem setBeepReq_stack (b : Bool) (s : State) : (s.setBeepReq b).stack = s.stack := rfl
@[simp] theorem setBeepReq_dt (b : Bool) (s : State) : (s.setBeepReq b).dt = s.dt := rfl
@[simp] theorem setBeepReq_st (b : Bool) (s : State) : (s.setBeepReq b).st = s.st := rfl
@[simp] theorem setBeepReq_mem (b : Bool) (s : State) : (s.setBeepReq b).mem = s.mem := rfl
@[simp] theorem setBeepReq_fb (b : Bool) (s : State) : (s.setBeepReq b).fb = s.fb := rfl
@[simp] theorem setBeepReq_key (b : Bool) (s : State) : (s.setBeepReq b).key = s.key := rfl
@[simp] theorem setBeepReq_wait (b : Bool) (s : State) : (s.setBeepReq b).wait = s.wait := rfl
@[simp] theorem setBeepReq_drawReq (b : Bool) (s : State) : (s.setBeepReq b).drawReq = s.drawReq := rfl
@[simp] theorem setBeepReq_beepReq (b : Bool) (s : State) : (s.setBeepReq b).beepReq = b := rfl
@[simp] theorem setBeepReq_diag (b : Bool) (s : State) : (s.setBeepReq b).diag = s.diag := rfl
@[simp] theorem setBeepReq_depth (b : Bool) (s : State) : (s.setBeepReq b).depth = s.depth := rfl
@[simp] theorem setBeepReq_params (b : Bool) (s : State) : (s.setBeepReq b).params = s.params := rfl
@[simp] theorem setBeepReq_draws (b : Bool) (s : State) : (s.setBeepReq b).draws = s.draws := rfl
@[simp] theorem setBeepReq_reg (b : Bool) (s : State) (r : Nibble) : (s.setBeepReq b).reg r = s.reg r := rfl
@[simp] theorem setBeepReq_byteAt (b : Bool) (s : State) (adr : Nat) : (s.setBeepReq b).byteAt adr = s.byteAt adr := rfl
@[simp] theorem setBeepReq_keyAt (b : Bool) (s : State) (r : Nibble) : (s.setBeepReq b).keyAt r = s.keyAt r := rfl

/-! ### setKeyAt -/

@[simp] theorem setKeyAt_v (k : Nibble) (d : Bool) (s : State) : (s.setKeyAt k d).v = s.v := rfl
@[simp] theorem setKeyAt_i (k : Nibble) (d : Bool) (s : State) : (s.setKeyAt k d).i = s.i := rfl
@[simp] theorem setKeyAt_pc (k : Nibble) (d : Bool) (s : State) : (s.setKeyAt k d).pc = s.pc := rfl
@[simp] theorem setKeyAt_sp (k : Nibble) (d : Bool) (s : State) : (s.setKeyAt k d).sp = s.sp := rfl
@[simp] theorem setKeyAt_stack (k : Nibble) (d : Bool) (s : State) : (s.setKeyAt k d).stack = s.stack := rfl
@[simp] theorem setKeyAt_dt (k : Nibble) (d : Bool) (s : State) : (s.setKeyAt k d).dt = s.dt := rfl
@[simp] theorem setKeyAt_st (k : Nibble) (d : Bool) (s : State) : (s.setKeyAt k d).st = s.st := rfl
@[simp] theorem setKeyAt_mem (k : Nibble) (d : Bool) (s : State) : (s.setKeyAt k d).mem = s.mem := rfl
@[simp] theorem setKeyAt_fb (k : Nibble) (d : Bool) (s : State) : (s.setKeyAt k d).fb = s.fb := rfl
@[simp] theorem setKeyAt_key (k : Nibble) (d : Bool) (s : State) : (s.setKeyAt k d).key = s.key.set k.toNat d k.isLt := rfl
@[simp] theorem setKeyAt_wait (k : Nibble) (d : Bool) (s : State) : (s.setKeyAt k d).wait = s.wait := rfl
@[simp] theorem setKeyAt_drawReq (k : Nibble) (d : Bool) (s : State) : (s.setKeyAt k d).drawReq = s.drawReq := rfl
@[simp] theorem setKeyAt_beepReq (k : Nibble) (d : Bool) (s : State) : (s.setKeyAt k d).beepReq = s.beepReq := rfl
@[simp] theorem setKeyAt_diag (k : Nibble) (d : Bool) (s : State) : (s.setKeyAt k d).diag = s.diag := rfl
@[simp] theorem setKeyAt_depth (k : Nibble) (d : Bool) (s : State) : (s.setKeyAt k d).depth = s.depth := rfl
@[simp] theorem setKeyAt_params (k : Nibble) (d : Bool) (s : State) : (s.setKeyAt k d).params = s.params := rfl
@[simp] theorem setKeyAt_draws (k : Nibble) (d : Bool) (s : State) : (s.setKeyAt k d).draws = s.draws := rfl
@[simp] theorem setKeyAt_reg (k : Nibble) (d : Bool) (s : State) (r : Nibble) : (s.setKeyAt k d).reg r = s.reg r := rfl
@[simp] theorem setKeyAt_byteAt (k : Nibble) (d : Bool) (s : State) (adr : Nat) : (s.setKeyAt k d).byteAt adr = s.byteAt adr := rfl

/-! ### countDraw -/

@[simp] theorem countDraw_v (s : State) : (s.countDraw).v = s.v := rfl
@[simp] theorem countDraw_i (s : State) : (s.countDraw).i = s.i := rfl
@[simp] theorem countDraw_pc (s : State) : (s.countDraw).pc = s.pc := rfl
@[simp] theorem countDraw_sp (s : State) : (s.countDraw).sp = s.sp := rfl
@[simp] theorem countDraw_stack (s : State) : (s.countDraw).stack = s.stack := rfl
@[simp] theorem countDraw_dt (s : State) : (s.countDraw).dt = s.dt := rfl
@[simp] theorem countDraw_st (s : State) : (s.countDraw).st = s.st := rfl
@[simp] theorem countDraw_mem (s : State) : (s.countDraw).mem = s.mem := rfl
@[simp] theorem countDraw_fb (s : State) : (s.countDraw).fb = s.fb := rfl
@[simp] theorem countDraw_key (s : State) : (s.countDraw).key = s.key := rfl
@[simp] theorem countDraw_wait (s : State) : (s.countDraw).wait = s.wait := rfl
@[simp] theorem countDraw_drawReq (s : State) : (s.countDraw).drawReq = s.drawReq := rfl
@[simp] theorem countDraw_beepReq (s : State) : (s.countDraw).beepReq = s.beepReq := rfl
@[simp] theorem countDraw_diag (s : State) : (s.countDraw).diag = s.diag := rfl
@[simp] theorem countDraw_depth (s : State) : (s.countDraw).depth = s.depth := rfl
@[simp] theorem countDraw_params (s : State) : (s.countDraw).params = s.params := rfl
@[simp] theorem countDraw_draws (s : State) : (s.countDraw).draws = s.draws + 1 := rfl
@[simp] theorem countDraw_reg (s : State) (r : Nibble) : (s.countDraw).reg r = s.reg r := rfl
@[simp] theorem countDraw_byteAt (s : State) (adr : Nat) : (s.countDraw).byteAt adr = s.byteAt adr := rfl
@[simp] theorem countDraw_keyAt (s : State) (r : Nibble) : (s.countDraw).keyAt r = s.keyAt r := rfl

/-! ### setFb -/

@[simp] theorem setFb_v (f : Framebuffer) (s : State) : (s.setFb f).v = s.v := rfl
@[simp] theorem setFb_i (f : Framebuffer) (s : State) : (s.setFb f).i = s.i := rfl
@[simp] theorem setFb_pc (f : Framebuffer) (s : State) : (s.setFb f).pc = s.pc := rfl
@[simp] theorem setFb_sp (f : Framebuffer) (s : State) : (s.setFb f).sp = s.sp := rfl
@[simp] theorem setFb_stack (f : Framebuffer) (s : State) : (s.setFb f).stack = s.stack := rfl
@[simp] theorem setFb_dt (f : Framebuffer) (s : State) : (s.setFb f).dt = s.dt := rfl
@[simp] theorem setFb_st (f : Framebuffer) (s : State) : (s.setFb f).st = s.st := rfl
@[simp] theorem setFb_mem (f : Framebuffer) (s : State) : (s.setFb f).mem = s.mem := rfl
@[simp] theorem setFb_fb (f : Framebuffer) (s : State) : (s.setFb f).fb = f := rfl
@[simp] theorem setFb_key (f : Framebuffer) (s : State) : (s.setFb f).key = s.key := rfl
@[simp] theorem setFb_wait (f : Framebuffer) (s : State) : (s.setFb f).wait = s.wait := rfl
@[simp] theorem setFb_drawReq (f : Framebuffer) (s : State) : (s.setFb f).drawReq = s.drawReq := rfl
@[simp] theorem setFb_beepReq (f : Framebuffer) (s : State) : (s.setFb f).beepReq = s.beepReq := rfl
@[simp] theorem setFb_diag (f : Framebuffer) (s : State) : (s.setFb f).diag = s.diag := rfl
@[simp] theorem setFb_depth (f : Framebuffer) (s : State) : (s.setFb f).depth = s.depth := rfl
@[simp] theorem setFb_params (f : Framebuffer) (s : State) : (s.setFb f).params = s.params := rfl
@[simp] theorem setFb_draws (f : Framebuffer) (s : State) : (s.setFb f).draws = s.draws := rfl
@[simp] theorem setFb_reg (f : Framebuffer) (s : State) (r : Nibble) : (s.setFb f).reg r = s.reg r := rfl
@[simp] theorem setFb_byteAt (f : Framebuffer) (s : State) (adr : Nat) : (s.setFb f).byteAt adr = s.byteAt adr := rfl
@[simp] theorem setFb_keyAt (f : Framebuffer) (s : State) (r : Nibble) : (s.setFb f).keyAt r = s.keyAt r := rfl

/-! ### dataWrite -/

@[simp] theorem dataWrite_v (a : Nat) (b : Byte) (s : State) : (dataWrite a b s).v = s.v := rfl
@[simp] theorem dataWrite_i (a : Nat) (b : Byte) (s : State) : (dataWrite a b s).i = s.i := rfl
@[simp] theorem dataWrite_pc (a : Nat) (b : Byte) (s : State) : (dataWrite a b s).pc = s.pc := rfl
@[simp] theorem dataWrite_sp (a : Nat) (b : Byte) (s : State) : (dataWrite a b s).sp = s.sp := rfl
@[simp] theorem dataWrite_stack (a : Nat) (b : Byte) (s : State) : (dataWrite a b s).stack = s.stack := rfl
@[simp] theorem dataWrite_dt (a : Nat) (b : Byte) (s : State) : (dataWrite a b s).dt = s.dt := rfl
@[simp] theorem dataWrite_st (a : Nat) (b : Byte) (s : State) : (dataWrite a b s).st = s.st := rfl
@[simp] theorem dataWrite_mem (a : Nat) (b : Byte) (s : State) : (dataWrite a b s).mem = memSet s.mem (ea s.params.sizes a) b := rfl
@[simp] theorem dataWrite_fb (a : Nat) (b : Byte) (s : State) : (dataWrite a b s).fb = s.fb := rfl
@[simp] theorem dataWrite_key (a : Nat) (b : Byte) (s : State) : (dataWrite a b s).key = s.key := rfl
@[simp] theorem dataWrite_wait (a : Nat) (b : Byte) (s : State) : (dataWrite a b s).wait = s.wait := rfl
@[simp] theorem dataWrite_drawReq (a : Nat) (b : Byte) (s : State) : (dataWrite a b s).drawReq = s.drawReq := rfl
@[simp] theorem dataWrite_beepReq (a : Nat) (b : Byte) (s : State) : (dataWrite a b s).beepReq = s.beepReq := rfl
@[simp] theorem dataWrite_diag (a : Nat) (b : Byte) (s : State) :
    (dataWrite a b s).diag = if decide (a > 0xFFF) then s.diag ||| DiagCause.iRange.mask else s.diag := rfl
@[simp] theorem dataWrite_depth (a : Nat) (b : Byte) (s : State) : (dataWrite a b s).depth = s.depth := rfl
@[simp] theorem dataWrite_params (a : Nat) (b : Byte) (s : State) : (dataWrite a b s).params = s.params := rfl
@[simp] theorem dataWrite_draws (a : Nat) (b : Byte) (s : State) : (dataWrite a b s).draws = s.draws := rfl
@[simp] theorem dataWrite_reg (a : Nat) (b : Byte) (s : State) (r : Nibble) : (dataWrite a b s).reg r = s.reg r := rfl
@[simp] theorem dataWrite_keyAt (a : Nat) (b : Byte) (s : State) (r : Nibble) : (dataWrite a b s).keyAt r = s.keyAt r := rfl

/-! ### push -/

@[simp] theorem push_v (a : Word) (s : State) : (push a s).v = s.v := rfl
@[simp] theorem push_i (a : Word) (s : State) : (push a s).i = s.i := rfl
@[simp] theorem push_pc (a : Word) (s : State) : (push a s).pc = s.pc := rfl
@[simp] theorem push_sp (a : Word) (s : State) : (push a s).sp = BitVec.ofNat 8 ((s.sp.toNat + 15) % 16) := rfl
@[simp] theorem push_stack (a : Word) (s : State) : (push a s).stack = s.stack.set s.stackIndex.val a := rfl
@[simp] theorem push_dt (a : Word) (s : State) : (push a s).dt = s.dt := rfl
@[simp] theorem push_st (a : Word) (s : State) : (push a s).st = s.st := rfl
@[simp] theorem push_mem (a : Word) (s : State) : (push a s).mem = s.mem := rfl
@[simp] theorem push_fb (a : Word) (s : State) : (push a s).fb = s.fb := rfl
@[simp] theorem push_key (a : Word) (s : State) : (push a s).key = s.key := rfl
@[simp] theorem push_wait (a : Word) (s : State) : (push a s).wait = s.wait := rfl
@[simp] theorem push_drawReq (a : Word) (s : State) : (push a s).drawReq = s.drawReq := rfl
@[simp] theorem push_beepReq (a : Word) (s : State) : (push a s).beepReq = s.beepReq := rfl
@[simp] theorem push_diag (a : Word) (s : State) :
    (push a s).diag = if decide (s.depth = s.params.sizes.stackDepth) then s.diag ||| DiagCause.stackOvf.mask else s.diag := rfl
@[simp] theorem push_depth (a : Word) (s : State) : (push a s).depth = if s.depth = s.params.sizes.stackDepth then s.depth else s.depth + 1 := rfl
@[simp] theorem push_params (a : Word) (s : State) : (push a s).params = s.params := rfl
@[simp] theorem push_draws (a : Word) (s : State) : (push a s).draws = s.draws := rfl
@[simp] theorem push_reg (a : Word) (s : State) (r : Nibble) : (push a s).reg r = s.reg r := rfl
@[simp] theorem push_byteAt (a : Word) (s : State) (adr : Nat) : (push a s).byteAt adr = s.byteAt adr := rfl
@[simp] theorem push_keyAt (a : Word) (s : State) (r : Nibble) : (push a s).keyAt r = s.keyAt r := rfl

/-! ### pop -/

@[simp] theorem pop_v (s : State) : (pop s).v = s.v := rfl
@[simp] theorem pop_i (s : State) : (pop s).i = s.i := rfl
@[simp] theorem pop_pc (s : State) : (pop s).pc = s.pc := rfl
@[simp] theorem pop_sp (s : State) : (pop s).sp = s.popSp := rfl
@[simp] theorem pop_stack (s : State) : (pop s).stack = s.stack := rfl
@[simp] theorem pop_dt (s : State) : (pop s).dt = s.dt := rfl
@[simp] theorem pop_st (s : State) : (pop s).st = s.st := rfl
@[simp] theorem pop_mem (s : State) : (pop s).mem = s.mem := rfl
@[simp] theorem pop_fb (s : State) : (pop s).fb = s.fb := rfl
@[simp] theorem pop_key (s : State) : (pop s).key = s.key := rfl
@[simp] theorem pop_wait (s : State) : (pop s).wait = s.wait := rfl
@[simp] theorem pop_drawReq (s : State) : (pop s).drawReq = s.drawReq := rfl
@[simp] theorem pop_beepReq (s : State) : (pop s).beepReq = s.beepReq := rfl
@[simp] theorem pop_diag (s : State) :
    (pop s).diag = if decide (s.depth = 0) then s.diag ||| DiagCause.stackUnf.mask else s.diag := rfl
@[simp] theorem pop_depth (s : State) : (pop s).depth = if s.depth = 0 then 0 else s.depth - 1 := rfl
@[simp] theorem pop_params (s : State) : (pop s).params = s.params := rfl
@[simp] theorem pop_draws (s : State) : (pop s).draws = s.draws := rfl
@[simp] theorem pop_reg (s : State) (r : Nibble) : (pop s).reg r = s.reg r := rfl
@[simp] theorem pop_byteAt (s : State) (adr : Nat) : (pop s).byteAt adr = s.byteAt adr := rfl
@[simp] theorem pop_keyAt (s : State) (r : Nibble) : (pop s).keyAt r = s.keyAt r := rfl

/-! ### fetch -/

@[simp] theorem fetch_v (s : State) : (fetch s).v = s.v := rfl
@[simp] theorem fetch_i (s : State) : (fetch s).i = s.i := rfl
@[simp] theorem fetch_pc (s : State) : (fetch s).pc = s.pc + 2 := rfl
@[simp] theorem fetch_sp (s : State) : (fetch s).sp = s.sp := rfl
@[simp] theorem fetch_stack (s : State) : (fetch s).stack = s.stack := rfl
@[simp] theorem fetch_dt (s : State) : (fetch s).dt = s.dt := rfl
@[simp] theorem fetch_st (s : State) : (fetch s).st = s.st := rfl
@[simp] theorem fetch_mem (s : State) : (fetch s).mem = s.mem := rfl
@[simp] theorem fetch_fb (s : State) : (fetch s).fb = s.fb := rfl
@[simp] theorem fetch_key (s : State) : (fetch s).key = s.key := rfl
@[simp] theorem fetch_wait (s : State) : (fetch s).wait = s.wait := rfl
@[simp] theorem fetch_drawReq (s : State) : (fetch s).drawReq = s.drawReq := rfl
@[simp] theorem fetch_beepReq (s : State) : (fetch s).beepReq = s.beepReq := rfl
@[simp] theorem fetch_diag (s : State) :
    (fetch s).diag = if pcOutOfRange s then (if s.pc.getLsbD 0 then s.diag ||| DiagCause.pcOdd.mask else s.diag) ||| DiagCause.pcRange.mask else (if s.pc.getLsbD 0 then s.diag ||| DiagCause.pcOdd.mask else s.diag) := rfl
@[simp] theorem fetch_depth (s : State) : (fetch s).depth = s.depth := rfl
@[simp] theorem fetch_params (s : State) : (fetch s).params = s.params := rfl
@[simp] theorem fetch_draws (s : State) : (fetch s).draws = s.draws := rfl
@[simp] theorem fetch_reg (s : State) (r : Nibble) : (fetch s).reg r = s.reg r := rfl
@[simp] theorem fetch_byteAt (s : State) (adr : Nat) : (fetch s).byteAt adr = s.byteAt adr := rfl
@[simp] theorem fetch_keyAt (s : State) (r : Nibble) : (fetch s).keyAt r = s.keyAt r := rfl

end Sys2Proof.Machine
end

