-- ==== Sys2Proof/Laws/Ops.lean ====
section
/-! SUPPORT. One lemma per shared operation that says what it does; proofs cite these instead of unfolding the operation. -/

namespace Sys2Proof.Machine

/-! ### Registers and keys -/

theorem reg_setReg (s : State) (x : Nibble) (b : Byte) (r : Nibble) :
    (s.setReg x b).reg r = if r = x then b else s.reg r := by
  unfold State.reg State.setReg
  rw [Vector.getElem_set]
  by_cases h : r = x
  · rw [if_pos (by rw [h]), if_pos h]
  · rw [if_neg fun hx => h (BitVec.eq_of_toNat_eq hx.symm), if_neg h]

@[simp] theorem reg_setReg_same (s : State) (x : Nibble) (b : Byte) : (s.setReg x b).reg x = b := by
  rw [reg_setReg, if_pos rfl]

theorem keyAt_setKeyAt (s : State) (k : Nibble) (d : Bool) (j : Nibble) :
    (s.setKeyAt k d).keyAt j = if j = k then d else s.keyAt j := by
  unfold State.keyAt State.setKeyAt
  rw [Vector.getElem_set]
  by_cases h : j = k
  · rw [if_pos (by rw [h]), if_pos h]
  · rw [if_neg fun hx => h (BitVec.eq_of_toNat_eq hx.symm), if_neg h]

/-- Two register files that read alike are equal. -/
theorem v_ext {s t : State} (h : ∀ r, s.reg r = t.reg r) : s.v = t.v := by
  apply Vector.ext
  intro k hk
  exact h (BitVec.ofFin ⟨k, hk⟩)

/-! ### DIAG -/

theorem getLsbD_mask (c d : DiagCause) : c.mask.getLsbD d.bit = decide (c = d) := by
  cases c <;> cases d <;> decide

/-- `diag(c)` sets the bit of `c` and no other (R11, R39). -/
theorem hasDiag_diagIf (b : Bool) (c d : DiagCause) (s : State) :
    (diagIf b c s).hasDiag d = (s.hasDiag d || b && decide (c = d)) := by
  cases b
  · simp [State.hasDiag]
  · simp [State.hasDiag, getLsbD_mask]

/-- DIAG words with the same ten bits are equal. -/
theorem diag_ext {a b : BitVec 10} (h : ∀ c : DiagCause, a.getLsbD c.bit = b.getLsbD c.bit) : a = b := by
  apply BitVec.eq_of_getLsbD_eq
  intro k hk
  have hall : ∃ c : DiagCause, c.bit = k := by
    interval_cases k
    exacts [⟨.pcOdd, rfl⟩, ⟨.pcRange, rfl⟩, ⟨.iRange, rfl⟩, ⟨.stackOvf, rfl⟩, ⟨.stackUnf, rfl⟩, ⟨.keyRange, rfl⟩,
      ⟨.fontRange, rfl⟩, ⟨.unlisted, rfl⟩, ⟨.vfOperand, rfl⟩, ⟨.drawEdge, rfl⟩]
  obtain ⟨c, rfl⟩ := hall
  exact h c

/-! ### Fetch and the stack -/

/-- What a fetch changes: PC and DIAG only (R309). -/
theorem fetch_eq (s : State) : fetch s = { s with pc := (fetch s).pc, diag := (fetch s).diag } := rfl

/-- What a push changes (R30). -/
theorem push_eq (a : Word) (s : State) :
    push a s = { s with
      stack := (push a s).stack, sp := (push a s).sp, depth := (push a s).depth, diag := (push a s).diag } := rfl

/-- What a pop changes (R31). -/
theorem pop_eq (s : State) : pop s = { s with sp := (pop s).sp, depth := (pop s).depth, diag := (pop s).diag } := rfl

theorem push_sp_toNat (a : Word) (s : State) : (push a s).sp.toNat = (s.sp.toNat + 15) % 16 := by
  have : (s.sp.toNat + 15) % 16 < 16 := Nat.mod_lt _ (by decide)
  simp only [push_sp, BitVec.toNat_ofNat]
  omega

theorem pop_sp_toNat (s : State) : (pop s).sp.toNat = (s.sp.toNat + 1) % 16 := by
  have : (s.sp.toNat + 1) % 16 < 16 := Nat.mod_lt _ (by decide)
  simp only [pop_sp, State.popSp, BitVec.toNat_ofNat]
  omega

/-- A pop right after a push reads back the pushed value. -/
theorem popValue_push (a : Word) (s : State) : (push a s).popValue = a := by
  have h : ((push a s).sp.toNat + 1) % 16 = s.sp.toNat % 16 := by
    rw [push_sp_toNat]
    omega
  unfold State.popValue
  simp only [push_stack, State.stackIndex, h, Vector.getElem_set_self]

/-! ### The keypad lookup -/

/-- R252's test, with the number the rule states. -/
theorem lt_nkeys (z : Sizes) (n : Nat) : n < z.nkeys ↔ n ≤ 0xF := by
  rw [Sizes.nkeys_val]
  omega

/-- What `KeyDown` answers (R252). -/
theorem keyDown_fst (b : Byte) (s : State) :
    (keyDown b s).1 =
      if b.toNat ≤ 0xF ∨ s.params.keyIndexMode = .lowNibble then s.keyAt (b.setWidth 4) else Config.freeBit s.draws := by
  unfold keyDown
  simp only [lt_nkeys]
  by_cases h : b.toNat ≤ 0xF
  · simp [h]
  · cases hm : s.params.keyIndexMode <;> simp [h]

/-- What `KeyDown` changes: DIAG, and the count of draws under `draw` (R252). -/
theorem keyDown_snd (b : Byte) (s : State) :
    (keyDown b s).2 = { s with
      diag := if b.toNat ≤ 0xF then s.diag else s.diag ||| DiagCause.keyRange.mask
      draws := if b.toNat ≤ 0xF ∨ s.params.keyIndexMode = .lowNibble then s.draws else s.draws + 1 } := by
  unfold keyDown
  simp only [lt_nkeys]
  by_cases h : b.toNat ≤ 0xF
  · simp [h]
  · cases hm : s.params.keyIndexMode <;> simp [h, diagIf, State.countDraw]

/-! ### Flags -/

/-- VF and the result under `latched`: the operands are those before the instruction, the result is written last (R182). -/
theorem flagThenResult_latched {flag : Byte → Byte → Bool} {result : Byte → Byte → Byte} {x y : Nibble} {s : State}
    (h : s.params.operandRead = .latched) :
    flagThenResult flag result x y s =
      (s.setReg vf (flagByte (flag (s.reg x) (s.reg y)))).setReg x (result (s.reg x) (s.reg y)) := by
  simp only [flagThenResult, h]

/-- VF and the result under `sequential`: an operand that is VF is the new flag (R182). -/
theorem flagThenResult_sequential {flag : Byte → Byte → Bool} {result : Byte → Byte → Byte} {x y : Nibble} {s : State}
    (h : s.params.operandRead = .sequential) :
    flagThenResult flag result x y s =
      (s.setReg vf (flagByte (flag (s.reg x) (s.reg y)))).setReg x
        (result (if x = vf then flagByte (flag (s.reg x) (s.reg y)) else s.reg x)
          (if y = vf then flagByte (flag (s.reg x) (s.reg y)) else s.reg y)) := by
  simp only [flagThenResult, h, reg_setReg]

/-- The flag instructions change the register file only. -/
theorem flagThenResult_eq (flag : Byte → Byte → Bool) (result : Byte → Byte → Byte) (x y : Nibble) (s : State) :
    flagThenResult flag result x y s = { s with v := (flagThenResult flag result x y s).v } := by
  unfold flagThenResult
  cases s.params.operandRead <;> rfl

/-! ### Register ranges -/

/-- Storing a range changes memory and DIAG only (R224). -/
theorem storeRange_eq (ks : List Nat) (s : State) :
    storeRange ks s = { s with mem := (storeRange ks s).mem, diag := (storeRange ks s).diag } := by
  induction ks generalizing s with
  | nil => rfl
  | cons k ks ih =>
    rw [storeRange, ih]
    rfl

theorem wf_storeRange {ks : List Nat} {s : State} (hm : Memory.wf s.mem = true) :
    Memory.wf (storeRange ks s).mem = true := by
  induction ks generalizing s with
  | nil => exact hm
  | cons k ks ih => exact ih (wf_dataWrite _ _ hm)

/-- Storing a range records I_RANGE when some address is reduced (R61). -/
theorem hasDiag_storeRange (ks : List Nat) (s : State) (c : DiagCause) :
    (storeRange ks s).hasDiag c = (s.hasDiag c || decide (c = .iRange) && ks.any fun k => decide (s.i.toNat + k > 0xFFF)) := by
  induction ks generalizing s with
  | nil => simp [storeRange]
  | cons k ks ih =>
    rw [storeRange, ih]
    have : (dataWrite (s.i.toNat + k) (s.reg (BitVec.ofNat 4 k)) s).hasDiag c =
        (diagIf (decide (s.i.toNat + k > 0xFFF)) .iRange s).hasDiag c := rfl
    rw [this, hasDiag_diagIf, List.any_cons, dataWrite_i]
    by_cases hc : c = .iRange
    · subst hc
      simp only [decide_true, Bool.and_true, Bool.true_and, Bool.or_assoc]
    · simp [hc, Ne.symm hc]

/-- A byte outside the range's addresses is unchanged (R224). -/
theorem byteAt_storeRange_other {ks : List Nat} {s : State} {a : Nat} (hm : Memory.wf s.mem = true)
    (h : ∀ k ∈ ks, ea s.params.sizes a ≠ ea s.params.sizes (s.i.toNat + k)) : (storeRange ks s).byteAt a = s.byteAt a := by
  induction ks generalizing s with
  | nil => rfl
  | cons k ks ih =>
    rw [storeRange, ih (wf_dataWrite _ _ hm) fun j hj => h j (List.mem_cons_of_mem _ hj), byteAt_dataWrite _ _ _ hm,
      if_neg (h k List.mem_cons_self)]

/-- The byte at `I + k` after storing the range is Vk, when the range's addresses differ (R224). -/
theorem byteAt_storeRange {ks : List Nat} {s : State} {k : Nat} (hm : Memory.wf s.mem = true) (hk : k ∈ ks)
    (hinj : ∀ j ∈ ks, ea s.params.sizes (s.i.toNat + j) = ea s.params.sizes (s.i.toNat + k) → j = k) :
    (storeRange ks s).byteAt (s.i.toNat + k) = s.reg (BitVec.ofNat 4 k) := by
  induction ks generalizing s with
  | nil => cases hk
  | cons j ks ih =>
    rw [storeRange]
    by_cases hmem : k ∈ ks
    · exact ih (s := dataWrite (s.i.toNat + j) (s.reg (BitVec.ofNat 4 j)) s) (wf_dataWrite _ _ hm) hmem
        fun l hl => hinj l (List.mem_cons_of_mem _ hl)
    · obtain rfl : k = j := (List.mem_cons.1 hk).resolve_right hmem
      rw [byteAt_storeRange_other (wf_dataWrite _ _ hm), byteAt_dataWrite _ _ _ hm, if_pos rfl]
      intro l hl heq
      exact hmem (hinj l (List.mem_cons_of_mem _ hl) heq.symm ▸ hl)

/-- Loading a range changes the register file and DIAG only (R225). -/
theorem loadRange_eq (ks : List Nat) (s : State) :
    loadRange ks s = { s with v := (loadRange ks s).v, diag := (loadRange ks s).diag } := by
  induction ks generalizing s with
  | nil => rfl
  | cons k ks ih =>
    rw [loadRange, ih]
    rfl

theorem hasDiag_loadRange (ks : List Nat) (s : State) (c : DiagCause) :
    (loadRange ks s).hasDiag c = (s.hasDiag c || decide (c = .iRange) && ks.any fun k => decide (s.i.toNat + k > 0xFFF)) := by
  induction ks generalizing s with
  | nil => simp [loadRange]
  | cons k ks ih =>
    rw [loadRange, ih]
    have : ((dataRead (s.i.toNat + k) s).2.setReg (BitVec.ofNat 4 k) (dataRead (s.i.toNat + k) s).1).hasDiag c =
        (diagIf (decide (s.i.toNat + k > 0xFFF)) .iRange s).hasDiag c := rfl
    rw [this, hasDiag_diagIf, List.any_cons, setReg_i]
    have : (dataRead (s.i.toNat + k) s).2.i = s.i := rfl
    rw [this]
    by_cases hc : c = .iRange
    · subst hc
      simp only [decide_true, Bool.and_true, Bool.true_and, Bool.or_assoc]
    · simp [hc, Ne.symm hc]

/-- After loading the range `ks`, a register whose index is in it holds its byte, and every other is unchanged (R225). -/
theorem reg_loadRange {ks : List Nat} {s : State} (h : ∀ k ∈ ks, k < 16) (r : Nibble) :
    (loadRange ks s).reg r = if r.toNat ∈ ks then s.byteAt (s.i.toNat + r.toNat) else s.reg r := by
  induction ks generalizing s with
  | nil => simp [loadRange]
  | cons k ks ih =>
    have hk := h k List.mem_cons_self
    rw [loadRange, ih fun j hj => h j (List.mem_cons_of_mem _ hj), setReg_byteAt, setReg_i, reg_setReg]
    have hr : r = BitVec.ofNat 4 k ↔ r.toNat = k := by
      rw [← BitVec.toNat_inj, BitVec.toNat_ofNat, Nat.mod_eq_of_lt (by omega)]
    have hi : (dataRead (s.i.toNat + k) s).2.i = s.i := rfl
    have hb (a : Nat) : (dataRead (s.i.toNat + k) s).2.byteAt a = s.byteAt a := rfl
    have hg : (dataRead (s.i.toNat + k) s).2.reg r = s.reg r := rfl
    rw [hi, hb, hg]
    by_cases hm : r.toNat ∈ ks
    · rw [if_pos hm, if_pos (List.mem_cons_of_mem _ hm)]
    · rw [if_neg hm]
      by_cases he : r.toNat = k
      · rw [if_pos (hr.2 he), if_pos (by rw [he]; exact List.mem_cons_self), he]
        rfl
      · rw [if_neg fun hx => he (hr.1 hx), if_neg (by simp [he, hm])]

/-! ### Host operations -/

/-- One tick of a timer (R310). -/
theorem tickDown_toNat (b : Byte) : (tickDown b).toNat = b.toNat - 1 := by
  unfold tickDown
  split
  · have := b.isLt
    bv_omega
  · omega

end Sys2Proof.Machine
end

