-- ==== Sys2Proof/Laws/Display.lean ====
section
/-! SUPPORT. What a sprite does to a canvas: the loops of Dxyn plot a list of coordinates, each pixel at most once, so the
framebuffer is XORed with the sprite and the collision does not depend on the order (spec/40_display.md R121). -/

namespace Sys2Proof.Machine

theorem pixelAt_setPixelAt (fb : Framebuffer) (py qy : Fin 32) (px qx : Fin 64) (b : Bool) :
    pixelAt (setPixelAt fb py px b) qy qx = if qy = py ∧ qx = px then b else pixelAt fb qy qx := by
  unfold pixelAt setPixelAt
  by_cases hy : qy = py
  · subst hy
    simp only [Vector.getElem_set_self, true_and]
    by_cases hx : qx = px
    · subst hx
      simp
    · rw [if_neg hx, Vector.getElem_set_ne _ _ fun h => hx (Fin.ext h.symm)]
  · rw [if_neg fun h => hy h.1, Vector.getElem_set_ne _ _ fun h => hy (Fin.ext h.symm)]

@[simp] theorem pixelAt_clearedFb (py : Fin 32) (px : Fin 64) : pixelAt clearedFb py px = false := by
  simp [pixelAt, clearedFb]

/-- R121's tests and moduli, with the numbers the rule states. -/
theorem offScreen_eq (z : Sizes) (ux uy : Nat) : offScreen z ux uy = (decide (64 ≤ ux) || decide (32 ≤ uy)) := by
  rw [offScreen, Sizes.fbW_val, Sizes.fbH_val]

@[simp] theorem columnOf_val (z : Sizes) (ux : Nat) : (columnOf z ux).val = ux % 64 := by simp [columnOf]

@[simp] theorem rowOf_val (z : Sizes) (uy : Nat) : (rowOf z uy).val = uy % 32 := by simp [rowOf]

/-- Framebuffers with the same pixels are equal. -/
theorem framebuffer_ext {f g : Framebuffer} (h : ∀ py px, pixelAt f py px = pixelAt g py px) : f = g := by
  apply Vector.ext
  intro y hy
  apply Vector.ext
  intro x hx
  exact h ⟨y, hy⟩ ⟨x, hx⟩

/-- Plots a list of unreduced coordinates, (column, row). -/
def plotAll (z : Sizes) (policy : EdgePolicy) : List (Nat × Nat) → Canvas → Canvas
  | [], c => c
  | p :: ps, c => plotAll z policy ps (plot z policy p.1 p.2 c)

theorem plotAll_append (z : Sizes) (policy : EdgePolicy) (ps qs : List (Nat × Nat)) (c : Canvas) :
    plotAll z policy (ps ++ qs) c = plotAll z policy qs (plotAll z policy ps c) := by
  induction ps generalizing c with
  | nil => rfl
  | cons p ps ih => exact ih _

/-- The coordinates of the set bits of one sprite row. -/
def rowCoords (b : Byte) (cx uy : Nat) (ks : List Nat) : List (Nat × Nat) :=
  (ks.filter fun k => b.getLsbD (7 - k)).map fun k => (cx + k, uy)

/-- The coordinates of the set bits of a sprite. -/
def spriteCoords (byte : Nat → Byte) (cx cy : Nat) (rs : List Nat) : List (Nat × Nat) :=
  rs.flatMap fun r => rowCoords (byte r) cx (cy + r) (List.range 8)

theorem plotRow_eq (z : Sizes) (policy : EdgePolicy) (b : Byte) (cx uy : Nat) (ks : List Nat) (c : Canvas) :
    plotRow z policy b cx uy ks c = plotAll z policy (rowCoords b cx uy ks) c := by
  induction ks generalizing c with
  | nil => rfl
  | cons k ks ih =>
    rw [plotRow, ih]
    by_cases h : b.getLsbD (7 - k) = true
    · simp [rowCoords, h, plotAll]
    · simp [rowCoords, h]

theorem plotRows_eq (z : Sizes) (policy : EdgePolicy) (byte : Nat → Byte) (cx cy : Nat) (rs : List Nat) (c : Canvas) :
    plotRows z policy byte cx cy rs c = plotAll z policy (spriteCoords byte cx cy rs) c := by
  induction rs generalizing c with
  | nil => rfl
  | cons r rs ih =>
    rw [plotRows, ih, plotRow_eq]
    unfold spriteCoords
    rw [List.flatMap_cons, plotAll_append]

/-- Is the pixel (py, px) among those that a coordinate list plots? -/
def Plotted (z : Sizes) (policy : EdgePolicy) (ps : List (Nat × Nat)) (py : Fin 32) (px : Fin 64) : Prop :=
  ∃ p ∈ ps, (policy = .wrap ∨ offScreen z p.1 p.2 = false) ∧ rowOf z p.2 = py ∧ columnOf z p.1 = px

/-- No two coordinates of the list fall on the same pixel. -/
def PixelsDiffer (z : Sizes) (ps : List (Nat × Nat)) : Prop :=
  ps.Pairwise fun p q => ¬(rowOf z p.2 = rowOf z q.2 ∧ columnOf z p.1 = columnOf z q.1)

theorem plot_edge (z : Sizes) (policy : EdgePolicy) (ux uy : Nat) (c : Canvas) :
    (plot z policy ux uy c).edge = (c.edge || offScreen z ux uy) := by
  unfold plot
  split <;> rfl

/-- The edge diagnostic: some plotted bit lay past the edge. -/
theorem plotAll_edge (z : Sizes) (policy : EdgePolicy) (ps : List (Nat × Nat)) (c : Canvas) :
    (plotAll z policy ps c).edge = (c.edge || ps.any fun p => offScreen z p.1 p.2) := by
  induction ps generalizing c with
  | nil => simp [plotAll]
  | cons p ps ih => rw [plotAll, ih, plot_edge, List.any_cons, Bool.or_assoc]

theorem plot_pixel (z : Sizes) (policy : EdgePolicy) (ux uy : Nat) (c : Canvas) (py : Fin 32) (px : Fin 64) :
    pixelAt (plot z policy ux uy c).fb py px =
      if (policy = .wrap ∨ offScreen z ux uy = false) ∧ rowOf z uy = py ∧ columnOf z ux = px then !pixelAt c.fb py px
      else pixelAt c.fb py px := by
  unfold plot
  by_cases h : policy = .wrap ∨ offScreen z ux uy = false
  · rw [if_pos h]
    simp only [pixelAt_setPixelAt, h, true_and]
    by_cases hp : rowOf z uy = py ∧ columnOf z ux = px
    · obtain ⟨rfl, rfl⟩ := hp
      simp
    · rw [if_neg hp, if_neg fun hq => hp ⟨hq.1.symm, hq.2.symm⟩]
  · rw [if_neg h, if_neg fun hq => h hq.1]

/-- A plotted pixel is inverted, every other is unchanged. -/
theorem plotAll_pixel {z : Sizes} {policy : EdgePolicy} {ps : List (Nat × Nat)} (hd : PixelsDiffer z ps) (c : Canvas)
    (py : Fin 32) (px : Fin 64) :
    (Plotted z policy ps py px → pixelAt (plotAll z policy ps c).fb py px = !pixelAt c.fb py px) ∧
      (¬Plotted z policy ps py px → pixelAt (plotAll z policy ps c).fb py px = pixelAt c.fb py px) := by
  induction ps generalizing c with
  | nil => simp [Plotted, plotAll]
  | cons p ps ih =>
    obtain ⟨hp, hps⟩ := List.pairwise_cons.1 hd
    obtain ⟨ih1, ih2⟩ := ih hps (plot z policy p.1 p.2 c)
    rw [plotAll]
    by_cases hhere : (policy = .wrap ∨ offScreen z p.1 p.2 = false) ∧ rowOf z p.2 = py ∧ columnOf z p.1 = px
    · have hlater : ¬Plotted z policy ps py px := by
        rintro ⟨q, hq, -, hqy, hqx⟩
        exact hp q hq ⟨hhere.2.1.trans hqy.symm, hhere.2.2.trans hqx.symm⟩
      rw [ih2 hlater, plot_pixel, if_pos hhere]
      exact ⟨fun _ => rfl, fun h => absurd ⟨p, List.mem_cons_self, hhere⟩ h⟩
    · have hiff : Plotted z policy (p :: ps) py px ↔ Plotted z policy ps py px := by
        constructor
        · rintro ⟨q, hq, h⟩
          rcases List.mem_cons.1 hq with rfl | hq
          · exact absurd h hhere
          · exact ⟨q, hq, h⟩
        · rintro ⟨q, hq, h⟩
          exact ⟨q, List.mem_cons_of_mem _ hq, h⟩
      have hsame : pixelAt (plot z policy p.1 p.2 c).fb py px = pixelAt c.fb py px := by
        rw [plot_pixel, if_neg hhere]
      rw [hiff, ← hsame]
      exact ⟨ih1, ih2⟩

/-- A collision: some plotted pixel was 1 before. -/
theorem plotAll_hit {z : Sizes} {policy : EdgePolicy} {ps : List (Nat × Nat)} (hd : PixelsDiffer z ps) (c : Canvas) :
    (plotAll z policy ps c).hit = true ↔
      c.hit = true ∨ ∃ py px, Plotted z policy ps py px ∧ pixelAt c.fb py px = true := by
  induction ps generalizing c with
  | nil => simp [plotAll, Plotted]
  | cons p ps ih =>
    obtain ⟨hp, hps⟩ := List.pairwise_cons.1 hd
    rw [plotAll, ih hps]
    have hkeep {py px} (h : Plotted z policy ps py px) :
        pixelAt (plot z policy p.1 p.2 c).fb py px = pixelAt c.fb py px := by
      rw [plot_pixel, if_neg]
      rintro ⟨-, hy, hx⟩
      obtain ⟨q, hq, -, hqy, hqx⟩ := h
      exact hp q hq ⟨hy.trans hqy.symm, hx.trans hqx.symm⟩
    have hhit : (plot z policy p.1 p.2 c).hit = true ↔
        c.hit = true ∨ (policy = .wrap ∨ offScreen z p.1 p.2 = false) ∧
          pixelAt c.fb (rowOf z p.2) (columnOf z p.1) = true := by
      unfold plot
      split
      · next h => simp [h]
      · next h => simp [h]
    rw [hhit]
    constructor
    · rintro ((h | ⟨hv, h⟩) | ⟨py, px, hpl, h⟩)
      · exact .inl h
      · exact .inr ⟨_, _, ⟨p, List.mem_cons_self, hv, rfl, rfl⟩, h⟩
      · obtain ⟨q, hq, hrest⟩ := hpl
        exact .inr ⟨py, px, ⟨q, List.mem_cons_of_mem _ hq, hrest⟩, hkeep ⟨q, hq, hrest⟩ ▸ h⟩
    · rintro (h | ⟨py, px, ⟨q, hq, hv, hy, hx⟩, h⟩)
      · exact .inl (.inl h)
      · rcases List.mem_cons.1 hq with rfl | hq
        · subst hy hx
          exact .inl (.inr ⟨hv, h⟩)
        · exact .inr ⟨py, px, ⟨q, hq, hv, hy, hx⟩, (hkeep ⟨q, hq, hv, hy, hx⟩).symm ▸ h⟩

theorem mem_spriteCoords {byte : Nat → Byte} {cx cy : Nat} {rs : List Nat} {p : Nat × Nat} :
    p ∈ spriteCoords byte cx cy rs ↔
      ∃ r ∈ rs, ∃ k < 8, (byte r).getLsbD (7 - k) = true ∧ p = (cx + k, cy + r) := by
  simp only [spriteCoords, rowCoords, List.mem_flatMap, List.mem_map, List.mem_filter, List.mem_range]
  constructor
  · rintro ⟨r, hr, k, ⟨hk, hb⟩, rfl⟩
    exact ⟨r, hr, k, hk, hb, rfl⟩
  · rintro ⟨r, hr, k, hk, hb, rfl⟩
    exact ⟨r, hr, k, ⟨hk, hb⟩, rfl⟩

/-- A sprite of at most 32 rows plots no pixel twice, even when it wraps (R121). -/
theorem pixelsDiffer_sprite (z : Sizes) (byte : Nat → Byte) (cx cy n : Nat) (hn : n ≤ 32) :
    PixelsDiffer z (spriteCoords byte cx cy (List.range n)) := by
  unfold PixelsDiffer spriteCoords
  rw [List.pairwise_flatMap]
  constructor
  · intro r _
    unfold rowCoords
    rw [List.pairwise_map]
    refine List.Pairwise.imp_of_mem ?_ (List.Pairwise.filter _ List.pairwise_lt_range)
    intro a b ha hb hlt h
    have ha := List.mem_range.1 (List.mem_of_mem_filter ha)
    have hb := List.mem_range.1 (List.mem_of_mem_filter hb)
    have := congrArg Fin.val h.2
    simp only [columnOf, Sizes.fbW_val] at this
    omega
  · refine List.Pairwise.imp_of_mem ?_ List.pairwise_lt_range
    intro r r' hr hr' hlt p hp q hq h
    have hr := List.mem_range.1 hr
    have hr' := List.mem_range.1 hr'
    simp only [rowCoords, List.mem_map] at hp hq
    obtain ⟨k, -, rfl⟩ := hp
    obtain ⟨k', -, rfl⟩ := hq
    have := congrArg Fin.val h.1
    simp only [rowOf, Sizes.fbH_val] at this
    omega

/-- The canvas of Dxyn as a coordinate list. -/
theorem drawSprite_eq (x y n : Nibble) (s : State) :
    drawSprite x y n s =
      plotAll s.params.sizes s.params.drawEdge
        (spriteCoords (fun r => s.byteAt (s.i.toNat + r)) ((s.reg x).toNat % s.params.sizes.fbW)
          ((s.reg y).toNat % s.params.sizes.fbH) (List.range n.toNat))
        { fb := s.fb, hit := false, edge := false } :=
  plotRows_eq _ _ _ _ _ _ _

/-- What Dxyn changes: VF, the framebuffer, DRAW_REQ and DIAG (R121). -/
theorem execDraw_eq (x y n : Nibble) (s : State) :
    execDraw x y n s = .next { s with
      v := s.v.set 15 (flagByte (drawSprite x y n s).hit)
      fb := (drawSprite x y n s).fb
      drawReq := true
      diag := (diagIf (drawSprite x y n s).edge .drawEdge (diagIf (spriteWraps n s) .iRange s)).diag } := rfl

end Sys2Proof.Machine
end

