-- ==== Sys2Proof/Laws/Encode.lean ====
section
/-! SUPPORT. The fields of a word and the word of its fields (spec/30_encoding.md R90, R91): each layout gives its fields back,
and a word is the layout of its own fields. -/

namespace Sys2Proof

theorem getLsbD_layoutNNN (f : Nibble) (a : Addr) (k : Nat) :
    (layoutNNN f a).getLsbD k = if k < 12 then a.getLsbD k else f.getLsbD (k - 12) :=
  BitVec.getLsbD_append

theorem getLsbD_layoutXNN (f x : Nibble) (b : Byte) (k : Nat) :
    (layoutXNN f x b).getLsbD k =
      if k < 8 then b.getLsbD k else if k - 8 < 4 then x.getLsbD (k - 8) else f.getLsbD (k - 8 - 4) := by
  have h1 : (layoutXNN f x b).getLsbD k = if k < 8 then b.getLsbD k else (f ++ x).getLsbD (k - 8) :=
    BitVec.getLsbD_append
  rw [h1, BitVec.getLsbD_append]

theorem getLsbD_layoutXYN (f x y n : Nibble) (k : Nat) :
    (layoutXYN f x y n).getLsbD k =
      if k < 4 then n.getLsbD k else if k - 4 < 4 then y.getLsbD (k - 4)
        else if k - 4 - 4 < 4 then x.getLsbD (k - 4 - 4) else f.getLsbD (k - 4 - 4 - 4) := by
  have h1 : (layoutXYN f x y n).getLsbD k = if k < 4 then n.getLsbD k else (f ++ x ++ y).getLsbD (k - 4) :=
    BitVec.getLsbD_append
  have h2 : (f ++ x ++ y).getLsbD (k - 4) = if k - 4 < 4 then y.getLsbD (k - 4) else (f ++ x).getLsbD (k - 4 - 4) :=
    BitVec.getLsbD_append
  rw [h1, h2, BitVec.getLsbD_append]

/-- A slice of a word is a field when their bits agree. -/
theorem extract_eq {m start : Nat} {w : Word} {b : BitVec m} (h : ∀ k, k < m → w.getLsbD (start + k) = b.getLsbD k) :
    w.extractLsb' start m = b := by
  apply BitVec.eq_of_getLsbD_eq
  intro k hk
  rw [BitVec.getLsbD_extractLsb', decide_eq_true hk, Bool.true_and, h k hk]

@[simp] theorem fieldFamily_layoutNNN (f : Nibble) (a : Addr) : fieldFamily (layoutNNN f a) = f :=
  extract_eq fun k _ => by rw [getLsbD_layoutNNN, if_neg (by omega), show 12 + k - 12 = k by omega]

@[simp] theorem fieldNNN_layoutNNN (f : Nibble) (a : Addr) : fieldNNN (layoutNNN f a) = a :=
  extract_eq fun k _ => by rw [getLsbD_layoutNNN, if_pos (by omega), Nat.zero_add]

@[simp] theorem fieldFamily_layoutXNN (f x : Nibble) (b : Byte) : fieldFamily (layoutXNN f x b) = f :=
  extract_eq fun k _ => by
    rw [getLsbD_layoutXNN, if_neg (by omega), if_neg (by omega), show 12 + k - 8 - 4 = k by omega]

@[simp] theorem fieldX_layoutXNN (f x : Nibble) (b : Byte) : fieldX (layoutXNN f x b) = x :=
  extract_eq fun k _ => by
    rw [getLsbD_layoutXNN, if_neg (by omega), if_pos (by omega), show 8 + k - 8 = k by omega]

@[simp] theorem fieldNN_layoutXNN (f x : Nibble) (b : Byte) : fieldNN (layoutXNN f x b) = b :=
  extract_eq fun k _ => by rw [getLsbD_layoutXNN, if_pos (by omega), Nat.zero_add]

@[simp] theorem fieldFamily_layoutXYN (f x y n : Nibble) : fieldFamily (layoutXYN f x y n) = f :=
  extract_eq fun k _ => by
    rw [getLsbD_layoutXYN, if_neg (by omega), if_neg (by omega), if_neg (by omega), show 12 + k - 4 - 4 - 4 = k by omega]

@[simp] theorem fieldX_layoutXYN (f x y n : Nibble) : fieldX (layoutXYN f x y n) = x :=
  extract_eq fun k _ => by
    rw [getLsbD_layoutXYN, if_neg (by omega), if_neg (by omega), if_pos (by omega), show 8 + k - 4 - 4 = k by omega]

@[simp] theorem fieldY_layoutXYN (f x y n : Nibble) : fieldY (layoutXYN f x y n) = y :=
  extract_eq fun k _ => by
    rw [getLsbD_layoutXYN, if_neg (by omega), if_pos (by omega), show 4 + k - 4 = k by omega]

@[simp] theorem fieldN_layoutXYN (f x y n : Nibble) : fieldN (layoutXYN f x y n) = n :=
  extract_eq fun k _ => by rw [getLsbD_layoutXYN, if_pos (by omega), Nat.zero_add]

/-- The bits of a field. -/
theorem getLsbD_extract {m start : Nat} (w : Word) {k : Nat} (h : k < m) :
    (w.extractLsb' start m).getLsbD k = w.getLsbD (start + k) := by
  rw [BitVec.getLsbD_extractLsb', decide_eq_true h, Bool.true_and]

theorem layoutNNN_fields (w : Word) : layoutNNN (fieldFamily w) (fieldNNN w) = w := by
  apply BitVec.eq_of_getLsbD_eq
  intro k hk
  rw [getLsbD_layoutNNN]
  split
  · next h => rw [fieldNNN, getLsbD_extract _ h, Nat.zero_add]
  · next h => rw [fieldFamily, getLsbD_extract _ (by omega), show 12 + (k - 12) = k by omega]

theorem layoutXNN_fields (w : Word) : layoutXNN (fieldFamily w) (fieldX w) (fieldNN w) = w := by
  apply BitVec.eq_of_getLsbD_eq
  intro k hk
  rw [getLsbD_layoutXNN]
  split
  · next h => rw [fieldNN, getLsbD_extract _ h, Nat.zero_add]
  · split
    · next h => rw [fieldX, getLsbD_extract _ h, show 8 + (k - 8) = k by omega]
    · rw [fieldFamily, getLsbD_extract _ (by omega), show 12 + (k - 8 - 4) = k by omega]

theorem layoutXYN_fields (w : Word) : layoutXYN (fieldFamily w) (fieldX w) (fieldY w) (fieldN w) = w := by
  apply BitVec.eq_of_getLsbD_eq
  intro k hk
  rw [getLsbD_layoutXYN]
  split
  · next h => rw [fieldN, getLsbD_extract _ h, Nat.zero_add]
  · split
    · next h => rw [fieldY, getLsbD_extract _ h, show 4 + (k - 4) = k by omega]
    · split
      · next h => rw [fieldX, getLsbD_extract _ h, show 8 + (k - 4 - 4) = k by omega]
      · rw [fieldFamily, getLsbD_extract _ (by omega), show 12 + (k - 4 - 4 - 4) = k by omega]

/-- Masking a word of the layout F_NNN masks its two fields. -/
theorem layoutNNN_and (f f' : Nibble) (a a' : Addr) :
    layoutNNN f a &&& layoutNNN f' a' = layoutNNN (f &&& f') (a &&& a') := by
  apply BitVec.eq_of_getLsbD_eq
  intro k hk
  simp only [BitVec.getLsbD_and, getLsbD_layoutNNN]
  split <;> rfl

/-- Masking a word of the layout F_XNN masks its three fields. -/
theorem layoutXNN_and (f f' x x' : Nibble) (b b' : Byte) :
    layoutXNN f x b &&& layoutXNN f' x' b' = layoutXNN (f &&& f') (x &&& x') (b &&& b') := by
  apply BitVec.eq_of_getLsbD_eq
  intro k hk
  simp only [BitVec.getLsbD_and, getLsbD_layoutXNN]
  split
  · rfl
  · split <;> rfl

/-- Masking a word of the layout F_XYN masks its four fields. -/
theorem layoutXYN_and (f f' x x' y y' n n' : Nibble) :
    layoutXYN f x y n &&& layoutXYN f' x' y' n' = layoutXYN (f &&& f') (x &&& x') (y &&& y') (n &&& n') := by
  apply BitVec.eq_of_getLsbD_eq
  intro k hk
  simp only [BitVec.getLsbD_and, getLsbD_layoutXYN]
  split
  · rfl
  · split
    · rfl
    · split <;> rfl

end Sys2Proof
end

