-- ==== Sys2Proof/Laws/Exec.lean ====
section
/-! SUPPORT. What each shared operation and each long meaning changes, as one equation that names the elements it writes:
later proofs rewrite with it instead of unfolding the operation. -/

namespace Sys2Proof.Machine

/-- The word of two bytes as a number (R63). -/
theorem wordOfBytes_toNat (a b : Byte) : (wordOfBytes a b).toNat = a.toNat * 256 + b.toNat := by
  have hb := b.isLt
  unfold wordOfBytes
  rw [BitVec.toNat_append, Nat.shiftLeft_eq, Nat.mul_comm, ← Nat.two_pow_add_eq_or_of_lt hb, Nat.mul_comm]

/-- An address and its reduction name the same byte (R61). -/
theorem byteAt_mod (s : State) (a : Nat) : s.byteAt (a % 0x1000) = s.byteAt a := by
  simp [State.byteAt, ea_eq]

/-- A data read changes DIAG only (R62). -/
theorem dataRead_eq (a : Nat) (s : State) : (dataRead a s).2 = { s with diag := (dataRead a s).2.diag } := rfl

/-- A data write changes memory and DIAG only (R62). -/
theorem dataWrite_eq (a : Nat) (b : Byte) (s : State) :
    dataWrite a b s = { s with mem := (dataWrite a b s).mem, diag := (dataWrite a b s).diag } := rfl

theorem hasDiag_dataWrite (a : Nat) (b : Byte) (s : State) (c : DiagCause) :
    (dataWrite a b s).hasDiag c = (s.hasDiag c || decide (a > 0xFFF) && decide (.iRange = c)) := by
  have h : (dataWrite a b s).hasDiag c = (diagIf (decide (a > 0xFFF)) .iRange s).hasDiag c := rfl
  rw [h, hasDiag_diagIf]

/-- What the two-operand flag instructions change (R182). -/
theorem flagBinary_eq (flag : Byte → Byte → Bool) (result : Byte → Byte → Byte) (x y : Nibble) (s : State) :
    flagBinary flag result x y s =
      { s with v := (flagBinary flag result x y s).v, diag := (diagIf (x == vf || y == vf) .vfOperand s).diag } := by
  have h := flagThenResult_eq flag result x y (diagIf (x == vf || y == vf) .vfOperand s)
  exact h

/-- What the shifts change (R182). -/
theorem flagShift_eq (flag : Byte → Bool) (result : Byte → Byte) (x : Nibble) (s : State) :
    flagShift flag result x s =
      { s with v := (flagShift flag result x s).v, diag := (diagIf (x == vf) .vfOperand s).diag } := by
  have h := flagThenResult_eq (fun a _ => flag a) (fun a _ => result a) x x (diagIf (x == vf) .vfOperand s)
  exact h

/-- What `KeyDown` changes (R252). -/
theorem keyDown_eq (b : Byte) (s : State) :
    (keyDown b s).2 = { s with diag := (keyDown b s).2.diag, draws := (keyDown b s).2.draws } := by
  rw [keyDown_snd]

/-- A data write after operations that changed memory and DIAG only changes memory and DIAG only. -/
theorem dataWrite_after {s t : State} (a : Nat) (b : Byte) (h : ∃ m d, t = { s with mem := m, diag := d }) :
    ∃ m d, dataWrite a b t = { s with mem := m, diag := d } := by
  obtain ⟨m, d, rfl⟩ := h
  exact ⟨_, _, dataWrite_eq a b _⟩

/-- What Fx33 changes: memory and DIAG (R223). -/
theorem execBcd_eq (x : Nibble) (s : State) : ∃ m d, execBcd x s = .next { s with mem := m, diag := d } := by
  obtain ⟨m, d, h⟩ := dataWrite_after (s.i.toNat + 2) (bcdOnes (s.reg x))
    (dataWrite_after (s.i.toNat + 1) (bcdTens (s.reg x)) ⟨_, _, dataWrite_eq (s.i.toNat + 0) (bcdHundreds (s.reg x)) s⟩)
  exact ⟨m, d, congrArg Host.Outcome.next h⟩

end Sys2Proof.Machine
end

