-- ==== Sys2Proof/Laws/PerInstr.lean ====
section
/-! SUPPORT. Per-instruction facts about encodings: the word of each instruction matches its own row of the opcode table,
under `SKIP9_STRICT = true`. -/

namespace Sys2Proof.Laws.EncodeHitsRow

/-- The word of a well-formed instruction matches every row of the opcode table that bears its mnemonic. -/
def Statement (i : Instr) : Prop :=
  i.wf true = true → ∀ r ∈ opcodeRows true, r.mnemonic = i.mnemonic → r.hits (encode i) = true

/-- A row that stands in the table and is the only one of its mnemonic decides `Statement`. -/
theorem of_row {i : Instr} (r : OpRow) (hone : ∀ q ∈ opcodeRows true, q.mnemonic = i.mnemonic → q = r)
    (hhit : i.wf true = true → r.hits (encode i) = true) : Statement i := by
  intro hwf q hq hm
  rw [hone q hq hm]
  exact hhit hwf

/-- A row of the layout F_NNN. -/
theorem hits_layoutNNN (m : String) (f : Nibble) (a : Addr) (p k : Word) (hp : p = layoutNNN f 0) (hk : k = layoutNNN 0xF 0) :
    OpRow.hits ⟨m, p, k⟩ (layoutNNN f a) = true := by
  have hf : f &&& 0xF = f := BitVec.and_allOnes
  have ha : a &&& 0 = 0 := BitVec.and_zero
  simp only [OpRow.hits, hp, hk, layoutNNN_and, hf, ha, beq_self_eq_true]

/-- A row of the layouts F_XNN and F_X, of mask `q` on the low byte. -/
theorem hits_layoutXNN (m : String) (f x : Nibble) (b q : Byte) (p k : Word) (hp : p = layoutXNN f 0 (b &&& q))
    (hk : k = layoutXNN 0xF 0 q) : OpRow.hits ⟨m, p, k⟩ (layoutXNN f x b) = true := by
  have hf : f &&& 0xF = f := BitVec.and_allOnes
  have hx : x &&& 0 = 0 := BitVec.and_zero
  simp only [OpRow.hits, hp, hk, layoutXNN_and, hf, hx, beq_self_eq_true]

/-- A row of the layouts F_XY and F_XYN, of mask `q` on the low nibble. -/
theorem hits_layoutXYN (m : String) (f x y n q : Nibble) (p k : Word) (hp : p = layoutXYN f 0 0 (n &&& q))
    (hk : k = layoutXYN 0xF 0 0 q) : OpRow.hits ⟨m, p, k⟩ (layoutXYN f x y n) = true := by
  have hf : f &&& 0xF = f := BitVec.and_allOnes
  have hx : x &&& 0 = 0 := BitVec.and_zero
  have hy : y &&& 0 = 0 := BitVec.and_zero
  simp only [OpRow.hits, hp, hk, layoutXYN_and, hf, hx, hy, beq_self_eq_true]

theorem clear : Statement .clear :=
  of_row ⟨"clear", 0x00E0, 0xFFFF⟩ (by decide) fun _ => by decide

theorem ret : Statement .ret :=
  of_row ⟨"return", 0x00EE, 0xFFFF⟩ (by decide) fun _ => by decide

theorem jump (nnn : Addr) : Statement (.jump nnn) :=
  of_row ⟨"jump", 0x1000, 0xF000⟩ (by simp only [Instr.mnemonic]; decide) fun _ =>
    hits_layoutNNN _ 0x1 nnn _ _ (by decide) (by decide)

theorem call (nnn : Addr) : Statement (.call nnn) :=
  of_row ⟨"call", 0x2000, 0xF000⟩ (by simp only [Instr.mnemonic]; decide) fun _ =>
    hits_layoutNNN _ 0x2 nnn _ _ (by decide) (by decide)

theorem skipEqImm (x : Nibble) (nn : Byte) : Statement (.skipEqImm x nn) :=
  of_row ⟨"skip-eq-imm", 0x3000, 0xF000⟩ (by simp only [Instr.mnemonic]; decide) fun _ =>
    hits_layoutXNN _ 0x3 x nn 0 _ _ (by rw [show nn &&& 0 = 0 from BitVec.and_zero]; decide) (by decide)

theorem skipNeImm (x : Nibble) (nn : Byte) : Statement (.skipNeImm x nn) :=
  of_row ⟨"skip-ne-imm", 0x4000, 0xF000⟩ (by simp only [Instr.mnemonic]; decide) fun _ =>
    hits_layoutXNN _ 0x4 x nn 0 _ _ (by rw [show nn &&& 0 = 0 from BitVec.and_zero]; decide) (by decide)

theorem skipEqReg (x y : Nibble) : Statement (.skipEqReg x y) :=
  of_row ⟨"skip-eq-reg", 0x5000, 0xF00F⟩ (by simp only [Instr.mnemonic]; decide) fun _ =>
    hits_layoutXYN _ 0x5 x y 0x0 0xF _ _ (by decide) (by decide)

theorem loadImm (x : Nibble) (nn : Byte) : Statement (.loadImm x nn) :=
  of_row ⟨"load-imm", 0x6000, 0xF000⟩ (by simp only [Instr.mnemonic]; decide) fun _ =>
    hits_layoutXNN _ 0x6 x nn 0 _ _ (by rw [show nn &&& 0 = 0 from BitVec.and_zero]; decide) (by decide)

theorem addImm (x : Nibble) (nn : Byte) : Statement (.addImm x nn) :=
  of_row ⟨"add-imm", 0x7000, 0xF000⟩ (by simp only [Instr.mnemonic]; decide) fun _ =>
    hits_layoutXNN _ 0x7 x nn 0 _ _ (by rw [show nn &&& 0 = 0 from BitVec.and_zero]; decide) (by decide)

theorem loadReg (x y : Nibble) : Statement (.loadReg x y) :=
  of_row ⟨"load-reg", 0x8000, 0xF00F⟩ (by simp only [Instr.mnemonic]; decide) fun _ =>
    hits_layoutXYN _ 0x8 x y 0x0 0xF _ _ (by decide) (by decide)

theorem orReg (x y : Nibble) : Statement (.orReg x y) :=
  of_row ⟨"or", 0x8001, 0xF00F⟩ (by simp only [Instr.mnemonic]; decide) fun _ =>
    hits_layoutXYN _ 0x8 x y 0x1 0xF _ _ (by decide) (by decide)

theorem andReg (x y : Nibble) : Statement (.andReg x y) :=
  of_row ⟨"and", 0x8002, 0xF00F⟩ (by simp only [Instr.mnemonic]; decide) fun _ =>
    hits_layoutXYN _ 0x8 x y 0x2 0xF _ _ (by decide) (by decide)

theorem xorReg (x y : Nibble) : Statement (.xorReg x y) :=
  of_row ⟨"xor", 0x8003, 0xF00F⟩ (by simp only [Instr.mnemonic]; decide) fun _ =>
    hits_layoutXYN _ 0x8 x y 0x3 0xF _ _ (by decide) (by decide)

theorem addWithCarry (x y : Nibble) : Statement (.addWithCarry x y) :=
  of_row ⟨"add-with-carry", 0x8004, 0xF00F⟩ (by simp only [Instr.mnemonic]; decide) fun _ =>
    hits_layoutXYN _ 0x8 x y 0x4 0xF _ _ (by decide) (by decide)

theorem subWithBorrow (x y : Nibble) : Statement (.subWithBorrow x y) :=
  of_row ⟨"sub-with-borrow", 0x8005, 0xF00F⟩ (by simp only [Instr.mnemonic]; decide) fun _ =>
    hits_layoutXYN _ 0x8 x y 0x5 0xF _ _ (by decide) (by decide)

theorem shiftRight (x y : Nibble) : Statement (.shiftRight x y) :=
  of_row ⟨"shift-right", 0x8006, 0xF00F⟩ (by simp only [Instr.mnemonic]; decide) fun _ =>
    hits_layoutXYN _ 0x8 x y 0x6 0xF _ _ (by decide) (by decide)

theorem subReverseWithBorrow (x y : Nibble) : Statement (.subReverseWithBorrow x y) :=
  of_row ⟨"sub-reverse-with-borrow", 0x8007, 0xF00F⟩ (by simp only [Instr.mnemonic]; decide) fun _ =>
    hits_layoutXYN _ 0x8 x y 0x7 0xF _ _ (by decide) (by decide)

theorem shiftLeft (x y : Nibble) : Statement (.shiftLeft x y) :=
  of_row ⟨"shift-left", 0x800E, 0xF00F⟩ (by simp only [Instr.mnemonic]; decide) fun _ =>
    hits_layoutXYN _ 0x8 x y 0xE 0xF _ _ (by decide) (by decide)

theorem skipNeReg (x y n : Nibble) : Statement (.skipNeReg x y n) :=
  of_row ⟨"skip-ne-reg", 0x9000, 0xF00F⟩ (by simp only [Instr.mnemonic]; decide) fun hwf => by
    obtain rfl : n = 0 := by simpa [Instr.wf] using hwf
    exact hits_layoutXYN _ 0x9 x y 0 0xF _ _ (by decide) (by decide)

theorem loadI (nnn : Addr) : Statement (.loadI nnn) :=
  of_row ⟨"load-I", 0xA000, 0xF000⟩ (by simp only [Instr.mnemonic]; decide) fun _ =>
    hits_layoutNNN _ 0xA nnn _ _ (by decide) (by decide)

theorem jumpOffset (nnn : Addr) : Statement (.jumpOffset nnn) :=
  of_row ⟨"jump-offset", 0xB000, 0xF000⟩ (by simp only [Instr.mnemonic]; decide) fun _ =>
    hits_layoutNNN _ 0xB nnn _ _ (by decide) (by decide)

theorem rand (x : Nibble) (nn : Byte) : Statement (.rand x nn) :=
  of_row ⟨"rand", 0xC000, 0xF000⟩ (by simp only [Instr.mnemonic]; decide) fun _ =>
    hits_layoutXNN _ 0xC x nn 0 _ _ (by rw [show nn &&& 0 = 0 from BitVec.and_zero]; decide) (by decide)

theorem draw (x y n : Nibble) : Statement (.draw x y n) :=
  of_row ⟨"draw", 0xD000, 0xF000⟩ (by simp only [Instr.mnemonic]; decide) fun _ =>
    hits_layoutXYN _ 0xD x y n 0 _ _ (by rw [show n &&& 0 = 0 from BitVec.and_zero]; decide) (by decide)

theorem skipIfKey (x : Nibble) : Statement (.skipIfKey x) :=
  of_row ⟨"skip-if-key", 0xE09E, 0xF0FF⟩ (by simp only [Instr.mnemonic]; decide) fun _ =>
    hits_layoutXNN _ 0xE x 0x9E 0xFF _ _ (by decide) (by decide)

theorem skipIfNotKey (x : Nibble) : Statement (.skipIfNotKey x) :=
  of_row ⟨"skip-if-not-key", 0xE0A1, 0xF0FF⟩ (by simp only [Instr.mnemonic]; decide) fun _ =>
    hits_layoutXNN _ 0xE x 0xA1 0xFF _ _ (by decide) (by decide)

theorem readDT (x : Nibble) : Statement (.readDT x) :=
  of_row ⟨"read-DT", 0xF007, 0xF0FF⟩ (by simp only [Instr.mnemonic]; decide) fun _ =>
    hits_layoutXNN _ 0xF x 0x07 0xFF _ _ (by decide) (by decide)

theorem waitKey (x : Nibble) : Statement (.waitKey x) :=
  of_row ⟨"wait-key", 0xF00A, 0xF0FF⟩ (by simp only [Instr.mnemonic]; decide) fun _ =>
    hits_layoutXNN _ 0xF x 0x0A 0xFF _ _ (by decide) (by decide)

theorem writeDT (x : Nibble) : Statement (.writeDT x) :=
  of_row ⟨"write-DT", 0xF015, 0xF0FF⟩ (by simp only [Instr.mnemonic]; decide) fun _ =>
    hits_layoutXNN _ 0xF x 0x15 0xFF _ _ (by decide) (by decide)

theorem writeST (x : Nibble) : Statement (.writeST x) :=
  of_row ⟨"write-ST", 0xF018, 0xF0FF⟩ (by simp only [Instr.mnemonic]; decide) fun _ =>
    hits_layoutXNN _ 0xF x 0x18 0xFF _ _ (by decide) (by decide)

theorem addI (x : Nibble) : Statement (.addI x) :=
  of_row ⟨"add-I", 0xF01E, 0xF0FF⟩ (by simp only [Instr.mnemonic]; decide) fun _ =>
    hits_layoutXNN _ 0xF x 0x1E 0xFF _ _ (by decide) (by decide)

theorem fontAddr (x : Nibble) : Statement (.fontAddr x) :=
  of_row ⟨"font-addr", 0xF029, 0xF0FF⟩ (by simp only [Instr.mnemonic]; decide) fun _ =>
    hits_layoutXNN _ 0xF x 0x29 0xFF _ _ (by decide) (by decide)

theorem bcd (x : Nibble) : Statement (.bcd x) :=
  of_row ⟨"bcd", 0xF033, 0xF0FF⟩ (by simp only [Instr.mnemonic]; decide) fun _ =>
    hits_layoutXNN _ 0xF x 0x33 0xFF _ _ (by decide) (by decide)

theorem storeRegs (x : Nibble) : Statement (.storeRegs x) :=
  of_row ⟨"store-regs", 0xF055, 0xF0FF⟩ (by simp only [Instr.mnemonic]; decide) fun _ =>
    hits_layoutXNN _ 0xF x 0x55 0xFF _ _ (by decide) (by decide)

theorem loadRegs (x : Nibble) : Statement (.loadRegs x) :=
  of_row ⟨"load-regs", 0xF065, 0xF0FF⟩ (by simp only [Instr.mnemonic]; decide) fun _ =>
    hits_layoutXNN _ 0xF x 0x65 0xFF _ _ (by decide) (by decide)

/-- No row bears the no-op's mnemonic: it is the table's fallback (R95). -/
theorem nop (w : Word) : Statement (.nop w) := by
  intro _ r hr hm
  have : ∀ r ∈ opcodeRows true, r.mnemonic ≠ "defined_no-op" := by decide
  exact absurd hm (this r hr)

end Sys2Proof.Laws.EncodeHitsRow
end

