-- ==== Sys2Proof/Laws/Unwritten.lean ====
section
/-! SUPPORT. What `trackedOp` can do, and the reset contents that `RESET_FILL` gives. -/

namespace Sys2Proof.Machine

@[simp] theorem fillByte_zero (n k : Nat) : fillByte .zero n k = 0 := rfl

@[simp] theorem fillWord_zero (n k : Nat) : fillWord .zero n k = 0 := rfl

/-- Every element is among those that `initialize` leaves unwritten under `RESET_FILL = unwritten`. -/
theorem mem_allElements (e : FillElement) : e ∈ allElements := by
  have hv : ∀ x : Nibble, FillElement.v x ∈ allElements := by decide
  have hs : ∀ k : Nibble, FillElement.stack k ∈ allElements := by decide
  cases e with
  | v x => exact hv x
  | stack k => exact hs k
  | i => decide
  | dt => decide
  | st => decide

/-- A tracked operation that goes on read no unwritten element and made the machine's own transition. -/
theorem trackedOp_next {op : HostOp} {t t' : Tracked} (h : trackedOp op t = .next t') :
    (∀ e ∈ opReads op t.machine, e ∉ t.unwritten) ∧ applyOp op t.machine = .next t'.machine ∧
      t'.unwritten = stillUnwritten op t.machine t.unwritten := by
  unfold trackedOp at h
  split at h
  · cases h
  · rename_i hf
    simp only [List.find?_eq_none, List.contains_iff_mem] at hf
    split at h
    · rename_i hs
      injection h with h
      subst h
      exact ⟨hf, hs, rfl⟩
    · cases h
    · cases h

/-- A tracked operation that reads no unwritten element is the machine's own transition. -/
theorem trackedOp_of_reads {op : HostOp} {t : Tracked} {s : State}
    (hr : ∀ e ∈ opReads op t.machine, e ∉ t.unwritten) (h : applyOp op t.machine = .next s) :
    trackedOp op t = .next { machine := s, unwritten := stillUnwritten op t.machine t.unwritten } := by
  have hf : ((opReads op t.machine).find? fun e => t.unwritten.contains e) = none := by
    simpa only [List.find?_eq_none, List.contains_iff_mem] using hr
  unfold trackedOp
  rw [hf]
  simp only [h]

end Sys2Proof.Machine
end

