-- ==== Sys2Proof/Tests/Slice0.lean ====
section
/-! SUPPORT. Tests. Expected values are those of spec/95_test_vectors.md (named L1-… and L2-…), of the examples in the
instruction rules, or counted by hand from the rule named. Then, for each statement with hypotheses, a witness that meets
them. -/

namespace Sys2Proof.Tests

open Sys2Proof Sys2Proof.Machine

/-- The state an outcome gives, if it gives one. -/
def nextOf (o : Result) : Option State :=
  match o with
  | .next t => some t
  | .fault _ => none
  | .refused _ => none

/-- The state after the one step that runs the word `w`. -/
def after (w : Nat) (s : State) : Option State := nextOf (step (s.withFetchWord 16 w))

/-- Reset, with two registers written. -/
def regs2 (x : Nibble) (a : Byte) (y : Nibble) (b : Byte) : State := (State.reset.setReg x a).setReg y b

/-- The same under `ALU_OPERAND_READ = sequential`. -/
def sequential (s : State) : State := { s with params := { s.params with operandRead := .sequential } }

/-- The pixels of columns `cols` in row `py`. -/
def rowPixels (py : Fin 32) (cols : List (Fin 64)) (s : State) : List Bool := cols.map (pixelAt s.fb py)

/-! ### Well-formedness -/

/-- Each check of `Instr.wf` refuses an ill-formed term: a listed word as a no-op (R95), a low nibble under strict (R97). -/
theorem test_wf_refuses :
    (Instr.nop 0x00E0).wf true = false ∧ (Instr.nop 0xF165).wf false = false ∧ (Instr.skipNeReg 1 2 1).wf true = false ∧
    (Instr.nop 0x9121).wf false = false := by decide

theorem test_wf_accepts :
    (Instr.nop 0x0123).wf true = true ∧ (Instr.skipNeReg 1 2 0).wf true = true ∧
    (Instr.skipNeReg 1 2 1).wf false = true ∧ (Instr.nop 0x9121).wf true = true := by decide

/-! ### Decoding, words written out from R90 and R93 as family, x, y, n -/

theorem test_decode_family0 :
    decodeWord true 0b0000_0000_1110_0000#16 = .clear ∧ decodeWord true 0b0000_0000_1110_1110#16 = .ret ∧
    decodeWord true 0b0000_0000_1110_0001#16 = .nop 0x00E1 ∧ decodeWord true 0b0000_0001_0010_0011#16 = .nop 0x0123 := by
  decide

theorem test_decode_addresses :
    decodeWord true 0b0001_1010_1011_1100#16 = .jump 0xABC ∧ decodeWord true 0b0010_0010_0001_0000#16 = .call 0x210 ∧
    decodeWord true 0b1010_0011_0000_0001#16 = .loadI 0x301 ∧
    decodeWord true 0b1011_1111_1111_1110#16 = .jumpOffset 0xFFE := by decide

theorem test_decode_skips :
    decodeWord true 0b0011_0011_0100_0010#16 = .skipEqImm 0x3 0x42 ∧
    decodeWord true 0b0100_0011_0100_0010#16 = .skipNeImm 0x3 0x42 ∧
    decodeWord true 0b0101_0001_0010_0000#16 = .skipEqReg 0x1 0x2 ∧
    decodeWord true 0b0101_0001_0010_0001#16 = .nop 0x5121 ∧
    decodeWord true 0b1001_0001_0010_0000#16 = .skipNeReg 0x1 0x2 0x0 ∧
    decodeWord true 0b1001_0001_0010_0001#16 = .nop 0x9121 ∧
    decodeWord false 0b1001_0001_0010_0001#16 = .skipNeReg 0x1 0x2 0x1 := by decide

theorem test_decode_immediates :
    decodeWord true 0b0110_1010_0000_1111#16 = .loadImm 0xA 0x0F ∧
    decodeWord true 0b0111_0001_1000_0000#16 = .addImm 0x1 0x80 ∧
    decodeWord true 0b1100_0011_0000_1111#16 = .rand 0x3 0x0F ∧
    decodeWord true 0b1101_0001_0010_1111#16 = .draw 0x1 0x2 0xF := by decide

theorem test_decode_alu :
    decodeWord true 0b1000_0011_1111_0000#16 = .loadReg 0x3 0xF ∧ decodeWord true 0b1000_0011_1111_0001#16 = .orReg 0x3 0xF ∧
    decodeWord true 0b1000_0011_1111_0010#16 = .andReg 0x3 0xF ∧ decodeWord true 0b1000_0011_1111_0011#16 = .xorReg 0x3 0xF ∧
    decodeWord true 0b1000_0011_1111_0100#16 = .addWithCarry 0x3 0xF ∧
    decodeWord true 0b1000_0011_1111_0101#16 = .subWithBorrow 0x3 0xF ∧
    decodeWord true 0b1000_0011_1111_0110#16 = .shiftRight 0x3 0xF ∧
    decodeWord true 0b1000_0011_1111_0111#16 = .subReverseWithBorrow 0x3 0xF ∧
    decodeWord true 0b1000_0011_1111_1110#16 = .shiftLeft 0x3 0xF ∧
    decodeWord true 0b1000_0011_1111_1000#16 = .nop 0x83F8 ∧ decodeWord true 0b1000_0011_1111_1111#16 = .nop 0x83FF := by
  decide

theorem test_decode_keys :
    decodeWord true 0b1110_0101_1001_1110#16 = .skipIfKey 0x5 ∧ decodeWord true 0b1110_0101_1010_0001#16 = .skipIfNotKey 0x5 ∧
    decodeWord true 0b1110_0101_1001_1111#16 = .nop 0xE59F := by decide

theorem test_decode_misc :
    decodeWord true 0b1111_1010_0000_0111#16 = .readDT 0xA ∧ decodeWord true 0b1111_1010_0000_1010#16 = .waitKey 0xA ∧
    decodeWord true 0b1111_1010_0001_0101#16 = .writeDT 0xA ∧ decodeWord true 0b1111_1010_0001_1000#16 = .writeST 0xA ∧
    decodeWord true 0b1111_1010_0001_1110#16 = .addI 0xA ∧ decodeWord true 0b1111_1010_0010_1001#16 = .fontAddr 0xA ∧
    decodeWord true 0b1111_1010_0011_0011#16 = .bcd 0xA ∧ decodeWord true 0b1111_1010_0101_0101#16 = .storeRegs 0xA ∧
    decodeWord true 0b1111_1010_0110_0101#16 = .loadRegs 0xA ∧ decodeWord true 0b1111_0000_0000_0000#16 = .nop 0xF000 := by
  decide

/-- The bytes are big-endian (R63), the rest of the list is given back, and a list too short for a word is no instruction. -/
theorem test_decode_bytes :
    decodeBytes true [0x1A, 0xBC, 0x55] = .ok (.jump 0xABC, [0x55]) ∧ decodeBytes true [0x1A] = .error .tooShort ∧
    decodeBytes true [] = .error .tooShort ∧ decodeTableWord 16 0x1ABC = some (.jump 0xABC) ∧
    decodeTableWord 16 0x0000 = some (.nop 0x0000) := ⟨rfl, rfl, rfl, rfl, rfl⟩

/-! ### Display (L1-3, L2-F1) -/

theorem test_clear : (after 0x00E0 (State.reset.setFb (setPixelAt clearedFb 3 5 true))).map
    (fun t => (pixelAt t.fb 3 5, t.drawReq, t.pc)) = some (false, true, 0x202) := by decide

/-- F1-1: a draw that wraps at both edges; its second row is the byte 0x81. -/
theorem test_draw_wraps : (after 0xD012 { regs2 0 62 1 31 with i := 0x300, mem := [(0x300, 0xFF), (0x301, 0x81)] }).map
    (fun t => (rowPixels 31 [61, 62, 63, 0, 5, 6] t, rowPixels 0 [61, 62, 63, 5, 6] t, t.reg 0xF, t.diag)) =
    some ([false, true, true, true, true, false], [false, true, false, true, false], 0, 0b10_0000_0000#10) := by decide

/-- F1-6: a partial collision. -/
theorem test_draw_collides : (after 0xD011 (State.reset.setFb (setPixelAt clearedFb 0 0 true))).map
    (fun t => (rowPixels 0 [0, 1, 2, 3, 4] t, t.reg 0xF, t.drawReq, t.diag)) =
    some ([false, true, true, true, false], 1, true, 0) := by decide

/-! ### Control transfer (L2-F2) -/

theorem test_return : (after 0x00EE { State.reset with sp := 14, depth := 1, stack := State.reset.stack.set 15 0x206 }).map
    (fun t => (t.sp, t.pc, t.depth, t.diag)) = some (15, 0x206, 0, 0) := by decide

/-- F2-8: underflow. -/
theorem test_return_underflow : (after 0x00EE State.reset).map (fun t => (t.sp, t.pc, t.depth, t.diag)) =
    some (0, 0, 0, 0b1_0000#10) := by decide

theorem test_jump : (after 0x1ABC State.reset).map (·.pc) = some 0xABC := by decide

theorem test_call : (after 0x2210 { State.reset with pc := 0x204 }).map (fun t => (t.stack[15], t.sp, t.pc, t.depth)) =
    some (0x206, 14, 0x210, 1) := by decide

/-- F2-7: the seventeenth push overwrites STACK[15]. -/
theorem test_call_overflow : (after 0x2200 { State.reset with depth := 16 }).map
    (fun t => (t.stack[15], t.sp, t.depth, t.diag)) = some (0x202, 14, 16, 0b1000#10) := by decide

theorem test_jump_offset : (after 0xBFFF (State.reset.setReg 0 0xFF)).map (·.pc) = some 0x10FE := by decide

/-! ### Skips (L2-F3) -/

theorem test_skip_eq_imm : (after 0x3342 (State.reset.setReg 3 0x42)).map (·.pc) = some 0x204 ∧
    (after 0x3342 (State.reset.setReg 3 0x41)).map (·.pc) = some 0x202 := by decide

theorem test_skip_ne_imm : (after 0x4342 (State.reset.setReg 3 0x41)).map (·.pc) = some 0x204 ∧
    (after 0x4342 (State.reset.setReg 3 0x42)).map (·.pc) = some 0x202 := by decide

theorem test_skip_eq_reg : (after 0x5120 (regs2 1 7 2 7)).map (·.pc) = some 0x204 ∧
    (after 0x5120 (regs2 1 7 2 8)).map (·.pc) = some 0x202 := by decide

theorem test_skip_ne_reg : (after 0x9120 (regs2 1 7 2 8)).map (fun t => (t.pc, t.diag)) = some (0x204, 0) ∧
    (after 0x9550 State.reset).map (·.pc) = some 0x202 := by decide

/-- 9xyN, N ≠ 0, under both values of SKIP9_STRICT. -/
theorem test_skip9_strict : (after 0x9121 (regs2 1 7 2 8)).map (fun t => (t.pc, t.diag)) = some (0x202, 0b1000_0000#10) ∧
    (after 0x9121 { regs2 1 7 2 8 with params := { Params.spec with skip9Strict := false } }).map (fun t => (t.pc, t.diag)) =
      some (0x204, 0b1000_0000#10) := by decide

/-! ### Loads and ALU (L1-1, L1-2, L2-F4) -/

theorem test_load_imm : (after 0x6FAA State.reset).map (·.reg 0xF) = some 0xAA := by decide

theorem test_add_imm : (after 0x7001 (regs2 0 0xFF 0xF 0)).map (fun t => (t.reg 0, t.reg 0xF)) = some (0, 0) := by decide

theorem test_load_reg : (after 0x8010 (regs2 0 0 1 0x33)).map (fun t => (t.reg 0, t.reg 1)) = some (0x33, 0x33) := by decide

theorem test_or : (after 0x8011 ((regs2 0 0xF0 1 0x0F).setReg 0xF 7)).map (fun t => (t.reg 0, t.reg 0xF)) = some (0xFF, 7) := by
  decide

theorem test_and : (after 0x8012 (regs2 0 0xF0 1 0x3C)).map (·.reg 0) = some 0x30 := by decide

theorem test_xor : (after 0x8013 (regs2 0 0xF0 1 0x3C)).map (·.reg 0) = some 0xCC := by decide

theorem test_add_with_carry : (after 0x8014 (regs2 0 0xFF 1 0x01)).map (fun t => (t.reg 0, t.reg 0xF)) = some (0, 1) ∧
    (after 0x8004 (State.reset.setReg 0 0x90)).map (fun t => (t.reg 0, t.reg 0xF)) = some (0x20, 1) := by decide

/-- VF as an operand, under both readings. -/
theorem test_add_with_carry_vf :
    (after 0x80F4 (regs2 0 0x10 0xF 0x05)).map (fun t => (t.reg 0, t.reg 0xF, t.diag)) = some (0x15, 0, 0b1_0000_0000#10) ∧
    (after 0x80F4 (sequential (regs2 0 0x10 0xF 0x05))).map (fun t => (t.reg 0, t.reg 0xF)) = some (0x10, 0) := by decide

theorem test_sub_with_borrow : (after 0x8015 (regs2 0 0x05 1 0x06)).map (fun t => (t.reg 0, t.reg 0xF)) = some (0xFF, 0) ∧
    (after 0x8015 (regs2 0 0x44 1 0x44)).map (fun t => (t.reg 0, t.reg 0xF)) = some (0, 0) := by decide

theorem test_sub_reverse : (after 0x8017 (regs2 0 0x01 1 0x10)).map (fun t => (t.reg 0, t.reg 0xF)) = some (0x0F, 1) ∧
    (after 0x8F15 (sequential (regs2 0xF 0x10 1 0x01))).map (·.reg 0xF) = some 0 := by decide

theorem test_shift_right : (after 0x8236 (regs2 2 0x81 3 0x5A)).map (fun t => (t.reg 2, t.reg 0xF, t.reg 3)) =
    some (0x40, 1, 0x5A) ∧ (after 0x8F06 (State.reset.setReg 0xF 3)).map (·.reg 0xF) = some 1 := by decide

theorem test_shift_left : (after 0x823E (regs2 2 0x80 3 0x5A)).map (fun t => (t.reg 2, t.reg 0xF, t.reg 3)) =
    some (0, 1, 0x5A) ∧ (after 0x8F0E (sequential (State.reset.setReg 0xF 0x41))).map (·.reg 0xF) = some 0 := by decide

/-- The draw 0xA7 masked (L2-F4), and that the draw is the run's next free value. -/
theorem test_rand : (randWith 0xA7 3 0x0F State.reset).reg 3 = 0x07 ∧ (randWith 0xA7 3 0xFF State.reset).reg 3 = 0xA7 := by
  decide

theorem test_rand_draws (s : State) :
    exec (.rand 3 0x0F) s = .next (randWith (Config.freeByte s.draws) 3 0x0F { s with draws := s.draws + 1 }) := rfl

/-! ### Index and memory (L2-F5) -/

theorem test_load_i : (after 0xA301 State.reset).map (·.i) = some 0x301 := by decide

theorem test_add_i : (after 0xF01E { State.reset.setReg 0 1 with i := 0xFFF }).map (fun t => (t.i, t.reg 0xF)) =
    some (0x1000, 0) ∧ (after 0xF01E { State.reset.setReg 0 1 with i := 0xFFFF }).map (·.i) = some 0 := by decide

theorem test_font_addr : (after 0xF129 (State.reset.setReg 1 0x0A)).map (·.i) = some 0x32 ∧
    (after 0xF029 (State.reset.setReg 0 0xFF)).map (fun t => (t.i, t.diag)) = some (0x4FB, 0b100_0000#10) := by decide

theorem test_font_addr_low_nibble :
    (after 0xF029 { State.reset.setReg 0 0x10 with params := { Params.spec with fontLowNibble := true } }).map (·.i) =
      some 0 := by decide

theorem test_bcd : (after 0xFA33 { State.reset.setReg 0xA 0x7B with i := 0x300 }).map
    (fun t => ([t.byteAt 0x300, t.byteAt 0x301, t.byteAt 0x302], t.i)) = some ([1, 2, 3], 0x300) := by decide

/-- The third digit lands at 0x000, over the font. -/
theorem test_bcd_wraps : (after 0xF033 { State.reset.setReg 0 0xFF with i := 0xFFE }).map
    (fun t => ([t.byteAt 0xFFE, t.byteAt 0xFFF, t.byteAt 0], t.diag)) = some ([2, 5, 5], 0b100#10) := by decide

theorem test_store_regs : (after 0xF155 { regs2 0 0x12 1 0x08 with i := 0x208 }).map
    (fun t => ([t.byteAt 0x207, t.byteAt 0x208, t.byteAt 0x209, t.byteAt 0x20A], t.i)) =
    some ([0, 0x12, 0x08, 0], 0x208) := by decide

theorem test_load_regs : (after 0xF265 { State.reset with i := 0x300, mem := [(0x300, 1), (0x301, 2), (0x302, 3), (0x303, 4)] }).map
    (fun t => ([t.reg 0, t.reg 1, t.reg 2, t.reg 3], t.i)) = some ([1, 2, 3, 0], 0x300) := by decide

/-! ### Keypad, wait, timers (L2-F6, L1-8, L1-9) -/

theorem test_skip_if_key : (after 0xE09E ((State.reset.setReg 0 5).setKeyAt 5 true)).map (·.pc) = some 0x204 ∧
    (after 0xE09E ((State.reset.setReg 0 0x15).setKeyAt 5 true)).map (fun t => (t.pc, t.diag)) =
      some (0x204, 0b10_0000#10) := by decide

theorem test_skip_if_not_key : (after 0xE0A1 (State.reset.setReg 0 5)).map (·.pc) = some 0x204 ∧
    (after 0xE0A1 ((State.reset.setReg 0 5).setKeyAt 5 true)).map (·.pc) = some 0x202 := by decide

theorem test_read_dt : (after 0xF307 { State.reset with dt := 0x3C }).map (·.reg 3) = some 0x3C := by decide

theorem test_wait_key : (after 0xF50A State.reset).map (fun t => (t.wait, t.pc, t.reg 5)) = some (some 5, 0x202, 0) := by decide

theorem test_waiting_step : step { State.reset with wait := some 0 } = .next { State.reset with wait := some 0 } := rfl

theorem test_write_dt : (after 0xF115 (State.reset.setReg 1 3)).map (fun t => (t.dt, t.st)) = some (3, 0) := by decide

theorem test_write_st : (after 0xF018 { State.reset with st := 1 }).map (fun t => (t.st, t.beepReq)) = some (0, false) := by
  decide

theorem test_nop : (after 0x0123 { State.reset.setReg 0 0x11 with i := 0x345 }).map
    (fun t => (t.pc, t.diag, t.reg 0, t.i)) = some (0x202, 0b1000_0000#10, 0x11, 0x345) := by decide

theorem test_set_key : (setKey 0 true { State.reset.setReg 0 0x55 with wait := some 0 }).reg 0 = 0 ∧
    (setKey 0xC true { State.reset with wait := some 0xF }).reg 0xF = 0x0C ∧
    (setKey 0xA false { State.reset with wait := some 3 }).wait = some 3 := by decide

theorem test_tick : (fun t => (t.dt, t.st, t.beepReq)) (tickTimers { State.reset with dt := 4, st := 1 }) = (3, 0, true) ∧
    (fun t => (t.dt, t.st, t.beepReq)) (tickTimers State.reset) = (0, 0, false) := by decide

/-! ### Fetch and reset (L2-F2, L2-F3, L2-F7) -/

/-- F2-6: an odd PC. -/
theorem test_fetch_odd : (nextOf (step { State.reset with
      pc := 0x201, mem := [(0x200, 0x12), (0x201, 0x01), (0x202, 0x60), (0x203, 0x12)] })).map (fun t => (t.pc, t.diag)) =
    some (0x203, 0b1000_0001#10) := by decide

/-- F3-1, second step: the fetch at 0x1002 reads the font bytes 90 90. -/
theorem test_fetch_past_memory : fetchWord { State.reset with pc := 0x1002 } = 0x9090 ∧
    (nextOf (step { State.reset with pc := 0x1002 })).map (fun t => (t.pc, t.diag)) = some (0x1004, 0b10#10) := by decide

/-- F7-1 and F7-2. -/
theorem test_initialize :
    (fun t => ([t.byteAt 0, t.byteAt 1, t.byteAt 0x4F, t.byteAt 0x50, t.byteAt 0x200, t.byteAt 0x201], t.pc, t.sp))
      (initializeOp [0x60, 0x0A] .standard State.reset) = ([0xF0, 0x90, 0x80, 0, 0x60, 0x0A], 0x200, 15) ∧
    (fun t => (t.byteAt 0x660, t.pc)) (initializeOp [0x60] .alternate State.reset) = (0x60, 0x660) := by decide +kernel

/-- A FONT_BASE other than 0x000 (R222): glyph 1 stands five bytes above it. -/
theorem test_font_base : (after 0xF129 { State.reset.setReg 1 1 with params := { Params.spec with fontBase := 0x050 } }).map (·.i) =
    some 0x55 := by decide

/-- Every byte of the font table of R353 is written where R353 puts it: glyphs 1, 8 and F. -/
theorem test_font : (List.range 5).map (fun k => unlisted (5 + k)) = [0x20, 0x60, 0x20, 0x20, 0x70] ∧
    (List.range 5).map (fun k => unlisted (40 + k)) = [0xF0, 0x90, 0xF0, 0x90, 0xF0] ∧
    (List.range 5).map (fun k => unlisted (75 + k)) = [0xF0, 0x80, 0xF0, 0x80, 0x80] := by decide

/-- The STRICT machine stops where a DIAG bit is first set, and names it. -/
theorem test_strict : strictStep State.reset = .fault (.diagnostic 0b1000_0000#10) := rfl

/-- Reset under `RESET_FILL = unwritten`, when nothing has written any element. -/
def unwrittenStart (w : Nat) : Tracked :=
  { machine := { State.reset.withFetchWord 16 w with params := { Params.spec with resetFill := .unwritten } }
    unwritten := allElements }

/-- The outcome's fault. -/
def faultOf (o : Host.Outcome Tracked Fault Refusal) : Option Fault :=
  match o with
  | .next _ => none
  | .fault f => some f
  | .refused _ => none

/-- R42: 7001 reads V0, 00EE reads STACK[0], a tick reads DT, before anything wrote them; 6001 reads none, and writes V0. -/
theorem test_unwritten_read :
    faultOf (trackedOp .step (unwrittenStart 0x7001)) = some (.unwrittenRead (.v 0)) ∧
    faultOf (trackedOp .step (unwrittenStart 0x00EE)) = some (.unwrittenRead (.stack 0)) ∧
    faultOf (trackedOp .tickTimers (unwrittenStart 0x0000)) = some (.unwrittenRead .dt) ∧
    faultOf (trackedOp .step (unwrittenStart 0x6001)) = none := by decide

theorem test_unwritten_written :
    stillUnwritten .step (unwrittenStart 0x6001).machine [.v 0, .v 1] = [.v 1] ∧
    stillUnwritten (.setKey 7 true) { State.reset with wait := some 3 } [.v 3, .i] = [.i] := by decide

/-! ### Witnesses: states and operands that meet each statement's hypotheses -/

/-- Memory that lists nothing is canonical, and so is one with a write. -/
theorem reset_wf : Memory.wf State.reset.mem = true ∧ Memory.wf (memSet [] 0x300 0x12) = true := by decide

theorem witness_DecodeOfEncodeIsIdentity :
    (Instr.draw 0xF 0 0xF).wf true = true ∧ (Instr.nop 0x0000).wf true = true ∧ (Instr.nop 0xFFFF).wf false = true ∧
    (Instr.skipNeReg 0xF 0 0xF).wf false = true ∧ (Instr.skipNeReg 0xF 0 0).wf true = true := by decide

theorem witness_DecodeFollowsOpcodeTable :
    (∃ r ∈ opcodeRows true, r.hits 0x1FFF = true) ∧ (∃ r ∈ opcodeRows false, r.hits 0x9121 = true) ∧
    listed true 0x9121 = false := by decide

theorem witness_StepRunsOneDecodedInstruction :
    ({ State.reset with wait := some 0 } : State).wait = some 0 ∧ State.reset.wait = none ∧
    decodeBytes true [State.reset.byteAt 0x200, State.reset.byteAt 0x201] = .ok (.nop 0, []) ∧
    (Instr.nop 0).wf true = true := ⟨rfl, rfl, rfl, by decide⟩

/-- PC at each boundary of the diagnostics of a fetch. -/
theorem witness_FetchReadsTwoBytesAndAdvancesPc :
    pcOutOfRange { State.reset with pc := 0x1FF } = true ∧ pcOutOfRange State.reset = false ∧
    pcOutOfRange { State.reset with pc := 0xFFE } = false ∧ pcOutOfRange { State.reset with pc := 0xFFF } = true ∧
    (fetch { State.reset with pc := 0xFFFF }).pc = 1 := by decide

/-- A pixel that is plotted (bit 7 of 0xF0) and a state in which it is 1. -/
theorem witness_DrawXorsTheSprite :
    Claim.Plots State.reset 0 1 1 0 0 ∧
    pixelAt (State.reset.setFb (setPixelAt clearedFb 0 0 true)).fb 0 0 = true ∧
    Claim.column (State.reset.setReg 0 63) 0 0 < 64 ∧ Claim.column (State.reset.setReg 0 63) 0 1 ≥ 64 ∧
    Claim.row (State.reset.setReg 1 31) 1 0 < 32 ∧ Claim.row (State.reset.setReg 1 31) 1 1 ≥ 32 :=
  ⟨⟨0, by decide, 0, by decide, by decide, by decide, by decide, Or.inl rfl⟩, by decide, by decide, by decide, by decide,
    by decide⟩

/-- The same pixel under clip, and one past the edge that clip leaves out and wrap plots. -/
theorem witness_DrawXorsTheSprite_clip :
    Claim.Plots { State.reset with params := { Params.spec with drawEdge := .clip } } 0 1 1 0 0 ∧
    (after 0xD011 { State.reset.setReg 0 63 with params := { Params.spec with drawEdge := .clip } }).map
      (fun t => (rowPixels 0 [63, 0, 1, 2] t, t.diag)) = some ([true, false, false, false], 0b10_0000_0000#10) ∧
    (after 0xD011 (State.reset.setReg 0 63)).map (fun t => (rowPixels 0 [63, 0, 1, 2, 3] t, t.diag)) =
      some ([true, true, true, true, false], 0b10_0000_0000#10) :=
  ⟨⟨0, by decide, 0, by decide, by decide, by decide, by decide, Or.inr (by decide)⟩, by decide, by decide⟩

theorem witness_DrawTwiceRestoresTheFramebuffer :
    (0 : Nibble) ≠ 0xF ∧ (1 : Nibble) ≠ 0xF ∧ Claim.Plots State.reset 0 1 1 0 0 ∧
    (nextOf (exec (.draw 0 1 1) State.reset)).map (·.reg 0xF) = some 0 :=
  ⟨by decide, by decide, witness_DrawXorsTheSprite.1, by decide⟩

/-- SP at both ends, and DEPTH full. -/
theorem witness_CallPushesPc :
    State.reset.sp.toNat < 16 ∧ ({ State.reset with sp := 0 } : State).sp.toNat < 16 ∧
    ({ State.reset with depth := 16 } : State).depth = 16 ∧
    (nextOf (exec (.call 0x210) { State.reset with sp := 0 })).map (·.sp) = some 15 := by decide

theorem witness_CallThenReturnRestoresPc :
    State.reset.sp.toNat < 16 ∧ (nextOf (exec (.call 0x210) State.reset)).map (fun t => (t.stack[15], t.sp)) =
      some (0x200, 14) := by decide

theorem witness_NestedPushesPopInReverse :
    ([1, 2, 3] : List Word).length ≤ 16 ∧ State.reset.sp.toNat < 16 ∧ State.reset.depth + 3 ≤ 16 ∧
    Claim.popped 3 (Claim.pushes [1, 2, 3] State.reset) = [3, 2, 1] := by decide

theorem witness_SkipsCompareRegistersAndConstants :
    (1 : Nibble) ≠ 0 ∧ ((regs2 1 7 2 8).reg 1).toNat ≠ ((regs2 1 7 2 8).reg 2).toNat ∧
    ((regs2 1 7 2 7).reg 1).toNat = ((regs2 1 7 2 7).reg 2).toNat := by decide

theorem witness_SkipNeRegFollowsSkip9Strict :
    (1 : Nibble) ≠ 0 ∧ (0xF : Nibble) ≠ 0 ∧ ((regs2 1 7 2 8).reg 1).toNat ≠ ((regs2 1 7 2 8).reg 2).toNat ∧
    ((regs2 1 7 2 7).reg 1).toNat = ((regs2 1 7 2 7).reg 2).toNat := by decide

/-- Both values of ALU_OPERAND_READ. -/
theorem witness_AddWithCarryResult :
    State.reset.params.operandRead = .latched ∧ (sequential State.reset).params.operandRead = .sequential := by decide

theorem witness_SubtractionResults :
    (regs2 0 1 0xF 2).params.operandRead = .latched ∧ (sequential (regs2 0 1 0xF 2)).params.operandRead = .sequential := by
  decide

theorem witness_ShiftResults :
    (regs2 0xF 1 0 2).params.operandRead = .latched ∧ (sequential (regs2 0xF 1 0 2)).params.operandRead = .sequential := by
  decide

theorem witness_RandMasksTheDraw : (3 : Nibble) ≠ 2 := by decide

/-- Both values of FONT_LOW_NIBBLE, and the digit at its boundary. -/
theorem witness_FontAddrPointsAtTheGlyph :
    State.reset.params.fontLowNibble = false ∧
    ({ State.reset with params := { Params.spec with fontLowNibble := true } } : State).params.fontLowNibble = true ∧
    (after 0xF029 (State.reset.setReg 0 0x0F)).map (fun t => (t.i, t.diag)) = some (0x4B, 0) ∧
    (after 0xF029 (State.reset.setReg 0 0x10)).map (fun t => (t.i, t.diag)) = some (0x50, 0b100_0000#10) := by decide

/-- I = 0xFFD stores up to 0xFFF; from I = 0xFFE on an address is reduced. -/
theorem witness_BcdWritesThreeDigits :
    Memory.wf State.reset.mem = true ∧
    (after 0xF033 { State.reset with i := 0xFFD }).map (·.diag) = some 0 ∧
    (after 0xF033 { State.reset with i := 0xFFE }).map (·.diag) = some 0b100#10 := by decide

theorem witness_StoreRegsWritesTheRange :
    Memory.wf State.reset.mem = true ∧ (0 : Nibble).toNat ≤ (3 : Nibble).toNat ∧
    (∀ k ≤ (3 : Nibble).toNat, 0xFFD ≠ (0xFFE + k) % 0x1000) ∧
    (after 0xF155 { State.reset with i := 0xFFE }).map (·.diag) = some 0 ∧
    (after 0xF255 { State.reset with i := 0xFFE }).map (·.diag) = some 0b100#10 := by decide

theorem witness_LoadRegsReadsTheRange :
    (2 : Nibble).toNat ≤ (2 : Nibble).toNat ∧ ¬(3 : Nibble).toNat ≤ (2 : Nibble).toNat ∧
    (after 0xF165 { State.reset with i := 0xFFE }).map (·.diag) = some 0 ∧
    (after 0xF265 { State.reset with i := 0xFFE }).map (·.diag) = some 0b100#10 := by decide

/-- Vx at the keypad's boundary, a key down and a key up. -/
theorem witness_KeySkipsSampleTheKeypad :
    (keyDown 0xF (State.reset.setKeyAt 0xF true)).1 = true ∧ (keyDown 0xF (State.reset.setKeyAt 0xF true)).2.diag = 0 ∧
    (keyDown 0x10 (State.reset.setKeyAt 0 true)).1 = true ∧
    (keyDown 0x10 (State.reset.setKeyAt 0 true)).2.diag = 0b10_0000#10 ∧ (keyDown 0xE (State.reset.setKeyAt 0xF true)).1 = false := by
  decide

theorem witness_TimerTransfers :
    (nextOf (exec (.writeST 0) { State.reset with dt := 5 })).map (·.dt) = some 5 ∧ (∀ z, Instr.writeST 0 ≠ .writeDT z) ∧
    State.reset.dt = 0 := ⟨by decide, (fun _ h => by cases h), rfl⟩

theorem witness_UnlistedWordsOnlyRecordUnlisted :
    listed true 0x0000 = false ∧ listed true 0x00EF = false ∧ listed false 0xFFFF = false := by decide

/-- A tick that raises BEEP_REQ, and both operations that lower it. -/
theorem witness_BeepOnlyOnTheEdge :
    (nextOf (applyOp .tickTimers { State.reset with st := 1 })).map (·.beepReq) = some true ∧
    (nextOf (applyOp .ackBeep { State.reset with beepReq := true })).map (·.beepReq) = some false ∧
    (nextOf (applyOp (.initializeOp [] .standard) { State.reset with beepReq := true })).map (·.beepReq) = some false := by decide

theorem witness_DrawRequestIsSticky :
    (nextOf (applyOp .step (State.reset.withFetchWord 16 0x00E0))).map (·.drawReq) = some true ∧
    (nextOf (applyOp .ackDraw { State.reset with drawReq := true })).map (·.drawReq) = some false ∧
    (decodeWord true (fetchWord (State.reset.withFetchWord 16 0x00E0))).mnemonic = "clear" ∧
    (nextOf (applyOp (.initializeOp [] .standard) { State.reset with drawReq := true })).map (·.drawReq) = some false := by decide

theorem witness_SetKeyResolvesTheWait :
    ({ State.reset with wait := some 0xF } : State).wait = some 0xF ∧ State.reset.wait = none := by decide

theorem witness_InitializeResetsEveryElement :
    State.reset.params.resetFill = .zero ∧ (initializeOp [] .standard { State.reset with dt := 5 }).dt = 0 := by decide

/-- Addresses on both sides of LOAD_ADDR, in both modes, and the last address. -/
theorem witness_InitializeLoadsMemory :
    (fun t => [t.byteAt 0x1FF, t.byteAt 0x200, t.byteAt 0xFFF]) (initializeOp [0x11] .standard State.reset) = [0, 0x11, 0] ∧
    (fun t => [t.byteAt 0x65F, t.byteAt 0x660]) (initializeOp [0x11] .alternate State.reset) = [0, 0x11] := by decide +kernel

theorem witness_WaitLatchStateMachine :
    (nextOf (applyOp .step (State.reset.withFetchWord 16 0xF00A))).map (·.wait) = some (some 0) ∧
    (nextOf (applyOp .step { State.reset with wait := some 3 })).map (·.wait) = some (some 3) ∧
    (nextOf (applyOp (.setKey 7 true) { State.reset with wait := some 3 })).map (·.wait) = some none ∧
    (nextOf (applyOp (.setKey 7 false) { State.reset with wait := some 3 })).map (·.wait) = some (some 3) ∧
    (nextOf (applyOp .tickTimers { State.reset with wait := some 3 })).map (·.wait) = some (some 3) ∧
    (nextOf (applyOp (.initializeOp [] .standard) { State.reset with wait := some 3 })).map (·.wait) = some none := by decide

theorem witness_WaitLastsAFrameWithoutPress :
    ({ State.reset with wait := some 3 } : State).wait = some 3 ∧
    ∀ p ∈ [((7 : Nibble), false)], p.2 = false := by decide

theorem reset_inv : MachineInv State.reset := ⟨by decide, by decide, by decide, fun _ _ => by decide⟩

theorem witness_StepKeepsInvariant : MachineInv State.reset ∧ ∃ t, step State.reset = .next t := ⟨reset_inv, _, rfl⟩

theorem witness_RunsKeepInvariant :
    MachineInv State.reset ∧ ∃ t, runOps [.setKey 1 true, .tickTimers] State.reset = .next t := ⟨reset_inv, _, rfl⟩

theorem witness_DiagnosticsAreSticky :
    (∀ image mode, HostOp.ackDraw ≠ .initializeOp image mode) ∧
    (∃ t, applyOp .ackDraw { State.reset with diag := 0b1#10 } = .next t) ∧
    ({ State.reset with diag := 0b1#10 } : State).hasDiag .pcOdd = true :=
  ⟨(fun _ _ h => by cases h), ⟨_, rfl⟩, by decide⟩

theorem witness_DiagAndDepthInfluenceNothing : ∃ t, step State.reset = .next t := ⟨_, rfl⟩

theorem witness_OnlyNamedInstructionsWriteEachElement : ∃ t, exec (.loadI 0x300) State.reset = .next t := ⟨_, rfl⟩

theorem witness_OnlyNamedRegistersChange :
    (∃ t, exec (.loadRegs 2) State.reset = .next t) ∧ Claim.mayWrite (.loadRegs 2) 3 = false ∧
    Claim.mayWrite (.addWithCarry 0 1) 1 = false ∧ Claim.mayWrite .clear 0xF = false := ⟨⟨_, rfl⟩, by decide, by decide, by decide⟩

theorem witness_StoresTouchOnlyTheirBytes :
    Memory.wf State.reset.mem = true ∧ (∃ t, exec (.bcd 0) { State.reset with i := 0xFFF } = .next t) ∧
    (∀ k < Claim.storeCount (.bcd 0), 0xFFE ≠ (0xFFF + k) % 0x1000) ∧
    (∀ k < Claim.storeCount (.bcd 0), 2 ≠ (0xFFF + k) % 0x1000) := ⟨by decide, ⟨_, rfl⟩, by decide, by decide⟩

theorem witness_MemoryPrimitives :
    Memory.wf State.reset.mem = true ∧ (dataWrite 0xFFF 7 State.reset).diag = 0 ∧
    (dataWrite 0x1000 7 State.reset).diag = 0b100#10 ∧ (dataWrite 0x1000 7 State.reset).byteAt 0 = 7 := by decide

/-- F155 at 0x206 with I = 0x208 stores over the next instruction, the words of P5; PC is the one the fetch left. -/
theorem witness_StoredWordIsFetchedNext :
    Memory.wf (regs2 0 0x12 1 0x08).mem = true ∧ (0 : Nat) < (1 : Nibble).toNat ∧ (0x208 + 0) % 0x1000 = 0x208 % 0x1000 ∧
    (nextOf (exec (.storeRegs 1) { regs2 0 0x12 1 0x08 with i := 0x208, pc := 0x208 })).map fetchWord = some 0x1208 := by decide

/-- The other reading of every parameter with two. -/
def otherParams : Params :=
  { Params.spec with
    operandRead := .sequential
    drawEdge := .clip
    skip9Strict := false
    fontLowNibble := true
    keyIndexMode := .draw
    resetFill := .unwritten
    stepsPerFrame := 9 }

/-- One step, under two parameter sets that differ in every open reading. -/
theorem witness_DiagnosticFreeRunsIgnoreParameters :
    otherParams.loadAddr = Params.spec.loadAddr ∧ otherParams.fontBase = Params.spec.fontBase ∧
    ∃ t, core.run 1 (State.reset.withFetchWord 16 0x8014) = .next t ∧ t.diag = 0 := ⟨rfl, rfl, _, rfl, by decide⟩

/-- Two machines that differ in an unwritten element and in RESET_FILL, an operation that stops and a run that goes on. -/
theorem witness_UnwrittenElementsAreNeverRead :
    (FillElement.v 0 ∈ opReads .step (unwrittenStart 0x7001).machine ∧ FillElement.v 0 ∈ allElements) ∧
    (unwrittenStart 0x6001).machine.params.resetFill = .unwritten ∧
    Claim.AgreeOutside allElements (unwrittenStart 0x6001).machine ((State.reset.withFetchWord 16 0x6001).setReg 0 7) ∧
    (∃ t u', trackedRun [.step] (unwrittenStart 0x6001) = .next ⟨t, u'⟩) ∧ State.reset.params.resetFill = .zero :=
  ⟨⟨by decide, by decide⟩, rfl, ⟨fun e he => absurd (mem_allElements e) he, rfl⟩, ⟨_, _, rfl⟩, rfl⟩

theorem witness_StrictRunIsTheDiagnosticFreeRun :
    State.reset.diag = 0 ∧ ∃ t, strictRun 1 (State.reset.withFetchWord 16 0x1200) = .next t := ⟨rfl, _, rfl⟩

theorem witness_FinishedStateIsFixed : (State.reset.withFetchWord 16 0x1200).Finished :=
  ⟨rfl, ⟨0x200, by decide, by decide⟩, by decide⟩

theorem witness_PcIsAdvancedBeforeExecution :
    (State.reset.withFetchWord 16 0x2210).wait = none ∧
    fetchWord (State.reset.withFetchWord 16 0x2210) = layoutNNN 0x2 0x210 ∧ State.reset.sp.toNat < 16 ∧
    fetchWord (State.reset.withFetchWord 16 0x3342) = layoutXNN 0x3 3 0x42 ∧
    fetchWord (State.reset.withFetchWord 16 0x1ABC) = layoutNNN 0x1 0xABC := by decide

end Sys2Proof.Tests
end

/-! ## What one instruction can do (R43)

`Effect s i t` lists the shapes of an instruction's result; `exec_effect` says that every result has one of them. The
frames and invariants below are read off these shapes and do not open `exec` again. -/

namespace Sys2Proof.Machine

/-! ### DIAG only grows -/

/-- Every bit of DIAG that is set in `d` is set in `d'` (R39). -/
def DiagGrows (d d' : BitVec 10) : Prop := ∀ c : DiagCause, d.getLsbD c.bit = true → d'.getLsbD c.bit = true

theorem DiagGrows.refl (d : BitVec 10) : DiagGrows d d := fun _ h => h

theorem DiagGrows.trans {a b c : BitVec 10} (hab : DiagGrows a b) (hbc : DiagGrows b c) : DiagGrows a c :=
  fun k h => hbc k (hab k h)

/-- A DIAG word that grew to 0 was 0. -/
theorem DiagGrows.eq_zero {d : BitVec 10} (h : DiagGrows d 0) : d = 0 :=
  diag_ext fun c => by
    have hc := h c
    simp_all

theorem diagGrows_diagIf (b : Bool) (c : DiagCause) (s : State) : DiagGrows s.diag (diagIf b c s).diag := by
  intro k hk
  have h : (diagIf b c s).hasDiag k = _ := hasDiag_diagIf b c k s
  have hk : s.hasDiag k = true := hk
  rw [hk, Bool.true_or] at h
  exact h

theorem diagGrows_dataWrite (a : Nat) (b : Byte) (s : State) : DiagGrows s.diag (dataWrite a b s).diag :=
  diagGrows_diagIf _ .iRange s

theorem diagGrows_push (a : Word) (s : State) : DiagGrows s.diag (push a s).diag :=
  diagGrows_diagIf _ .stackOvf s

theorem diagGrows_pop (s : State) : DiagGrows s.diag (pop s).diag :=
  diagGrows_diagIf _ .stackUnf s

theorem diagGrows_fetch (s : State) : DiagGrows s.diag (fetch s).diag :=
  (diagGrows_diagIf (s.pc.getLsbD 0) .pcOdd s).trans (diagGrows_diagIf (pcOutOfRange s) .pcRange _)

theorem diagGrows_keyDown (b : Byte) (s : State) : DiagGrows s.diag (keyDown b s).2.diag := by
  rw [keyDown_snd]
  by_cases h : b.toNat ≤ 0xF
  · simpa only [if_pos h] using DiagGrows.refl s.diag
  · simpa [h] using diagGrows_diagIf true .keyRange s

theorem diagGrows_loadRange (ks : List Nat) (s : State) : DiagGrows s.diag (loadRange ks s).diag := by
  intro c hc
  have h := hasDiag_loadRange ks s c
  rw [show s.hasDiag c = true from hc, Bool.true_or] at h
  exact h

/-! ### Registers that an operation leaves alone -/

theorem reg_setReg_of_ne {s : State} {x r : Nibble} (b : Byte) (h : r ≠ x) : (s.setReg x b).reg r = s.reg r := by
  rw [reg_setReg, if_neg h]

/-- A flag instruction writes Vx and VF only (R182). -/
theorem reg_flagThenResult_of_ne {flag : Byte → Byte → Bool} {result : Byte → Byte → Byte} {x y r : Nibble} {s : State}
    (hx : r ≠ x) (hf : r ≠ vf) : (flagThenResult flag result x y s).reg r = s.reg r := by
  unfold flagThenResult
  cases s.params.operandRead <;> simp only [reg_setReg_of_ne _ hx, reg_setReg_of_ne _ hf]

/-- Fx65 writes V0..Vx only (R225). -/
theorem reg_loadRange_of_lt {x r : Nibble} (s : State) (h : x.toNat < r.toNat) :
    (loadRange (regRange x) s).reg r = s.reg r := by
  have hx := x.isLt
  have hlt : ∀ k ∈ regRange x, k < 16 := by
    simp only [regRange, List.mem_range]
    omega
  have hout : r.toNat ∉ regRange x := by
    simp only [regRange, List.mem_range]
    omega
  rw [reg_loadRange hlt, if_neg hout]

/-! ### Stores -/

/-- `t` is `s` with other bytes in memory, still canonical, and perhaps more of DIAG. -/
def Stores (s t : State) : Prop :=
  ∃ m d, t = { s with mem := m, diag := d } ∧ (Memory.wf s.mem = true → Memory.wf m = true) ∧ DiagGrows s.diag d

theorem Stores.refl (s : State) : Stores s s := ⟨s.mem, s.diag, rfl, id, .refl _⟩

theorem Stores.dataWrite {s t : State} (a : Nat) (b : Byte) (h : Stores s t) : Stores s (dataWrite a b t) := by
  obtain ⟨m, d, rfl, hm, hd⟩ := h
  exact ⟨_, _, dataWrite_eq a b _, fun hs => wf_dataWrite a b (hm hs),
    hd.trans (diagGrows_dataWrite a b { s with mem := m, diag := d })⟩

theorem Stores.storeRange {s t : State} (ks : List Nat) (h : Stores s t) : Stores s (storeRange ks t) := by
  induction ks generalizing t with
  | nil => exact h
  | cons k ks ih => exact ih (h.dataWrite _ _)

/-! ### The shapes of an instruction's result -/

/-- The result of running `i` in `s`, by the elements it changes (R43). -/
inductive Effect (s : State) : Instr → State → Prop
  /-- Registers and DIAG: loads, ALU, Fx07, Fx65, the no-op. -/
  | regs {i : Instr} {v : Vector Byte 16} {d : BitVec 10}
      (hv : ∀ r, Claim.mayWrite i r = false → ({ s with v := v } : State).reg r = s.reg r) (hd : DiagGrows s.diag d) :
      Effect s i { s with v := v, diag := d }
  /-- Cxnn takes a free value. -/
  | rand (x : Nibble) (nn b : Byte) : Effect s (.rand x nn) (s.countDraw.setReg x b)
  /-- PC and DIAG: the jumps and the skips on registers. -/
  | branch {i : Instr} {a : Word} {d : BitVec 10} (hd : DiagGrows s.diag d)
      (hi : i.mnemonic ∈ ["jump", "jump-offset", "skip-eq-imm", "skip-ne-imm", "skip-eq-reg", "skip-ne-reg"]) :
      Effect s i { s with pc := a, diag := d }
  /-- PC, DIAG and the count of draws: the skips on keys. -/
  | keySkip {i : Instr} {a : Word} {d : BitVec 10} {n : Nat} (hd : DiagGrows s.diag d)
      (hi : ∃ x, i = .skipIfKey x ∨ i = .skipIfNotKey x) : Effect s i { s with pc := a, diag := d, draws := n }
  | call (nnn : Addr) : Effect s (.call nnn) ((push s.pc s).setPc (absolute nnn))
  | ret : Effect s .ret ((pop s).setPc s.popValue)
  /-- I and DIAG. -/
  | index {i : Instr} {a : Word} {d : BitVec 10} (hd : DiagGrows s.diag d)
      (hi : i.mnemonic ∈ ["load-I", "add-I", "font-addr"]) : Effect s i { s with i := a, diag := d }
  /-- Memory, kept canonical, and DIAG. -/
  | store {i : Instr} {m : Memory} {d : BitVec 10} (hm : Memory.wf s.mem = true → Memory.wf m = true)
      (hd : DiagGrows s.diag d) (hi : i.mnemonic ∈ ["bcd", "store-regs"]) : Effect s i { s with mem := m, diag := d }
  /-- The framebuffer and DRAW_REQ, with VF and DIAG for Dxyn. -/
  | display {i : Instr} {v : Vector Byte 16} {f : Framebuffer} {d : BitVec 10}
      (hv : ∀ r, Claim.mayWrite i r = false → ({ s with v := v } : State).reg r = s.reg r) (hd : DiagGrows s.diag d)
      (hi : i.mnemonic ∈ ["clear", "draw"]) : Effect s i { s with v := v, fb := f, drawReq := true, diag := d }
  | writeDT (x : Nibble) : Effect s (.writeDT x) (s.setDT (s.reg x))
  | writeST (x : Nibble) : Effect s (.writeST x) (s.setST (s.reg x))
  | waitKey (x : Nibble) : Effect s (.waitKey x) (s.setWait (some x))

namespace Effect

/-- An instruction that writes one register has the shape `regs`. -/
theorem setReg {s : State} {i : Instr} {x : Nibble} (b : Byte) (h : ∀ r, Claim.mayWrite i r = false → r ≠ x) :
    Effect s i (s.setReg x b) :=
  .regs (fun r hr => reg_setReg_of_ne b (h r hr)) (.refl _)

/-- An instruction that may only skip has the shape `branch`. -/
theorem skipIf {s : State} {i : Instr} (b : Bool)
    (hi : i.mnemonic ∈ ["jump", "jump-offset", "skip-eq-imm", "skip-ne-imm", "skip-eq-reg", "skip-ne-reg"]) :
    Effect s i (skipIf b s) :=
  .branch (.refl _) hi

theorem flagBinary {s : State} {i : Instr} (flag : Byte → Byte → Bool) (result : Byte → Byte → Byte) {x : Nibble}
    (y : Nibble) (h : ∀ r, Claim.mayWrite i r = false → r ≠ x ∧ r ≠ vf) : Effect s i (flagBinary flag result x y s) := by
  rw [flagBinary_eq]
  exact .regs (fun r hr => reg_flagThenResult_of_ne (h r hr).1 (h r hr).2) (diagGrows_diagIf _ _ s)

theorem flagShift {s : State} {i : Instr} (flag : Byte → Bool) (result : Byte → Byte) {x : Nibble}
    (h : ∀ r, Claim.mayWrite i r = false → r ≠ x ∧ r ≠ vf) : Effect s i (flagShift flag result x s) := by
  rw [flagShift_eq]
  exact .regs (fun r hr => reg_flagThenResult_of_ne (h r hr).1 (h r hr).2) (diagGrows_diagIf _ _ s)

theorem keyDown {s : State} {i : Instr} (b : Bool) (v : Byte) (hi : ∃ x, i = .skipIfKey x ∨ i = .skipIfNotKey x) :
    Effect s i (Machine.skipIf b (keyDown v s).2) := by
  have hd := diagGrows_keyDown v s
  rw [keyDown_eq]
  exact .keySkip hd hi

theorem of_stores {s t : State} {i : Instr} (h : Stores s t) (hi : i.mnemonic ∈ ["bcd", "store-regs"]) :
    Effect s i t := by
  obtain ⟨m, d, rfl, hm, hd⟩ := h
  exact .store hm hd hi

theorem loadRegs (x : Nibble) (s : State) : Effect s (.loadRegs x) (loadRange (regRange x) s) := by
  rw [loadRange_eq]
  refine .regs (fun r hr => reg_loadRange_of_lt s ?_) (diagGrows_loadRange _ s)
  simpa [Claim.mayWrite] using hr

theorem draw (x y n : Nibble) {s t : State} (h : execDraw x y n s = .next t) : Effect s (.draw x y n) t := by
  cases h
  refine .display (fun r hr => reg_setReg_of_ne (s := s) (x := vf) _ ?_)
    ((diagGrows_diagIf _ _ s).trans (diagGrows_diagIf _ .drawEdge _)) (by simp [Instr.mnemonic])
  simpa [Claim.mayWrite, vf] using hr

end Effect

/-- Every result of an instruction has one of the shapes of `Effect`. -/
theorem exec_effect {i : Instr} {s t : State} (h : exec i s = .next t) : Effect s i t := by
  cases i with
  | draw x y n => exact .draw x y n h
  | bcd x =>
    cases h
    exact .of_stores ((((Stores.refl s).dataWrite _ _).dataWrite _ _).dataWrite _ _) (by simp [Instr.mnemonic])
  | storeRegs x => cases h; exact .of_stores (.storeRange _ (.refl s)) (by simp [Instr.mnemonic])
  | loadRegs x => cases h; exact .loadRegs x s
  | clear => cases h; exact .display (fun _ _ => rfl) (.refl _) (by simp [Instr.mnemonic])
  | nop w => cases h; exact .regs (fun _ _ => rfl) (diagGrows_diagIf _ _ s)
  | ret => cases h; exact .ret
  | call nnn => cases h; exact .call nnn
  | jump nnn => cases h; exact .branch (.refl _) (by simp [Instr.mnemonic])
  | jumpOffset nnn => cases h; exact .branch (.refl _) (by simp [Instr.mnemonic])
  | skipEqImm x nn => cases h; exact .skipIf _ (by simp [Instr.mnemonic])
  | skipNeImm x nn => cases h; exact .skipIf _ (by simp [Instr.mnemonic])
  | skipEqReg x y => cases h; exact .skipIf _ (by simp [Instr.mnemonic])
  | skipNeReg x y n => cases h; exact .branch (diagGrows_diagIf _ _ s) (by simp [Instr.mnemonic])
  | skipIfKey x => cases h; exact .keyDown _ _ ⟨x, .inl rfl⟩
  | skipIfNotKey x => cases h; exact .keyDown _ _ ⟨x, .inr rfl⟩
  | loadImm x nn | addImm x nn => cases h; exact .setReg _ (by simp [Claim.mayWrite])
  | loadReg x y | orReg x y | andReg x y | xorReg x y => cases h; exact .setReg _ (by simp [Claim.mayWrite])
  | readDT x => cases h; exact .setReg _ (by simp [Claim.mayWrite])
  | addWithCarry x y | subWithBorrow x y | subReverseWithBorrow x y =>
    cases h; exact .flagBinary _ _ y (by simp [Claim.mayWrite, vf])
  | shiftRight x y | shiftLeft x y => cases h; exact .flagShift _ _ (by simp [Claim.mayWrite, vf])
  | rand x nn => cases h; exact .rand x nn _
  | writeDT x => cases h; exact .writeDT x
  | writeST x => cases h; exact .writeST x
  | waitKey x => cases h; exact .waitKey x
  | loadI nnn => cases h; exact .index (.refl _) (by simp [Instr.mnemonic])
  | addI x => cases h; exact .index (.refl _) (by simp [Instr.mnemonic])
  | fontAddr x => cases h; exact .index (diagGrows_diagIf _ _ s) (by simp [Instr.mnemonic])

/-- Every instruction has a next state (R300). -/
theorem exec_total (i : Instr) (s : State) : ∃ t, exec i s = .next t := by
  cases i <;> exact ⟨_, rfl⟩

end Sys2Proof.Machine
/-! ## What one step can do (R308) -/

namespace Sys2Proof.Machine

/-- An instruction clears no bit of DIAG (R39). -/
theorem exec_diagGrows {i : Instr} {s t : State} (h : exec i s = .next t) : DiagGrows s.diag t.diag := by
  cases exec_effect h with
  | regs _ hd | branch hd _ | keySkip hd _ | index hd _ | store _ hd _ | display _ hd _ => exact hd
  | call nnn => exact diagGrows_push s.pc s
  | ret => exact diagGrows_pop s
  | rand | writeDT | writeST | waitKey => exact .refl _

/-- No instruction changes the configuration (log 1). -/
theorem exec_params {i : Instr} {s t : State} (h : exec i s = .next t) : t.params = s.params := by
  cases exec_effect h with
  | regs | rand | branch | keySkip | call | ret | index | store | display | writeDT | writeST | waitKey => rfl

theorem step_of_waiting {s : State} {r : Nibble} (h : s.wait = some r) : step s = .next s := by
  simp only [step, h]

theorem step_of_running {s : State} (h : s.wait = none) :
    step s = exec (decodeWord s.params.skip9Strict (fetchWord s)) (fetch s) := by
  simp only [step, h]

/-- A step leaves a waiting machine alone; otherwise it runs one instruction in the fetched state. -/
theorem step_cases {s t : State} (h : step s = .next t) :
    (∃ r, s.wait = some r ∧ t = s) ∨
      (s.wait = none ∧ exec (decodeWord s.params.skip9Strict (fetchWord s)) (fetch s) = .next t) := by
  cases hw : s.wait with
  | some r => exact .inl ⟨r, rfl, Host.Outcome.next.inj (h.symm.trans (step_of_waiting hw))⟩
  | none => exact .inr ⟨rfl, (step_of_running hw).symm.trans h⟩

theorem step_total (s : State) : ∃ t, step s = .next t := by
  cases hw : s.wait with
  | some r => exact ⟨s, step_of_waiting hw⟩
  | none => exact step_of_running hw ▸ exec_total _ _

/-- A step clears no bit of DIAG (R39). -/
theorem step_diagGrows {s t : State} (h : step s = .next t) : DiagGrows s.diag t.diag := by
  obtain ⟨r, -, rfl⟩ | ⟨-, hexec⟩ := step_cases h
  · exact .refl _
  · exact (diagGrows_fetch s).trans (exec_diagGrows hexec)

theorem step_params {s t : State} (h : step s = .next t) : t.params = s.params := by
  obtain ⟨r, -, rfl⟩ | ⟨-, hexec⟩ := step_cases h
  · rfl
  · exact (exec_params hexec).trans (fetch_params s)

/-! ### The host's other operations -/

/-- What `set_key` changes: the keypad, a register and the latch (R312). -/
theorem setKey_eq (k : Nibble) (d : Bool) (s : State) :
    setKey k d s = { s with v := (setKey k d s).v, key := (setKey k d s).key, wait := (setKey k d s).wait } := by
  unfold setKey
  split <;> rfl

/-- No operation but `initialize` clears a bit of DIAG (R39). -/
theorem applyOp_diagGrows {op : HostOp} {s t : State} (hop : ∀ image mode, op ≠ .initializeOp image mode)
    (h : applyOp op s = .next t) : DiagGrows s.diag t.diag := by
  cases op with
  | initializeOp image mode => exact absurd rfl (hop image mode)
  | step => exact step_diagGrows h
  | tickTimers => cases h; exact .refl _
  | setKey k d => cases h; rw [setKey_eq]; exact .refl _
  | ackDraw => cases h; exact .refl _
  | ackBeep => cases h; exact .refl _

/-! ### The stack's diagnostics -/

theorem hasDiag_of_diagGrows {s t : State} {c : DiagCause} (h : DiagGrows s.diag t.diag) (ht : t.hasDiag c = false) :
    s.hasDiag c = false :=
  Bool.eq_false_iff.2 fun hs => Bool.false_ne_true (ht.symm.trans (h c hs))

/-- A push at DEPTH 16 records STACK_OVF and no other cause (R30). -/
theorem hasDiag_push (a : Word) (s : State) (c : DiagCause) :
    (push a s).hasDiag c = (s.hasDiag c || decide (s.depth = 16) && decide (.stackOvf = c)) := by
  have h : (push a s).hasDiag c = (diagIf (decide (s.depth = s.params.sizes.stackDepth)) .stackOvf s).hasDiag c := rfl
  rw [h, hasDiag_diagIf, Sizes.stackDepth_val]

/-- A pop at DEPTH 0 records STACK_UNF and no other cause (R31). -/
theorem hasDiag_pop (s : State) (c : DiagCause) :
    (pop s).hasDiag c = (s.hasDiag c || decide (s.depth = 0) && decide (.stackUnf = c)) := by
  have h : (pop s).hasDiag c = (diagIf (decide (s.depth = 0)) .stackUnf s).hasDiag c := rfl
  rw [h, hasDiag_diagIf]

end Sys2Proof.Machine

/-! ## The machine invariant -/

namespace Sys2Proof

open Machine

/-- The invariant reads memory, SP, DEPTH and DIAG only, and is kept when DIAG grows. -/
theorem MachineInv.of_diagGrows {s t : State} (hs : MachineInv s) (hm : Memory.wf t.mem = true) (hsp : t.sp = s.sp)
    (hdepth : t.depth = s.depth) (hd : DiagGrows s.diag t.diag) : MachineInv t where
  mem_wf := hm
  sp_lt := hsp ▸ hs.sp_lt
  depth_le := hdepth ▸ hs.depth_le
  balanced ho hu := by
    rw [hsp, hdepth]
    exact hs.balanced (hasDiag_of_diagGrows hd ho) (hasDiag_of_diagGrows hd hu)

/-- A push lowers SP and raises DEPTH, unless it overflows (R30). -/
theorem MachineInv.push {s : State} (a : Word) (hs : MachineInv s) : MachineInv (push a s) where
  mem_wf := hs.mem_wf
  sp_lt := by
    rw [push_sp_toNat]
    exact Nat.mod_lt _ (by decide)
  depth_le := by
    have := hs.depth_le
    rw [push_depth, Sizes.stackDepth_val]
    split <;> omega
  balanced ho hu := by
    have hroom : s.depth ≠ 16 := by
      intro h
      simp [hasDiag_push, h] at ho
    have hd := diagGrows_push a s
    have hbal := hs.balanced (hasDiag_of_diagGrows hd ho) (hasDiag_of_diagGrows hd hu)
    rw [push_sp_toNat, push_depth, Sizes.stackDepth_val, if_neg hroom]
    omega

/-- A pop raises SP and lowers DEPTH, unless it underflows (R31). -/
theorem MachineInv.pop {s : State} (hs : MachineInv s) : MachineInv (pop s) where
  mem_wf := hs.mem_wf
  sp_lt := by
    rw [pop_sp_toNat]
    exact Nat.mod_lt _ (by decide)
  depth_le := by
    have := hs.depth_le
    rw [pop_depth]
    split <;> omega
  balanced ho hu := by
    have hfull : s.depth ≠ 0 := by
      intro h
      simp [hasDiag_pop, h] at hu
    have hd := diagGrows_pop s
    have hbal := hs.balanced (hasDiag_of_diagGrows hd ho) (hasDiag_of_diagGrows hd hu)
    rw [pop_sp_toNat, pop_depth, if_neg hfull]
    omega

theorem MachineInv.fetch {s : State} (hs : MachineInv s) : MachineInv (fetch s) :=
  hs.of_diagGrows hs.mem_wf rfl rfl (diagGrows_fetch s)

/-- An instruction keeps the invariant: only a call and a return move SP and DEPTH, only a store changes memory. -/
theorem MachineInv.exec {i : Instr} {s t : State} (hs : MachineInv s) (h : exec i s = .next t) : MachineInv t := by
  have hd := exec_diagGrows h
  cases exec_effect h with
  | call nnn => exact (hs.push s.pc).of_diagGrows hs.mem_wf rfl rfl (.refl _)
  | ret => exact hs.pop.of_diagGrows hs.mem_wf rfl rfl (.refl _)
  | store hm _ _ => exact hs.of_diagGrows (hm hs.mem_wf) rfl rfl hd
  | regs | rand | branch | keySkip | index | display | writeDT | writeST | waitKey =>
    exact hs.of_diagGrows hs.mem_wf rfl rfl hd

theorem MachineInv.step {s t : State} (hs : MachineInv s) (h : step s = .next t) : MachineInv t := by
  obtain ⟨r, -, rfl⟩ | ⟨-, hexec⟩ := step_cases h
  · exact hs
  · exact hs.fetch.exec hexec

/-- Settles O46: a fetch keeps the invariant, and so does each shape of an instruction's result. -/
theorem stepKeepsInvariant : Obligations.StepKeepsInvariant :=
  fun _ _ hs h => hs.step h

end Sys2Proof
/-! ## Frames over all instructions and operations -/

namespace Sys2Proof

open Machine

/-! ### The invariant after a reset -/

theorem wf_bootMemory (p : Params) (image : List Byte) : Memory.wf (bootMemory p image) = true :=
  wf_loadBytes (wf_loadBytes (wf_loadBytes rfl))

theorem MachineInv.boot (p : Params) (n : Nat) (image : List Byte) : MachineInv (boot p n image) where
  mem_wf := wf_bootMemory p image
  sp_lt := show 15 < 16 by decide
  depth_le := Nat.zero_le 16
  balanced _ _ := rfl

/-- Settles O48: `initialize` loads memory byte by byte, and SP is 15 at DEPTH 0. -/
theorem initializedStatesHaveInvariant : Obligations.InitializedStatesHaveInvariant :=
  ⟨⟨rfl, by decide, Nat.zero_le 16, fun _ _ => rfl⟩, MachineInv.boot⟩

/-- Settles O49. -/
theorem diagnosticsAreSticky : Obligations.DiagnosticsAreSticky :=
  fun _ _ _ c hop h => applyOp_diagGrows hop h c

/-- Settles O51: each shape of an instruction's result names the elements it changes. -/
theorem onlyNamedInstructionsWriteEachElement : Obligations.OnlyNamedInstructionsWriteEachElement := by
  intro i s t h
  cases exec_effect h with
  | regs hv hd => simp
  | branch hd hi =>
    have hpc : ∀ m ∈ ["jump", "jump-offset", "skip-eq-imm", "skip-ne-imm", "skip-eq-reg", "skip-ne-reg"],
        m ∈ ["return", "jump", "call", "jump-offset", "skip-eq-imm", "skip-ne-imm", "skip-eq-reg", "skip-ne-reg",
          "skip-if-key", "skip-if-not-key"] := by decide
    simp [-List.mem_cons, hpc _ hi]
  | keySkip hd hi => obtain ⟨x, rfl | rfl⟩ := hi <;> simp [Instr.mnemonic]
  | index hd hi => simp [-List.mem_cons, hi]
  | store hm hd hi => simp [-List.mem_cons, hi]
  | display hv hd hi => simp [-List.mem_cons, hi]
  | rand | call | ret | writeDT | writeST | waitKey => simp [Instr.mnemonic]

/-- Settles O52. -/
theorem onlyNamedRegistersChange : Obligations.OnlyNamedRegistersChange := by
  intro i s t r h hr
  cases exec_effect h with
  | regs hv hd => exact hv r hr
  | display hv hd hi => exact hv r hr
  | rand x nn b => exact reg_setReg_of_ne b (by simpa [Claim.mayWrite] using hr)
  | branch | keySkip | call | ret | index | store | writeDT | writeST | waitKey => rfl

/-! ### DRAW_REQ -/

theorem mnemonic_mem_display {i : Instr} (h : i.mnemonic ∈ ["clear", "draw"]) :
    i = .clear ∨ ∃ x y n, i = .draw x y n := by
  cases i <;> simp [Instr.mnemonic] at h ⊢

/-- 00E0 and Dxyn raise DRAW_REQ (R120, R121); every other instruction leaves it alone (R43). -/
theorem exec_drawReq {i : Instr} {s t : State} (h : exec i s = .next t) :
    t.drawReq = true ↔ s.drawReq = true ∨ i.mnemonic ∈ ["clear", "draw"] := by
  by_cases hi : i.mnemonic ∈ ["clear", "draw"]
  · have ht : t.drawReq = true := by
      obtain rfl | ⟨x, y, n, rfl⟩ := mnemonic_mem_display hi <;> cases h <;> rfl
    exact ⟨fun _ => .inr hi, fun _ => ht⟩
  · have ht : t.drawReq = s.drawReq := by
      cases exec_effect h with
      | display _ _ hd => exact absurd hd hi
      | regs | rand | branch | keySkip | call | ret | index | store | writeDT | writeST | waitKey => rfl
    rw [ht, or_iff_left hi]

theorem step_drawReq {s t : State} (h : step s = .next t) :
    t.drawReq = true ↔ s.drawReq = true ∨
      (s.wait = none ∧ (decodeWord s.params.skip9Strict (fetchWord s)).mnemonic ∈ ["clear", "draw"]) := by
  obtain ⟨r, hw, rfl⟩ | ⟨hw, hexec⟩ := step_cases h
  · rw [hw, or_iff_left fun hc => Option.some_ne_none r hc.1]
  · rw [exec_drawReq hexec, fetch_drawReq, and_iff_right hw]

/-- Settles O37: by cases on the operation; only a step of 00E0 or Dxyn raises DRAW_REQ, and no step lowers it. -/
theorem drawRequestIsSticky : Obligations.DrawRequestIsSticky := by
  intro op s t h
  cases op with
  | initializeOp image mode => cases h; exact ⟨nofun, nofun, fun _ _ => .inr ⟨_, _, rfl⟩⟩
  | step =>
    have hstep := step_drawReq h
    refine ⟨fun hs ht => ⟨rfl, (hstep.1 ht).resolve_left (by simp [hs])⟩, fun _ hw hi => hstep.2 (.inr ⟨hw, hi⟩), ?_⟩
    exact fun hs ht => absurd (hstep.2 (.inl hs)) (by simp [ht])
  | tickTimers => cases h; simp [tickTimers]
  | setKey k d => cases h; rw [setKey_eq]; simp
  | ackDraw => cases h; simp [ackDraw]
  | ackBeep => cases h; simp [ackBeep]

/-! ### The values after a reset -/

/-- `initialize` under `RESET_FILL = zero` leaves 0 in every element that RESET_FILL gives (D2). -/
theorem boot_zero {p : Params} (n : Nat) (image : List Byte) (h : p.resetFill = .zero) :
    boot p n image = { State.reset with
      pc := p.loadAddr.setWidth 16, mem := bootMemory p image, params := p, draws := n } := by
  have hv : (Vector.ofFn fun k : Fin 16 => fillByte p.resetFill n k.val) = Vector.replicate 16 0 := by
    ext; simp [h]
  have hs : (Vector.ofFn fun k : Fin 16 => fillWord p.resetFill n k.val) = Vector.replicate 16 0 := by
    ext; simp [h]
  rw [boot, hv, hs, h]
  rfl

theorem loadAddr_toNat_setWidth (p : Params) : (p.loadAddr.setWidth 16).toNat = p.loadAddr.toNat := by
  have := p.loadAddr.isLt
  rw [BitVec.toNat_setWidth]
  omega

/-- Settles O42. -/
theorem initializeResetsEveryElement : Obligations.InitializeResetsEveryElement := by
  rintro image mode s t rfl
  refine ⟨rfl, loadAddr_toNat_setWidth _, rfl, fun hfill => ?_, rfl, pixelAt_clearedFb, fun k => ?_, rfl, rfl, rfl, rfl,
    rfl, rfl⟩
  · have hz := boot_zero (p := { s.params with loadMode := mode }) (s.draws + 1) image hfill
    rw [initializeOp, hz]
    exact ⟨fun r => by simp [State.reg, State.reset], rfl, rfl, rfl, fun k hk => by simp [State.reset, hk]⟩
  · simp [initializeOp, boot, State.keyAt, State.reset]

/-- Past the top of memory a canonical memory lists nothing. -/
theorem memGet_of_ge {m : Memory} {lo a : Nat} (hm : Memory.wfFrom lo m = true) (ha : Config.memSize ≤ a) :
    memGet m a = unlisted a := by
  induction m generalizing lo with
  | nil => rfl
  | cons c m ih =>
    obtain ⟨-, hk, -, hm⟩ := wfFrom_cons.1 hm
    rw [memGet, if_neg (by omega), ih hm]

/-- Canonical memories that read alike below 0x1000 are equal (R61). -/
theorem memory_ext_lt {m m' : Memory} (hm : Memory.wf m = true) (hm' : Memory.wf m' = true)
    (h : ∀ a < 0x1000, memGet m a = memGet m' a) : m = m' :=
  memory_ext hm hm' fun a => by
    by_cases ha : a < 0x1000
    · exact h a ha
    · rw [memGet_of_ge hm (Nat.le_of_not_lt ha), memGet_of_ge hm' (Nat.le_of_not_lt ha)]

/-- With no image, memory after `initialize` holds the font at FONT_BASE and zero elsewhere (R68). -/
theorem memGet_bootMemory_nil (p : Params) {a : Nat} (ha : a < 0x1000) :
    memGet (bootMemory p []) a = p.font.toList[(a + 0x1000 - p.fontBase.toNat) % 0x1000]?.getD 0 := by
  have hz : Memory.wf (loadBytes p.sizes [] 0 (List.replicate 80 0)) = true := wf_loadBytes rfl
  have hzero : memGet (loadBytes p.sizes [] 0 (List.replicate 80 0)) a = 0 := by
    have ha' : (a + 0x1000 - 0 % 0x1000) % 0x1000 = a := (Nat.add_mod_right a 0x1000).trans (Nat.mod_eq_of_lt ha)
    rw [memGet_loadBytes rfl (by simp) ha, ha', List.getElem?_replicate, memGet]
    split
    · rfl
    · next h => simp [unlisted, h]
  have hbase : p.fontBase.toNat % 0x1000 = p.fontBase.toNat := Nat.mod_eq_of_lt p.fontBase.isLt
  rw [bootMemory, List.take_nil, loadBytes, memGet_loadBytes hz (by simp) ha, hzero, hbase]

/-- With R6's font at R6's FONT_BASE and no image, memory lists nothing (R68, logs 6 and 20). -/
theorem bootMemory_spec_nil : bootMemory Params.spec [] = [] := by
  refine memory_ext_lt (wf_bootMemory _ _) rfl fun a ha => ?_
  have hbase : (a + 0x1000 - Params.spec.fontBase.toNat) % 0x1000 = a :=
    (Nat.add_mod_right a 0x1000).trans (Nat.mod_eq_of_lt ha)
  rw [memGet_bootMemory_nil _ ha, hbase, memGet, unlisted, Vector.getElem?_toList]
  rfl

/-- Settles O43. -/
theorem resetIsInitializeOfTheEmptyImage : Obligations.ResetIsInitializeOfTheEmptyImage := by
  refine ⟨?_, rfl, rfl, rfl, rfl, fun p => ?_⟩
  · rw [boot_zero 0 [] rfl, bootMemory_spec_nil]
    rfl
  · simp

end Sys2Proof
/-! ## Nested pushes and pops (R32) -/

namespace Sys2Proof

open Machine Claim

theorem pushes_concat (vs : List Word) (a : Word) (s : State) : pushes (vs ++ [a]) s = push a (pushes vs s) := by
  simp [pushes]

theorem pushes_sp (vs : List Word) {s : State} (h : s.sp.toNat < 16) :
    (pushes vs s).sp.toNat = (s.sp.toNat + 15 * vs.length) % 16 := by
  induction vs using List.reverseRecOn with
  | nil => exact (Nat.mod_eq_of_lt h).symm
  | append_singleton vs a ih =>
    rw [pushes_concat, push_sp_toNat, ih, List.length_append, List.length_singleton]
    omega

/-- Pushes that the stack has room for count up DEPTH and record nothing (R30). -/
theorem pushes_depth_diag (vs : List Word) {s : State} (h : s.depth + vs.length ≤ 16) :
    (pushes vs s).depth = s.depth + vs.length ∧ (pushes vs s).diag = s.diag := by
  induction vs using List.reverseRecOn with
  | nil => exact ⟨rfl, rfl⟩
  | append_singleton vs a ih =>
    rw [List.length_append, List.length_singleton] at h
    obtain ⟨hdepth, hdiag⟩ := ih (by omega)
    have hroom : (pushes vs s).depth ≠ 16 := by omega
    rw [pushes_concat, push_depth, push_diag, Sizes.stackDepth_val, if_neg hroom, decide_eq_false hroom, hdepth, hdiag,
      List.length_append, List.length_singleton]
    exact ⟨rfl, rfl⟩

theorem pops_sp (k : Nat) {s : State} (h : s.sp.toNat < 16) : (pops k s).sp.toNat = (s.sp.toNat + k) % 16 := by
  induction k generalizing s with
  | zero => exact (Nat.mod_eq_of_lt h).symm
  | succ k ih =>
    have hpop := pop_sp_toNat s
    rw [pops, ih (by omega), hpop]
    omega

/-- Pops of entries that were pushed count down DEPTH and record nothing (R31). -/
theorem pops_depth_diag {k : Nat} {s : State} (h : k ≤ s.depth) :
    (pops k s).depth = s.depth - k ∧ (pops k s).diag = s.diag := by
  induction k generalizing s with
  | zero => exact ⟨rfl, rfl⟩
  | succ k ih =>
    have hne : s.depth ≠ 0 := by omega
    have hdepth : (pop s).depth = s.depth - 1 := by rw [pop_depth, if_neg hne]
    have hdiag : (pop s).diag = s.diag := by simp [hne]
    obtain ⟨ihdepth, ihdiag⟩ := ih (s := pop s) (by omega)
    exact ⟨by rw [pops, ihdepth, hdepth]; omega, by rw [pops, ihdiag, hdiag]⟩

/-- The values that pops return are the stack entries above SP (R31). -/
theorem popped_eq_map (k : Nat) {s : State} :
    popped k s = (List.range k).map fun j => s.stack[(s.sp.toNat + 1 + j) % 16]'(Nat.mod_lt _ (by decide)) := by
  induction k generalizing s with
  | zero => rfl
  | succ k ih =>
    rw [popped, ih, List.range_succ_eq_map, List.map_cons, List.map_map]
    congr 1
    refine List.map_congr_left fun j _ => ?_
    simp only [pop_stack, pop_sp_toNat, Function.comp]
    congr 1
    omega

/-- A push writes the entry at SP, which fewer than sixteen pops do not reach. -/
theorem popped_pop_push {k : Nat} {s : State} (a : Word) (h : s.sp.toNat < 16) (hk : k < 16) :
    popped k (pop (push a s)) = popped k s := by
  rw [popped_eq_map, popped_eq_map]
  refine List.map_congr_left fun j hj => ?_
  have hj := List.mem_range.1 hj
  have hsp : (pop (push a s)).sp.toNat = s.sp.toNat := by
    rw [pop_sp_toNat, push_sp_toNat]
    omega
  simp only [hsp, pop_stack, push_stack, State.stackIndex]
  exact Vector.getElem_set_ne _ _ (by omega)

theorem popped_pushes {vs : List Word} {s : State} (hlen : vs.length ≤ 16) (h : s.sp.toNat < 16) :
    popped vs.length (pushes vs s) = vs.reverse := by
  induction vs using List.reverseRecOn with
  | nil => rfl
  | append_singleton vs a ih =>
    rw [List.length_append, List.length_singleton] at hlen ⊢
    have hsp : (pushes vs s).sp.toNat < 16 := by
      rw [pushes_sp vs h]
      exact Nat.mod_lt _ (by decide)
    rw [pushes_concat, popped, popValue_push, popped_pop_push a hsp (by omega), ih (by omega), List.reverse_concat]

/-- Settles O16: by induction on the pushes, the last push first. -/
theorem nestedPushesPopInReverse : Obligations.NestedPushesPopInReverse := by
  intro vs s hlen h
  refine ⟨popped_pushes hlen h, ?_, fun hroom => ?_⟩
  · have hsp := pushes_sp vs h
    apply BitVec.eq_of_toNat_eq
    rw [pops_sp vs.length (by omega), hsp]
    omega
  · obtain ⟨hdepth, hdiag⟩ := pushes_depth_diag vs hroom
    obtain ⟨hdepth', hdiag'⟩ := pops_depth_diag (k := vs.length) (s := pushes vs s) (by omega)
    exact ⟨by rw [hdepth', hdepth]; omega, hdiag'.trans hdiag⟩

end Sys2Proof
/-! ## Runs of steps, and the STRICT machine -/

namespace Sys2Proof

open Machine

/-! ### Runs of steps -/

theorem coreRun_succ {k : Nat} {s t : State} :
    core.run (k + 1) s = .next t ↔ ∃ u, step s = .next u ∧ core.run k u = .next t := by
  obtain ⟨u, hu⟩ := step_total s
  have hstep : core.step s = .next u := hu
  have hrun : core.run (k + 1) s = core.run k u := by simp only [Host.Core.run, hstep]
  rw [hrun, hu]
  exact ⟨fun h => ⟨u, rfl, h⟩, fun ⟨u', hu', h⟩ => Host.Outcome.next.inj hu' ▸ h⟩

/-- A run of steps clears no bit of DIAG (R39). -/
theorem coreRun_diagGrows {k : Nat} {s t : State} (h : core.run k s = .next t) : DiagGrows s.diag t.diag := by
  induction k generalizing s with
  | zero => exact Host.Outcome.next.inj h ▸ .refl _
  | succ k ih =>
    obtain ⟨u, hu, hrun⟩ := coreRun_succ.1 h
    exact (step_diagGrows hu).trans (ih hrun)

/-- A run that ends with DIAG = 0 had DIAG = 0 all along. -/
theorem diag_eq_zero_of_coreRun {k : Nat} {s t : State} (h : core.run k s = .next t) (ht : t.diag = 0) : s.diag = 0 :=
  DiagGrows.eq_zero (ht ▸ coreRun_diagGrows h)

/-! ### The STRICT machine -/

/-- From DIAG = 0 the STRICT machine goes on exactly when the machine's step leaves DIAG = 0. -/
theorem strictStep_next {s t : State} (hs : s.diag = 0) :
    strictStep s = .next t ↔ step s = .next t ∧ t.diag = 0 := by
  obtain ⟨u, hu⟩ := step_total s
  have hnew : u.diag &&& ~~~s.diag = u.diag := by
    rw [hs]
    exact BitVec.and_allOnes
  simp only [strictStep, hu, hnew]
  split
  · next h0 => exact ⟨fun h => ⟨h, Host.Outcome.next.inj h ▸ h0⟩, And.left⟩
  · next h0 => exact ⟨nofun, fun ⟨h, ht⟩ => absurd (Host.Outcome.next.inj h ▸ ht) h0⟩

theorem strictRun_succ {k : Nat} {s t : State} :
    strictRun (k + 1) s = .next t ↔ ∃ u, strictStep s = .next u ∧ strictRun k u = .next t := by
  rw [strictRun]
  cases strictStep s with
  | next u => exact ⟨fun h => ⟨u, rfl, h⟩, fun ⟨u', hu', h⟩ => Host.Outcome.next.inj hu' ▸ h⟩
  | fault f => exact ⟨nofun, fun ⟨_, h, _⟩ => nomatch h⟩
  | refused r => exact ⟨nofun, fun ⟨_, h, _⟩ => nomatch h⟩

/-- Settles O57: by induction on the steps; a diagnostic once recorded would still stand at the end. -/
theorem strictRunIsTheDiagnosticFreeRun : Obligations.StrictRunIsTheDiagnosticFreeRun := by
  intro k
  induction k with
  | zero => exact fun s t hs => ⟨fun h => ⟨h, Host.Outcome.next.inj h ▸ hs⟩, And.left⟩
  | succ k ih =>
    intro s t hs
    rw [strictRun_succ, coreRun_succ]
    constructor
    · rintro ⟨u, hu, hrun⟩
      obtain ⟨hstep, hzero⟩ := (strictStep_next hs).1 hu
      obtain ⟨hrun, ht⟩ := (ih u t hzero).1 hrun
      exact ⟨⟨u, hstep, hrun⟩, ht⟩
    · rintro ⟨⟨u, hstep, hrun⟩, ht⟩
      have hzero := diag_eq_zero_of_coreRun hrun ht
      exact ⟨u, (strictStep_next hs).2 ⟨hstep, hzero⟩, (ih u t hzero).2 ⟨hrun, ht⟩⟩

end Sys2Proof
/-! ## Diagnostic-free runs do not read the open parameters (R6, R39)

Each open parameter (D8, D9, D12, D13, D14) matters only where the instruction records its diagnostic. So an instruction
that ends with DIAG = 0 gives the same result under any parameters with the same LOAD_ADDR and FONT_BASE. -/

namespace Sys2Proof.Machine

/-- The same machine state under the configuration `p`. -/
def State.withParams (s : State) (p : Params) : State := { s with params := p }

/-! ### Operations that read no open parameter -/

@[simp] theorem withParams_i (s : State) (p : Params) : (s.withParams p).i = s.i := rfl
@[simp] theorem withParams_pc (s : State) (p : Params) : (s.withParams p).pc = s.pc := rfl
@[simp] theorem withParams_mem (s : State) (p : Params) : (s.withParams p).mem = s.mem := rfl
@[simp] theorem withParams_fb (s : State) (p : Params) : (s.withParams p).fb = s.fb := rfl
@[simp] theorem withParams_wait (s : State) (p : Params) : (s.withParams p).wait = s.wait := rfl
@[simp] theorem withParams_params (s : State) (p : Params) : (s.withParams p).params = p := rfl
@[simp] theorem withParams_reg (s : State) (p : Params) (r : Nibble) : (s.withParams p).reg r = s.reg r := rfl

theorem byteAt_withParams (s : State) (p : Params) (a : Nat) : (s.withParams p).byteAt a = s.byteAt a := by
  simp only [State.byteAt, ea_eq, withParams_mem]

theorem fetchWord_withParams (s : State) (p : Params) : fetchWord (s.withParams p) = fetchWord s := by
  simp only [fetchWord, byteAt_withParams, withParams_pc]

/-- A fetch reads LOAD_ADDR and no other parameter (R309). -/
theorem fetch_withParams {s : State} {p : Params} (h : p.loadAddr = s.params.loadAddr) :
    fetch (s.withParams p) = (fetch s).withParams p := by
  have hrange : pcOutOfRange (s.withParams p) = pcOutOfRange s := by
    rw [pcOutOfRange, withParams_pc, withParams_params, h]
    rfl
  rw [fetch, hrange]
  rfl

theorem push_withParams (a : Word) (s : State) (p : Params) :
    push a (s.withParams p) = (push a s).withParams p := by
  simp only [push, Sizes.stackDepth_val]
  rfl

theorem dataWrite_withParams (a : Nat) (b : Byte) (s : State) (p : Params) :
    dataWrite a b (s.withParams p) = (dataWrite a b s).withParams p := by
  simp only [dataWrite, ea_eq]
  rfl

theorem storeRange_withParams (ks : List Nat) (s : State) (p : Params) :
    storeRange ks (s.withParams p) = (storeRange ks s).withParams p := by
  induction ks generalizing s with
  | nil => rfl
  | cons k ks ih =>
    rw [storeRange, dataWrite_withParams]
    exact ih _

theorem dataRead_withParams (a : Nat) (s : State) (p : Params) :
    dataRead a (s.withParams p) = ((dataRead a s).1, (dataRead a s).2.withParams p) := by
  rw [dataRead, byteAt_withParams]
  rfl

theorem loadRange_withParams (ks : List Nat) (s : State) (p : Params) :
    loadRange ks (s.withParams p) = (loadRange ks s).withParams p := by
  induction ks generalizing s with
  | nil => rfl
  | cons k ks ih =>
    rw [loadRange, dataRead_withParams]
    exact ih ((dataRead (s.i.toNat + k) s).2.setReg (BitVec.ofNat 4 k) (dataRead (s.i.toNat + k) s).1)

/-! ### Where an open parameter matters, a diagnostic is recorded -/

/-- With DIAG = 0 afterwards, `if b then diag(c)` recorded nothing. -/
theorem eq_false_of_diagIf {b : Bool} {c : DiagCause} {s : State} (h : (diagIf b c s).diag = 0) : b = false := by
  have hc := hasDiag_diagIf b c c s
  have hzero : (diagIf b c s).hasDiag c = false := by
    rw [State.hasDiag, h]
    exact BitVec.getLsbD_zero
  simp_all

/-- `ALU_OPERAND_READ` matters only to an operand that is VF (R182). -/
theorem flagThenResult_withParams {flag : Byte → Byte → Bool} {result : Byte → Byte → Byte} {x y : Nibble} {s : State}
    (p : Params) (hx : x ≠ vf) (hy : y ≠ vf) :
    flagThenResult flag result x y (s.withParams p) = (flagThenResult flag result x y s).withParams p := by
  have hlatched (u : State) : flagThenResult flag result x y u =
      (u.setReg vf (flagByte (flag (u.reg x) (u.reg y)))).setReg x (result (u.reg x) (u.reg y)) := by
    cases h : u.params.operandRead with
    | latched => exact flagThenResult_latched h
    | sequential => rw [flagThenResult_sequential h, if_neg hx, if_neg hy]
  rw [hlatched, hlatched]
  rfl

theorem flagBinary_withParams {flag : Byte → Byte → Bool} {result : Byte → Byte → Byte} {x y : Nibble} {s : State}
    (p : Params) (h : (flagBinary flag result x y s).diag = 0) :
    flagBinary flag result x y (s.withParams p) = (flagBinary flag result x y s).withParams p := by
  rw [flagBinary_eq] at h
  have hvf := eq_false_of_diagIf h
  simp only [Bool.or_eq_false_iff, beq_eq_false_iff_ne] at hvf
  exact flagThenResult_withParams (s := diagIf (x == vf || y == vf) .vfOperand s) p hvf.1 hvf.2

theorem flagShift_withParams {flag : Byte → Bool} {result : Byte → Byte} {x : Nibble} {s : State}
    (p : Params) (h : (flagShift flag result x s).diag = 0) :
    flagShift flag result x (s.withParams p) = (flagShift flag result x s).withParams p := by
  rw [flagShift_eq] at h
  have hvf := beq_eq_false_iff_ne.1 (eq_false_of_diagIf h)
  exact flagThenResult_withParams (s := diagIf (x == vf) .vfOperand s) p hvf hvf

/-- `DRAW_EDGE` matters only to a set bit past the edge (R121). -/
theorem plotAll_policy {z : Sizes} {policy : EdgePolicy} (policy' : EdgePolicy) {ps : List (Nat × Nat)} {c : Canvas}
    (h : (plotAll z policy ps c).edge = false) : plotAll z policy' ps c = plotAll z policy ps c := by
  induction ps generalizing c with
  | nil => rfl
  | cons q ps ih =>
    have hoff : offScreen z q.1 q.2 = false := by
      rw [plotAll_edge, List.any_cons] at h
      simp_all
    have hplot : plot z policy' q.1 q.2 c = plot z policy q.1 q.2 c := by simp only [plot, hoff, or_true]
    rw [plotAll, plotAll, hplot]
    exact ih h

theorem drawSprite_withParams {x y n : Nibble} {s : State} (p : Params) (h : (drawSprite x y n s).edge = false) :
    drawSprite x y n (s.withParams p) = drawSprite x y n s := by
  rw [drawSprite_eq] at h
  have hz : p.sizes = s.params.sizes := (Sizes.eq_spec _).trans (Sizes.eq_spec _).symm
  simp only [drawSprite_eq, withParams_params, withParams_i, withParams_reg, withParams_fb, byteAt_withParams, hz,
    plotAll_policy p.drawEdge h]

theorem execDraw_withParams {x y n : Nibble} {s t : State} (p : Params) (h : execDraw x y n s = .next t) (ht : t.diag = 0) :
    execDraw x y n (s.withParams p) = .next (t.withParams p) := by
  cases h
  have hedge : (drawSprite x y n s).edge = false := eq_false_of_diagIf ht
  rw [execDraw_eq, drawSprite_withParams p hedge]
  rfl

/-- `FONT_LOW_NIBBLE` matters only to Vx > 0xF (R222). -/
theorem fontDigit_withParams {b : Byte} (s : State) (p : Params) (h : b.toNat ≤ 0xF) :
    fontDigit b (s.withParams p) = fontDigit b s := by
  have hdigit (u : State) : fontDigit b u = b.toNat := by
    unfold fontDigit
    split
    · exact Nat.mod_eq_of_lt (by omega)
    · rfl
  rw [hdigit, hdigit]

/-- `KEY_INDEX_MODE` matters only to Vx > 0xF (R252). -/
theorem keyDown_withParams {b : Byte} {s : State} (p : Params) (h : (keyDown b s).2.diag = 0) :
    keyDown b (s.withParams p) = ((keyDown b s).1, (keyDown b s).2.withParams p) := by
  have hle : b.toNat ≤ 0xF := by
    by_contra hgt
    rw [keyDown_snd, if_neg hgt] at h
    exact absurd (eq_false_of_diagIf (b := true) (c := .keyRange) (s := s) h) (by decide)
  have hkey (u : State) : keyDown b u = (u.keyAt (b.setWidth 4), u) := by
    simp only [keyDown, lt_nkeys, if_pos hle]
  rw [hkey, hkey]
  rfl

/-- An instruction that ends with DIAG = 0 gives the same result under other parameters with the same FONT_BASE. -/
theorem exec_withParams {i : Instr} {s t : State} {p : Params} (hfont : p.fontBase = s.params.fontBase)
    (h : exec i s = .next t) (ht : t.diag = 0) : exec i (s.withParams p) = .next (t.withParams p) := by
  cases i with
  | call nnn => cases h; exact congrArg (fun u : State => Host.Outcome.next (u.setPc _)) (push_withParams s.pc s p)
  | addWithCarry x y | subWithBorrow x y | subReverseWithBorrow x y =>
    cases h; exact congrArg Host.Outcome.next (flagBinary_withParams p ht)
  | shiftRight x y | shiftLeft x y => cases h; exact congrArg Host.Outcome.next (flagShift_withParams p ht)
  | draw x y n => exact execDraw_withParams p h ht
  | skipIfKey x => cases h; exact congrArg (fun r => Host.Outcome.next (skipIf r.1 r.2)) (keyDown_withParams p ht)
  | skipIfNotKey x => cases h; exact congrArg (fun r => Host.Outcome.next (skipIf (!r.1) r.2)) (keyDown_withParams p ht)
  | fontAddr x =>
    cases h
    have hle : (s.reg x).toNat ≤ 0xF := by simpa using eq_false_of_diagIf ht
    simp only [exec, execFontAddr, withParams_reg, withParams_params, fontDigit_withParams s p hle, hfont]
    rfl
  | bcd x => cases h; simp only [exec, execBcd, withParams_i, withParams_reg, dataWrite_withParams]
  | storeRegs x => cases h; exact congrArg Host.Outcome.next (storeRange_withParams _ s p)
  | loadRegs x => cases h; exact congrArg Host.Outcome.next (loadRange_withParams _ s p)
  | clear | ret | jump | skipEqImm | skipNeImm | skipEqReg | loadImm | addImm | loadReg | orReg | andReg | xorReg
  | skipNeReg | loadI | jumpOffset | rand | readDT | waitKey | writeDT | writeST | addI | nop => cases h; rfl

/-! ### Decoding under either SKIP9_STRICT -/

theorem hasDiag_diagIf_same {b : Bool} (c : DiagCause) (s : State) (h : b = true) : (diagIf b c s).hasDiag c = true := by
  rw [hasDiag_diagIf, h, decide_eq_true rfl, Bool.and_self, Bool.or_true]

/-- 9xyN with N ≠ 0 records UNLISTED under either SKIP9_STRICT (R97). -/
theorem hasDiag_unlisted_of_skip9 {b : Bool} {w : Word} {s t : State} (hfam : fieldFamily w = 9) (hn : fieldN w ≠ 0)
    (h : exec (decodeWord b w) s = .next t) : t.hasDiag .unlisted = true := by
  cases b with
  | false =>
    have hd : decodeWord false w = .skipNeReg (fieldX w) (fieldY w) (fieldN w) := by simp [decodeWord, hfam]
    rw [hd] at h
    cases h
    exact hasDiag_diagIf_same (b := fieldN w != 0) .unlisted s (bne_iff_ne.2 hn)
  | true =>
    have hd : decodeWord true w = .nop w := by
      simp only [decodeWord, hfam]
      exact if_neg fun hc => hc.elim hn nofun
    rw [hd] at h
    cases h
    exact hasDiag_diagIf_same .unlisted s rfl

/-- SKIP9_STRICT is read for no other word. -/
theorem decodeWord_strict (b b' : Bool) {w : Word} (h : ¬(fieldFamily w = 9 ∧ fieldN w ≠ 0)) :
    decodeWord b' w = decodeWord b w := by
  unfold decodeWord
  split <;> simp_all

/-! ### Steps and runs -/

/-- A step that ends with DIAG = 0 is the same step under other parameters with the same LOAD_ADDR and FONT_BASE. -/
theorem step_withParams {s t : State} {p : Params} (hload : p.loadAddr = s.params.loadAddr)
    (hfont : p.fontBase = s.params.fontBase) (h : step s = .next t) (ht : t.diag = 0) :
    step (s.withParams p) = .next (t.withParams p) := by
  obtain ⟨r, hw, rfl⟩ | ⟨hw, hexec⟩ := step_cases h
  · exact step_of_waiting hw
  · have h9 : ¬(fieldFamily (fetchWord s) = 9 ∧ fieldN (fetchWord s) ≠ 0) := by
      rintro ⟨hfam, hn⟩
      have hbit := hasDiag_unlisted_of_skip9 hfam hn hexec
      rw [State.hasDiag, ht] at hbit
      exact absurd hbit (by decide)
    have hw' : (s.withParams p).wait = none := hw
    rw [step_of_running hw', fetchWord_withParams, fetch_withParams hload, decodeWord_strict s.params.skip9Strict _ h9]
    exact exec_withParams hfont hexec ht

end Sys2Proof.Machine

namespace Sys2Proof

open Machine

/-- Settles O56: by induction on the steps, since DIAG is 0 after every one of them. -/
theorem diagnosticFreeRunsIgnoreParameters : Obligations.DiagnosticFreeRunsIgnoreParameters := by
  intro k
  induction k with
  | zero =>
    intro s t p _ _ h _
    cases h
    rfl
  | succ k ih =>
    intro s t p hload hfont h ht
    obtain ⟨u, hu, hrun⟩ := coreRun_succ.1 h
    have hparams := step_params hu
    refine coreRun_succ.2 ⟨u.withParams p, ?_, ih u t p (hparams ▸ hload) (hparams ▸ hfont) hrun ht⟩
    exact step_withParams hload hfont hu (diag_eq_zero_of_coreRun hrun ht)

end Sys2Proof
/-! ## Reset contents that nothing reads (R42)

`SameBut q s s'`: the machine `s'` is `s` but for RESET_FILL and the elements of which `q` holds. An instruction that reads
none of those elements makes the same transition from both, and the elements it writes agree afterwards. -/

namespace Sys2Proof.Machine

open Claim

/-! ### The elements that RESET_FILL gives, as one part of the state -/

/-- The elements whose reset contents `RESET_FILL` gives, and RESET_FILL itself. -/
structure Fill where
  v : Vector Byte 16
  i : Word
  stack : Vector Word 16
  dt : Byte
  st : Byte
  resetFill : ResetFill

def State.fill (s : State) : Fill :=
  { v := s.v, i := s.i, stack := s.stack, dt := s.dt, st := s.st, resetFill := s.params.resetFill }

/-- The state with the elements of `f` and everything else as in `s`. -/
def State.withFill (s : State) (f : Fill) : State :=
  { s with
    v := f.v, i := f.i, stack := f.stack, dt := f.dt, st := f.st
    params := { s.params with resetFill := f.resetFill } }

/-- `s'` differs from `s` in no more than RESET_FILL and the elements of which `q` holds: `Claim.AgreeOutside`, with a
predicate for the list. -/
def SameBut (q : FillElement → Prop) (s s' : State) : Prop :=
  (∀ e, ¬q e → elementValue s' e = elementValue s e) ∧ s' = s.withFill s'.fill

theorem agreeOutside_iff {u : List FillElement} {s s' : State} : AgreeOutside u s s' ↔ SameBut (· ∈ u) s s' := Iff.rfl

/-! ### What each operation writes -/

theorem elementValue_congr {s t : State} (h : t.fill = s.fill) (e : FillElement) :
    elementValue t e = elementValue s e := by
  have hs : elementValue s e = elementValue (State.reset.withFill s.fill) e := by cases e <;> rfl
  have ht : elementValue t e = elementValue (State.reset.withFill t.fill) e := by cases e <;> rfl
  rw [hs, ht, h]

theorem elementValue_setReg_of_ne {x : Nibble} {e : FillElement} (b : Byte) (s : State) (h : e ≠ .v x) :
    elementValue (s.setReg x b) e = elementValue s e := by
  cases e with
  | v r => exact congrArg BitVec.toNat (reg_setReg_of_ne b fun hr => h (hr ▸ rfl))
  | i | stack | dt | st => rfl

theorem elementValue_setReg_same (x : Nibble) (b : Byte) (s : State) : elementValue (s.setReg x b) (.v x) = b.toNat :=
  congrArg BitVec.toNat (reg_setReg_same s x b)

theorem elementValue_setI_of_ne {e : FillElement} (a : Word) (s : State) (h : e ≠ .i) :
    elementValue (s.setI a) e = elementValue s e := by
  cases e with
  | i => exact absurd rfl h
  | v | stack | dt | st => rfl

theorem elementValue_setDT_of_ne {e : FillElement} (b : Byte) (s : State) (h : e ≠ .dt) :
    elementValue (s.setDT b) e = elementValue s e := by
  cases e with
  | dt => exact absurd rfl h
  | v | i | stack | st => rfl

theorem elementValue_setST_of_ne {e : FillElement} (b : Byte) (s : State) (h : e ≠ .st) :
    elementValue (s.setST b) e = elementValue s e := by
  cases e with
  | st => exact absurd rfl h
  | v | i | stack | dt => rfl

/-- The element that SP names. -/
def State.topElement (s : State) : FillElement := .stack (BitVec.ofNat 4 s.stackIndex.val)

theorem elementValue_push_of_ne {e : FillElement} (a : Word) (s : State) (h : e ≠ s.topElement) :
    elementValue (push a s) e = elementValue s e := by
  cases e with
  | stack k =>
    have hk : s.stackIndex.val ≠ k.toNat := fun hk =>
      h (by rw [State.topElement, hk, BitVec.ofNat_toNat, BitVec.setWidth_eq])
    simp only [elementValue, push_stack, Vector.getElem?_set, if_neg hk]
  | v | i | dt | st => rfl

theorem elementValue_push_same (a : Word) (s : State) : elementValue (push a s) s.topElement = a.toNat := by
  have hk : (BitVec.ofNat 4 s.stackIndex.val).toNat = s.stackIndex.val := Nat.mod_eq_of_lt s.stackIndex.isLt
  simp only [elementValue, State.topElement, hk, push_stack, Vector.getElem?_set_self, Option.elim]

namespace SameBut

variable {q : FillElement → Prop} {s s' : State}

theorem mono {q' : FillElement → Prop} (h : SameBut q s s') (hq : ∀ e, q e → q' e) : SameBut q' s s' :=
  ⟨fun e he => h.1 e (mt (hq e) he), h.2⟩

/-- An operation that reads and writes none of the elements keeps the relation. -/
theorem keep (g : State → State) (h : SameBut q s s') (hg : ∀ u f, g (u.withFill f) = (g u).withFill f)
    (hfill : ∀ u, (g u).fill = u.fill) : SameBut q (g s) (g s') := by
  refine ⟨fun e he => ?_, ?_⟩
  · rw [elementValue_congr (hfill s'), elementValue_congr (hfill s), h.1 e he]
  · rw [hfill s', ← hg, ← h.2]

/-- An operation that writes the element `e₀`, and writes the same to it in both, leaves the two equal there. -/
theorem write (g : State → State) (e₀ : FillElement) (h : SameBut q s s')
    (hsame : elementValue (g s') e₀ = elementValue (g s) e₀)
    (hother : ∀ e, e ≠ e₀ → elementValue (g s) e = elementValue s e ∧ elementValue (g s') e = elementValue s' e)
    (hg : ∀ u f, g (u.withFill f) = (g u).withFill (g (u.withFill f)).fill) :
    SameBut (fun e => q e ∧ e ≠ e₀) (g s) (g s') := by
  refine ⟨fun e he => ?_, ?_⟩
  · by_cases h₀ : e = e₀
    · exact h₀ ▸ hsame
    · rw [(hother e h₀).1, (hother e h₀).2, h.1 e fun hq => he ⟨hq, h₀⟩]
  · have hs := hg s s'.fill
    rwa [← h.2] at hs

theorem setReg (x : Nibble) {b b' : Byte} (hb : b' = b) (h : SameBut q s s') :
    SameBut (fun e => q e ∧ e ≠ .v x) (s.setReg x b) (s'.setReg x b') := by
  subst hb
  exact h.write (·.setReg x b') (.v x) (by simp only [elementValue_setReg_same])
    (fun _ he => ⟨elementValue_setReg_of_ne b' s he, elementValue_setReg_of_ne b' s' he⟩) fun _ _ => rfl

theorem setI {a a' : Word} (ha : a' = a) (h : SameBut q s s') :
    SameBut (fun e => q e ∧ e ≠ .i) (s.setI a) (s'.setI a') := by
  subst ha
  exact h.write (·.setI a') .i rfl
    (fun _ he => ⟨elementValue_setI_of_ne a' s he, elementValue_setI_of_ne a' s' he⟩) fun _ _ => rfl

theorem setDT {b b' : Byte} (hb : b' = b) (h : SameBut q s s') :
    SameBut (fun e => q e ∧ e ≠ .dt) (s.setDT b) (s'.setDT b') := by
  subst hb
  exact h.write (·.setDT b') .dt rfl
    (fun _ he => ⟨elementValue_setDT_of_ne b' s he, elementValue_setDT_of_ne b' s' he⟩) fun _ _ => rfl

theorem setST {b b' : Byte} (hb : b' = b) (h : SameBut q s s') :
    SameBut (fun e => q e ∧ e ≠ .st) (s.setST b) (s'.setST b') := by
  subst hb
  exact h.write (·.setST b') .st rfl
    (fun _ he => ⟨elementValue_setST_of_ne b' s he, elementValue_setST_of_ne b' s' he⟩) fun _ _ => rfl

theorem push {a a' : Word} (ha : a' = a) (h : SameBut q s s') :
    SameBut (fun e => q e ∧ e ≠ s.topElement) (push a s) (push a' s') := by
  subst ha
  have htop : s'.topElement = s.topElement := by rw [h.2]; rfl
  refine h.write (Machine.push a') s.topElement ?_ (fun e he => ?_) fun _ _ => rfl
  · rw [elementValue_push_same, ← htop, elementValue_push_same]
  · exact ⟨elementValue_push_of_ne a' s he, elementValue_push_of_ne a' s' (htop ▸ he)⟩

/-! ### Reads -/

theorem reg (h : SameBut q s s') {x : Nibble} (hx : ¬q (.v x)) : s'.reg x = s.reg x := BitVec.eq_of_toNat_eq (h.1 _ hx)

theorem i (h : SameBut q s s') (hi : ¬q .i) : s'.i = s.i := BitVec.eq_of_toNat_eq (h.1 _ hi)

theorem dt (h : SameBut q s s') (hdt : ¬q .dt) : s'.dt = s.dt := BitVec.eq_of_toNat_eq (h.1 _ hdt)

theorem st (h : SameBut q s s') (hst : ¬q .st) : s'.st = s.st := BitVec.eq_of_toNat_eq (h.1 _ hst)

/-- What reads no element of `Fill` reads the same in both. -/
theorem rest {α : Type} (g : State → α) (h : SameBut q s s') (hg : ∀ u f, g (u.withFill f) = g u) : g s' = g s := by
  rw [h.2, hg]

theorem byteAt (h : SameBut q s s') (a : Nat) : s'.byteAt a = s.byteAt a := h.rest (·.byteAt a) fun _ _ => rfl

/-! ### Stores, loads and draws -/

theorem diagIf (b : Bool) (c : DiagCause) (h : SameBut q s s') : SameBut q (diagIf b c s) (diagIf b c s') :=
  h.keep (Machine.diagIf b c) (fun _ _ => rfl) fun _ => rfl

theorem dataWrite (a : Nat) (b : Byte) (h : SameBut q s s') : SameBut q (dataWrite a b s) (dataWrite a b s') :=
  h.keep (Machine.dataWrite a b) (fun _ _ => rfl) fun _ => rfl

theorem storeRange (ks : List Nat) (h : SameBut q s s') (hi : ¬q .i) (hv : ∀ k ∈ ks, ¬q (.v (BitVec.ofNat 4 k))) :
    SameBut q (storeRange ks s) (storeRange ks s') := by
  induction ks generalizing s s' with
  | nil => exact h
  | cons k ks ih =>
    rw [Machine.storeRange, Machine.storeRange, h.i hi, h.reg (hv k List.mem_cons_self)]
    exact ih (h.dataWrite _ _) fun j hj => hv j (List.mem_cons_of_mem _ hj)

theorem loadRange (ks : List Nat) (h : SameBut q s s') (hi : ¬q .i) :
    SameBut (fun e => q e ∧ e ∉ ks.map fun k => .v (BitVec.ofNat 4 k)) (loadRange ks s) (loadRange ks s') := by
  induction ks generalizing q s s' with
  | nil => exact h.mono fun e he => ⟨he, by simp⟩
  | cons k ks ih =>
    have hstep := (h.diagIf (decide (s.i.toNat + k > 0xFFF)) .iRange).setReg (BitVec.ofNat 4 k)
      (h.byteAt (s.i.toNat + k))
    rw [Machine.loadRange, Machine.loadRange, h.i hi]
    exact (ih hstep fun hq => hi hq.1).mono fun e he => ⟨he.1.1, by
      rw [List.map_cons, List.mem_cons, not_or]
      exact ⟨he.1.2, he.2⟩⟩

theorem flagThenResult (flag : Byte → Byte → Bool) (result : Byte → Byte → Byte) {x y : Nibble} (h : SameBut q s s')
    (hx : ¬q (.v x)) (hy : ¬q (.v y)) :
    SameBut (fun e => (q e ∧ e ≠ .v vf) ∧ e ≠ .v x) (flagThenResult flag result x y s)
      (flagThenResult flag result x y s') := by
  have hmode : s'.params.operandRead = s.params.operandRead := h.rest (·.params.operandRead) fun _ _ => rfl
  cases hm : s.params.operandRead with
  | latched =>
    rw [flagThenResult_latched hm, flagThenResult_latched (hmode.trans hm), h.reg hx, h.reg hy]
    exact (h.setReg _ rfl).setReg _ rfl
  | sequential =>
    rw [flagThenResult_sequential hm, flagThenResult_sequential (hmode.trans hm), h.reg hx, h.reg hy]
    exact (h.setReg _ rfl).setReg _ rfl

theorem keyDown (b : Byte) (h : SameBut q s s') :
    (keyDown b s').1 = (keyDown b s).1 ∧ SameBut q (keyDown b s).2 (keyDown b s').2 := by
  refine ⟨h.rest (fun u => (Machine.keyDown b u).1) fun u f => ?_,
    h.keep (fun u => (Machine.keyDown b u).2) (fun u f => ?_) fun u => ?_⟩
  · simp only [keyDown_fst]
    rfl
  · simp only [keyDown_snd]
    rfl
  · simp only [keyDown_snd]
    rfl

theorem drawSprite {x y : Nibble} (n : Nibble) (h : SameBut q s s') (hx : ¬q (.v x)) (hy : ¬q (.v y)) (hi : ¬q .i) :
    drawSprite x y n s' = drawSprite x y n s := by
  unfold Machine.drawSprite
  rw [h.reg hx, h.reg hy, h.i hi]
  exact h.rest (fun u => plotRows u.params.sizes u.params.drawEdge (fun r => u.byteAt (s.i.toNat + r))
    ((s.reg x).toNat % u.params.sizes.fbW) ((s.reg y).toNat % u.params.sizes.fbH) (List.range n.toNat)
    { fb := u.fb, hit := false, edge := false }) fun _ _ => rfl

theorem setPc {a a' : Word} (ha : a' = a) (h : SameBut q s s') : SameBut q (s.setPc a) (s'.setPc a') :=
  ha ▸ h.keep (·.setPc a) (fun _ _ => rfl) fun _ => rfl

theorem skipIf {b b' : Bool} (hb : b' = b) (h : SameBut q s s') : SameBut q (skipIf b s) (skipIf b' s') :=
  hb ▸ h.keep (Machine.skipIf b) (fun _ _ => rfl) fun _ => rfl

theorem pop (h : SameBut q s s') : SameBut q (pop s) (pop s') :=
  h.keep Machine.pop (fun _ _ => rfl) fun _ => rfl

theorem popValue (h : SameBut q s s') (hq : ¬q (.stack (BitVec.ofNat 4 ((s.sp.toNat + 1) % 16)))) :
    s'.popValue = s.popValue := by
  have hsp : s'.sp = s.sp := h.rest (·.sp) fun _ _ => rfl
  have hlt : (s.sp.toNat + 1) % 16 < 16 := Nat.mod_lt _ (by decide)
  have hk : (BitVec.ofNat 4 ((s.sp.toNat + 1) % 16)).toNat = (s.sp.toNat + 1) % 16 := Nat.mod_eq_of_lt hlt
  have hval := h.1 _ hq
  simp only [elementValue, hk, Vector.getElem?_eq_getElem hlt, Option.elim] at hval
  simp only [State.popValue, hsp]
  exact BitVec.eq_of_toNat_eq hval

theorem fetch (h : SameBut q s s') : SameBut q (fetch s) (fetch s') :=
  h.keep Machine.fetch (fun _ _ => rfl) fun _ => rfl

/-- The two-operand flag instructions (R182). -/
theorem flagBinary (flag : Byte → Byte → Bool) (result : Byte → Byte → Byte) {x y : Nibble} (h : SameBut q s s')
    (hx : ¬q (.v x)) (hy : ¬q (.v y)) :
    SameBut (fun e => q e ∧ e ∉ [.v 0xF, .v x]) (flagBinary flag result x y s) (flagBinary flag result x y s') :=
  ((h.diagIf (x == vf || y == vf) .vfOperand).flagThenResult flag result hx hy).mono
    fun e he => ⟨he.1.1, by simpa using ⟨he.1.2, he.2⟩⟩

/-- The shifts (R182). -/
theorem flagShift (flag : Byte → Bool) (result : Byte → Byte) {x : Nibble} (h : SameBut q s s') (hx : ¬q (.v x)) :
    SameBut (fun e => q e ∧ e ∉ [.v 0xF, .v x]) (flagShift flag result x s) (flagShift flag result x s') :=
  ((h.diagIf (x == vf) .vfOperand).flagThenResult (fun a _ => flag a) (fun a _ => result a) hx hx).mono
    fun e he => ⟨he.1.1, by simpa using ⟨he.1.2, he.2⟩⟩

/-- Fx29 (R222). -/
theorem fontAddr {x : Nibble} (h : SameBut q s s') (hx : ¬q (.v x)) :
    ∃ t t', execFontAddr x s = .next t ∧ execFontAddr x s' = .next t' ∧ SameBut (fun e => q e ∧ e ≠ .i) t t' := by
  have hglyph : glyphAddress s'.params.fontBase (fontDigit (s.reg x) s') =
      glyphAddress s.params.fontBase (fontDigit (s.reg x) s) :=
    h.rest (fun u => glyphAddress u.params.fontBase (fontDigit (s.reg x) u)) fun _ _ => rfl
  refine ⟨_, _, rfl, rfl, ?_⟩
  rw [h.reg hx, hglyph]
  exact (h.diagIf _ .fontRange).setI rfl

/-- Dxyn (R121). -/
theorem draw {x y : Nibble} (n : Nibble) (h : SameBut q s s') (hx : ¬q (.v x)) (hy : ¬q (.v y)) (hi : ¬q .i) :
    ∃ t t', execDraw x y n s = .next t ∧ execDraw x y n s' = .next t' ∧ SameBut (fun e => q e ∧ e ≠ .v 0xF) t t' := by
  have hwraps : spriteWraps n s' = spriteWraps n s := by simp only [spriteWraps, h.i hi]
  refine ⟨_, _, rfl, rfl, ?_⟩
  rw [h.drawSprite n hx hy hi, hwraps]
  have hdiag := (h.diagIf (spriteWraps n s) .iRange).diagIf (Machine.drawSprite x y n s).edge .drawEdge
  have hfb := hdiag.keep (·.setFb (Machine.drawSprite x y n s).fb) (fun _ _ => rfl) fun _ => rfl
  exact (hfb.setReg vf rfl).keep (·.setDrawReq true) (fun _ _ => rfl) fun _ => rfl

end SameBut

theorem mem_regElements {x : Nibble} {k : Nat} (h : k ∈ regRange x) : .v (BitVec.ofNat 4 k) ∈ regElements x :=
  List.mem_map_of_mem (f := fun k => FillElement.v (BitVec.ofNat 4 k)) h

/-- An instruction that reads none of the differing elements makes the same transition from both, and what it writes
agrees afterwards (R43). -/
theorem exec_sameBut {q : FillElement → Prop} {i : Instr} {s s' : State} (h : SameBut q s s')
    (hr : ∀ e ∈ readElements i s, ¬q e) :
    ∃ t t', exec i s = .next t ∧ exec i s' = .next t' ∧ SameBut (fun e => q e ∧ e ∉ writtenElements i s) t t' := by
  have hnone {t t' : State} (ht : SameBut q t t') : SameBut (fun e => q e ∧ e ∉ []) t t' := ht.mono (by simp)
  have hone {t t' : State} {e₀ : FillElement} (ht : SameBut (fun e => q e ∧ e ≠ e₀) t t') :
      SameBut (fun e => q e ∧ e ∉ [e₀]) t t' := ht.mono (by simp)
  have hv (x : Nibble) (hx : .v x ∈ readElements i s) : s'.reg x = s.reg x := h.reg (hr _ hx)
  cases i with
  | clear =>
    exact ⟨_, _, rfl, rfl, hnone (h.keep (fun u => (u.setFb clearedFb).setDrawReq true) (fun _ _ => rfl) fun _ => rfl)⟩
  | ret => exact ⟨_, _, rfl, rfl, hnone (h.pop.setPc (h.popValue (hr _ (.head _))))⟩
  | jump nnn => exact ⟨_, _, rfl, rfl, hnone (h.setPc rfl)⟩
  | call nnn => exact ⟨_, _, rfl, rfl, hone ((h.push (h.rest State.pc fun _ _ => rfl)).setPc rfl)⟩
  | skipEqImm x nn | skipNeImm x nn => exact ⟨_, _, rfl, rfl, hnone (h.skipIf (by rw [hv x (.head _)]))⟩
  | skipEqReg x y =>
    exact ⟨_, _, rfl, rfl, hnone (h.skipIf (by rw [hv x (.head _), hv y (.tail _ (.head _))]))⟩
  | skipNeReg x y n =>
    exact ⟨_, _, rfl, rfl, hnone ((h.diagIf _ _).skipIf (by rw [hv x (.head _), hv y (.tail _ (.head _))]))⟩
  | loadImm x nn => exact ⟨_, _, rfl, rfl, hone (h.setReg x rfl)⟩
  | addImm x nn => exact ⟨_, _, rfl, rfl, hone (h.setReg x (by rw [hv x (.head _)]))⟩
  | loadReg x y => exact ⟨_, _, rfl, rfl, hone (h.setReg x (hv y (.head _)))⟩
  | orReg x y | andReg x y | xorReg x y =>
    exact ⟨_, _, rfl, rfl, hone (h.setReg x (by rw [hv x (.head _), hv y (.tail _ (.head _))]))⟩
  | addWithCarry x y | subWithBorrow x y | subReverseWithBorrow x y =>
    exact ⟨_, _, rfl, rfl, h.flagBinary _ _ (hr _ (.head _)) (hr _ (.tail _ (.head _)))⟩
  | shiftRight x y | shiftLeft x y => exact ⟨_, _, rfl, rfl, h.flagShift _ _ (hr _ (.head _))⟩
  | loadI nnn => exact ⟨_, _, rfl, rfl, hone (h.setI rfl)⟩
  | jumpOffset nnn =>
    have htarget : offsetTarget nnn s' = offsetTarget nnn s := by rw [offsetTarget, hv 0 (.head _), offsetTarget]
    exact ⟨_, _, rfl, rfl, hnone (h.setPc htarget)⟩
  | rand x nn =>
    have hdraws : s'.draws = s.draws := h.rest State.draws fun _ _ => rfl
    have hcount := h.keep State.countDraw (fun _ _ => rfl) fun _ => rfl
    exact ⟨_, _, rfl, rfl, hone (hcount.setReg x (by rw [hdraws]))⟩
  | draw x y n =>
    obtain ⟨t, t', ht, ht', hsame⟩ :=
      h.draw n (hr _ (.head _)) (hr _ (.tail _ (.head _))) (hr _ (.tail _ (.tail _ (.head _))))
    exact ⟨t, t', ht, ht', hone hsame⟩
  | skipIfKey x | skipIfNotKey x =>
    obtain ⟨hdown, hsame⟩ := h.keyDown (s.reg x)
    refine ⟨_, _, rfl, rfl, hnone ?_⟩
    rw [hv x (.head _), hdown]
    exact hsame.skipIf rfl
  | readDT x => exact ⟨_, _, rfl, rfl, hone (h.setReg x (h.dt (hr _ (.head _))))⟩
  | waitKey x => exact ⟨_, _, rfl, rfl, hnone (h.keep (·.setWait (some x)) (fun _ _ => rfl) fun _ => rfl)⟩
  | writeDT x => exact ⟨_, _, rfl, rfl, hone (h.setDT (hv x (.head _)))⟩
  | writeST x => exact ⟨_, _, rfl, rfl, hone (h.setST (hv x (.head _)))⟩
  | addI x => exact ⟨_, _, rfl, rfl, hone (h.setI (by rw [h.i (hr _ (.head _)), hv x (.tail _ (.head _))]))⟩
  | fontAddr x =>
    obtain ⟨t, t', ht, ht', hsame⟩ := h.fontAddr (hr _ (.head _))
    exact ⟨t, t', ht, ht', hone hsame⟩
  | bcd x =>
    refine ⟨_, _, rfl, rfl, hnone ?_⟩
    rw [hv x (.head _), h.i (hr _ (.tail _ (.head _)))]
    exact ((h.dataWrite _ _).dataWrite _ _).dataWrite _ _
  | storeRegs x =>
    exact ⟨_, _, rfl, rfl, hnone (h.storeRange _ (hr _ (.head _)) fun k hk => hr _ (.tail _ (mem_regElements hk)))⟩
  | loadRegs x => exact ⟨_, _, rfl, rfl, h.loadRange (regRange x) (hr _ (.head _))⟩
  | nop w => exact ⟨_, _, rfl, rfl, hnone (h.diagIf true .unlisted)⟩

end Sys2Proof.Machine
/-! ## Tracked runs (R42) -/

namespace Sys2Proof.Machine

/-! ### What a tracked operation reads and leaves unwritten -/

theorem opReads_step_of_running {s : State} (h : s.wait = none) :
    opReads .step s = readElements (decodeWord s.params.skip9Strict (fetchWord s)) (fetch s) := by
  simp only [opReads, h]

theorem opReads_initializeOp (image : List Byte) (mode : LoadMode) (s : State) :
    opReads (.initializeOp image mode) s = [] := by
  simp only [opReads]

theorem stillUnwritten_initializeOp (image : List Byte) (mode : LoadMode) {s : State} (u : List FillElement)
    (h : s.params.resetFill = .unwritten) : stillUnwritten (.initializeOp image mode) s u = allElements := by
  simp only [stillUnwritten, h, if_true]

theorem mem_stillUnwritten_step {s : State} {u : List FillElement} {e : FillElement} (h : s.wait = none) :
    e ∈ stillUnwritten .step s u ↔
      e ∈ u ∧ e ∉ writtenElements (decodeWord s.params.skip9Strict (fetchWord s)) (fetch s) := by
  simp [stillUnwritten, h]

theorem mem_stillUnwritten_press {k r : Nibble} {s : State} {u : List FillElement} {e : FillElement}
    (h : s.wait = some r) : e ∈ stillUnwritten (.setKey k true) s u ↔ e ∈ u ∧ e ≠ .v r := by
  simp [stillUnwritten, h]

theorem stillUnwritten_press_of_running {k : Nibble} {s : State} (u : List FillElement) (h : s.wait = none) :
    stillUnwritten (.setKey k true) s u = u := by
  simp only [stillUnwritten, h]

theorem stillUnwritten_step_of_waiting {s : State} {r : Nibble} (u : List FillElement) (h : s.wait = some r) :
    stillUnwritten .step s u = u := by
  simp only [stillUnwritten, h]

/-- With RESET_FILL = zero and nothing unwritten, nothing becomes unwritten. -/
theorem stillUnwritten_nil (op : HostOp) {s : State} (h : s.params.resetFill = .zero) : stillUnwritten op s [] = [] := by
  unfold stillUnwritten
  split <;> simp [h]

/-- No operation changes RESET_FILL (log 1). -/
theorem applyOp_resetFill {op : HostOp} {s t : State} (h : applyOp op s = .next t) :
    t.params.resetFill = s.params.resetFill := by
  cases op with
  | initializeOp image mode => cases h; rfl
  | step => rw [step_params h]
  | tickTimers => cases h; rfl
  | setKey k d => cases h; rw [setKey_eq]
  | ackDraw => cases h; rfl
  | ackBeep => cases h; rfl

theorem applyOp_total (op : HostOp) (s : State) : ∃ t, applyOp op s = .next t := by
  cases op with
  | step => exact step_total s
  | initializeOp | tickTimers | setKey | ackDraw | ackBeep => exact ⟨_, rfl⟩

/-- A press while a wait is pending writes the key's index and ends the wait (R312). -/
theorem setKey_press_of_waiting {k r : Nibble} {s : State} (h : s.wait = some r) :
    setKey k true s = ((s.setKeyAt k true).setReg r (k.setWidth 8)).setWait none := by
  simp only [setKey, h]

theorem setKey_press_of_running {k : Nibble} {s : State} (h : s.wait = none) : setKey k true s = s.setKeyAt k true := by
  simp only [setKey, h]

/-! ### One operation -/

namespace SameBut

variable {s s' : State} {u : List FillElement}

theorem step (h : SameBut (· ∈ u) s s') (hr : ∀ e ∈ opReads .step s, e ∉ u) :
    ∃ t t', step s = .next t ∧ step s' = .next t' ∧ SameBut (· ∈ stillUnwritten .step s u) t t' := by
  have hwait : s'.wait = s.wait := h.rest State.wait fun _ _ => rfl
  cases hw : s.wait with
  | some r =>
    refine ⟨s, s', step_of_waiting hw, step_of_waiting (hwait.trans hw), ?_⟩
    rwa [stillUnwritten_step_of_waiting u hw]
  | none =>
    rw [opReads_step_of_running hw] at hr
    obtain ⟨t, t', ht, ht', hsame⟩ := exec_sameBut h.fetch hr
    have hdecode : decodeWord s'.params.skip9Strict (fetchWord s') = decodeWord s.params.skip9Strict (fetchWord s) :=
      h.rest (fun u => decodeWord u.params.skip9Strict (fetchWord u)) fun _ _ => rfl
    refine ⟨t, t', (step_of_running hw).trans ht, ?_, hsame.mono fun e he => (mem_stillUnwritten_step hw).2 he⟩
    rw [step_of_running (hwait.trans hw), hdecode, ht']

theorem setBeepReq {q : FillElement → Prop} (b : Bool) (h : SameBut q s s') :
    SameBut q (s.setBeepReq b) (s'.setBeepReq b) :=
  h.keep (·.setBeepReq b) (fun _ _ => rfl) fun _ => rfl

theorem tickTimers (h : SameBut (· ∈ u) s s') (hdt : .dt ∉ u) (hst : .st ∉ u) :
    SameBut (· ∈ u) (tickTimers s) (tickTimers s') := by
  have htick (u : State) : Machine.tickTimers u = ((u.setDT (tickDown u.dt)).setST (tickDown u.st)).setBeepReq
      (if u.st.toNat > 0 ∧ tickDown u.st = 0 then true else u.beepReq) := rfl
  rw [htick, htick, h.dt hdt, h.st hst, h.rest State.beepReq fun _ _ => rfl]
  exact (((h.setDT rfl).setST rfl).setBeepReq _).mono fun e he => he.1.1

theorem setKey (k : Nibble) (d : Bool) (h : SameBut (· ∈ u) s s') :
    SameBut (· ∈ stillUnwritten (.setKey k d) s u) (setKey k d s) (setKey k d s') := by
  have hkey (d : Bool) := h.keep (·.setKeyAt k d) (fun _ _ => rfl) fun _ => rfl
  have hwait : s'.wait = s.wait := h.rest State.wait fun _ _ => rfl
  cases d with
  | false => exact hkey false
  | true =>
    cases hw : s.wait with
    | none =>
      rw [stillUnwritten_press_of_running u hw, setKey_press_of_running hw, setKey_press_of_running (hwait.trans hw)]
      exact hkey true
    | some r =>
      rw [setKey_press_of_waiting hw, setKey_press_of_waiting (hwait.trans hw)]
      exact (((hkey true).setReg r rfl).keep (·.setWait none) (fun _ _ => rfl) fun _ => rfl).mono
        fun e he => (mem_stillUnwritten_press hw).2 he

/-- `initialize` keeps the configuration and the count of draws, and gives every other element anew. -/
theorem initializeOp (image : List Byte) (mode : LoadMode) (h : SameBut (· ∈ u) s s') :
    SameBut (· ∈ allElements) (initializeOp image mode s) (initializeOp image mode s') := by
  refine ⟨fun e he => absurd (mem_allElements e) he, ?_⟩
  rw [h.2]
  rfl

/-- An operation that reads no unwritten element makes the same transition from both machines, but for the elements still
unwritten. -/
theorem applyOp {op : HostOp} (h : SameBut (· ∈ u) s s') (hfill : s.params.resetFill = .unwritten)
    (hr : ∀ e ∈ opReads op s, e ∉ u) :
    ∃ t t', applyOp op s = .next t ∧ applyOp op s' = .next t' ∧ SameBut (· ∈ stillUnwritten op s u) t t' := by
  cases op with
  | initializeOp image mode =>
    rw [stillUnwritten_initializeOp image mode u hfill]
    exact ⟨_, _, rfl, rfl, h.initializeOp image mode⟩
  | step => exact h.step hr
  | tickTimers => exact ⟨_, _, rfl, rfl, h.tickTimers (hr _ (.head _)) (hr _ (.tail _ (.head _)))⟩
  | setKey k d => exact ⟨_, _, rfl, rfl, h.setKey k d⟩
  | ackDraw => exact ⟨_, _, rfl, rfl, h.keep Machine.ackDraw (fun _ _ => rfl) fun _ => rfl⟩
  | ackBeep => exact ⟨_, _, rfl, rfl, h.keep Machine.ackBeep (fun _ _ => rfl) fun _ => rfl⟩

end SameBut

/-! ### Runs -/

theorem runOps_cons {op : HostOp} {ops : List HostOp} {s t : State} (h : applyOp op s = .next t) :
    runOps (op :: ops) s = runOps ops t := by
  simp only [runOps, h]

theorem trackedRun_cons {op : HostOp} {ops : List HostOp} {a c : Tracked} :
    trackedRun (op :: ops) a = .next c ↔ ∃ b, trackedOp op a = .next b ∧ trackedRun ops b = .next c := by
  rw [trackedRun]
  cases trackedOp op a with
  | next b => exact ⟨fun h => ⟨b, rfl, h⟩, fun ⟨b', hb', h⟩ => Host.Outcome.next.inj hb' ▸ h⟩
  | fault f => exact ⟨nofun, fun ⟨_, h, _⟩ => nomatch h⟩
  | refused r => exact ⟨nofun, fun ⟨_, h, _⟩ => nomatch h⟩

/-- A read of an unwritten element stops a tracked operation at such a read (R42). -/
theorem trackedOp_fault {op : HostOp} {s : State} {u : List FillElement} {e : FillElement} (he : e ∈ opReads op s)
    (hu : e ∈ u) : ∃ e', e' ∈ opReads op s ∧ e' ∈ u ∧ trackedOp op ⟨s, u⟩ = .fault (.unwrittenRead e') := by
  have hsome : ((opReads op s).find? fun e => u.contains e).isSome := by
    rw [List.find?_isSome]
    exact ⟨e, he, List.contains_iff_mem.2 hu⟩
  obtain ⟨e', hfind⟩ := Option.isSome_iff_exists.1 hsome
  refine ⟨e', List.mem_of_find?_eq_some hfind, List.contains_iff_mem.1 (List.find?_some hfind), ?_⟩
  simp only [trackedOp, hfind]

/-- `initialize` reads nothing and makes every element unwritten (R42). -/
theorem trackedOp_initializeOp (image : List Byte) (mode : LoadMode) {s : State} (u : List FillElement)
    (h : s.params.resetFill = .unwritten) :
    trackedOp (.initializeOp image mode) ⟨s, u⟩ = .next ⟨initializeOp image mode s, allElements⟩ := by
  have hr : ∀ e ∈ opReads (.initializeOp image mode) s, e ∉ u := by simp [opReads_initializeOp]
  have hop : applyOp (.initializeOp image mode) s = .next (initializeOp image mode s) := rfl
  rw [trackedOp_of_reads hr hop, stillUnwritten_initializeOp image mode u h]

/-- Under RESET_FILL = unwritten, a tracked run that goes on is the machine's own, and the machine makes the same run from
any other contents of the unwritten elements. -/
theorem trackedRun_sameBut {ops : List HostOp} {s s' t : State} {u u' : List FillElement}
    (hfill : s.params.resetFill = .unwritten) (h : SameBut (· ∈ u) s s') (hrun : trackedRun ops ⟨s, u⟩ = .next ⟨t, u'⟩) :
    runOps ops s = .next t ∧ ∃ t', runOps ops s' = .next t' ∧ SameBut (· ∈ u') t t' := by
  induction ops generalizing s s' u with
  | nil =>
    cases hrun
    exact ⟨rfl, s', rfl, h⟩
  | cons op ops ih =>
    obtain ⟨⟨a, w⟩, hop, hrest⟩ := trackedRun_cons.1 hrun
    obtain ⟨hr, ha, rfl⟩ := trackedOp_next hop
    obtain ⟨a₂, a', ha₂, ha', hsame⟩ := h.applyOp hfill hr
    obtain rfl : a = a₂ := Host.Outcome.next.inj (ha.symm.trans ha₂)
    rw [runOps_cons ha, runOps_cons ha']
    exact ih ((applyOp_resetFill ha).trans hfill) hsame hrest

/-- Under RESET_FILL = zero, with nothing unwritten, no tracked run stops. -/
theorem trackedRun_zero (ops : List HostOp) {s : State} (hfill : s.params.resetFill = .zero) :
    ∃ t, runOps ops s = .next t ∧ trackedRun ops ⟨s, []⟩ = .next ⟨t, []⟩ := by
  induction ops generalizing s with
  | nil => exact ⟨s, rfl, rfl⟩
  | cons op ops ih =>
    obtain ⟨a, ha⟩ := applyOp_total op s
    have hop : trackedOp op ⟨s, []⟩ = .next ⟨a, []⟩ := by
      rw [trackedOp_of_reads (t := ⟨s, []⟩) (fun _ _ => List.not_mem_nil) ha, stillUnwritten_nil op hfill]
    obtain ⟨t, hrun, htracked⟩ := ih ((applyOp_resetFill ha).trans hfill)
    exact ⟨t, (runOps_cons ha).trans hrun, trackedRun_cons.2 ⟨_, hop, htracked⟩⟩

end Sys2Proof.Machine

namespace Sys2Proof

open Machine

/-- Settles O60: by induction on the operations, with the relation `SameBut` between the two machines. -/
theorem unwrittenElementsAreNeverRead : Obligations.UnwrittenElementsAreNeverRead := by
  refine ⟨fun op s u e he hu => trackedOp_fault he hu, fun ops s s' t u u' hfill h hrun => ?_,
    fun image mode s u e hfill => ?_, fun ops s hfill => trackedRun_zero ops hfill⟩
  · exact trackedRun_sameBut hfill (agreeOutside_iff.1 h) hrun
  · exact ⟨allElements, trackedOp_initializeOp image mode u hfill, mem_allElements e⟩

end Sys2Proof

/-! ## Memory -/

namespace Sys2Proof

open Machine

/-! ### The memory primitives -/

/-- `if p then diag(c)` records exactly `c`, and exactly when `p` holds (R11). -/
theorem records_diagIf (p : Prop) [Decidable p] (c : DiagCause) (s : State) :
    Claim.Records s (diagIf (decide p) c s) c p := by
  intro d
  rw [hasDiag_diagIf, Bool.or_eq_true, Bool.and_eq_true, decide_eq_true_eq, decide_eq_true_eq, and_comm (a := p),
    eq_comm (a := c)]

/-- A data write records I_RANGE exactly when its address is reduced (R61, R62). -/
theorem records_dataWrite (a : Nat) (b : Byte) (s : State) :
    Claim.Records s (dataWrite a b s) .iRange (a > 0xFFF) :=
  records_diagIf (a > 0xFFF) .iRange s

/-- Settles O54. -/
theorem memoryPrimitives : Obligations.MemoryPrimitives := by
  intro a b s
  refine ⟨?_, records_diagIf _ _ s, dataRead_eq a s, wordOfBytes_toNat _ _, fun hm => ⟨fun c hc => ?_, wf_dataWrite a b hm⟩,
    records_dataWrite a b s, dataWrite_eq a b s⟩
  · exact congrArg (memGet s.mem) (ea_eq _ a)
  · rw [byteAt_dataWrite a b c hm, ea_of_lt hc, ea_eq]

/-! ### What a store leaves alone -/

/-- A data write leaves every byte but the one it names as it was (R61, R62). -/
theorem byteAt_dataWrite_of_ne {s : State} {a c : Nat} (b : Byte) (hm : Memory.wf s.mem = true)
    (h : c % 0x1000 ≠ a % 0x1000) : (dataWrite a b s).byteAt c = s.byteAt c := by
  rw [byteAt_dataWrite a b c hm, ea_eq, ea_eq, if_neg h]

theorem mnemonic_mem_store {i : Instr} (h : i.mnemonic ∈ ["bcd", "store-regs"]) :
    (∃ x, i = .bcd x) ∨ ∃ x, i = .storeRegs x := by
  cases i <;> simp [Instr.mnemonic] at h ⊢

/-- Fx33 stores at I, I + 1 and I + 2 only (R223). -/
theorem byteAt_execBcd_of_ne {x : Nibble} {s t : State} {c : Nat} (hm : Memory.wf s.mem = true)
    (h : execBcd x s = .next t) (hc : ∀ k < 3, c % 0x1000 ≠ (s.i.toNat + k) % 0x1000) : t.byteAt c = s.byteAt c := by
  cases h
  rw [byteAt_dataWrite_of_ne _ (wf_dataWrite _ _ (wf_dataWrite _ _ hm)) (hc 2 (by decide)),
    byteAt_dataWrite_of_ne _ (wf_dataWrite _ _ hm) (hc 1 (by decide)), byteAt_dataWrite_of_ne _ hm (hc 0 (by decide))]

theorem mem_regRange {x : Nibble} {k : Nat} : k ∈ regRange x ↔ k ≤ x.toNat := by
  rw [regRange, List.mem_range, Nat.lt_succ_iff]

/-- Settles O53: a store is Fx33 or Fx55, and no other shape of an instruction's result changes memory. -/
theorem storesTouchOnlyTheirBytes : Obligations.StoresTouchOnlyTheirBytes := by
  intro i s t a hm h ha hout
  rw [← Nat.mod_eq_of_lt ha] at hout
  cases exec_effect h with
  | store _ _ hi =>
    obtain ⟨x, rfl⟩ | ⟨x, rfl⟩ := mnemonic_mem_store hi
    · exact byteAt_execBcd_of_ne hm h hout
    · rw [← Host.Outcome.next.inj h]
      refine byteAt_storeRange_other hm fun k hk => ?_
      rw [ea_eq, ea_eq]
      exact hout k (Nat.lt_succ_of_le (mem_regRange.1 hk))
  | regs | rand | branch | keySkip | call | ret | index | display | writeDT | writeST | waitKey => rfl

/-! ### A stored byte is read back -/

/-- Fx55 leaves Vk at `I + k` (R224): the range is shorter than memory, so its addresses differ. -/
theorem byteAt_storeRange_regRange {x : Nibble} {k : Nat} {s : State} (hm : Memory.wf s.mem = true) (hk : k ≤ x.toNat) :
    (storeRange (regRange x) s).byteAt (s.i.toNat + k) = s.reg (BitVec.ofNat 4 k) := by
  refine byteAt_storeRange hm (mem_regRange.2 hk) fun j hj heq => ?_
  have hx := x.isLt
  have hj := mem_regRange.1 hj
  rw [ea_eq, ea_eq] at heq
  omega

/-- Addresses with one reduction name one byte (R61). -/
theorem byteAt_congr {s : State} {a c : Nat} (h : a % 0x1000 = c % 0x1000) : s.byteAt a = s.byteAt c := by
  rw [← byteAt_mod s a, h, byteAt_mod]

/-- Settles O55: the fetch reads the bytes at `I + k` and `I + k + 1`, and Fx55 stored both. -/
theorem storedWordIsFetchedNext : Obligations.StoredWordIsFetchedNext := by
  intro x k s hm hk hpc
  have hpc_next : (s.i.toNat + (k + 1)) % 0x1000 = (s.pc.toNat + 1) % 0x1000 := by omega
  have hstored_pc : (storeRange (regRange x) s).pc = s.pc := by rw [storeRange_eq]
  refine ⟨storeRange (regRange x) s, rfl, ?_⟩
  rw [fetchWord, wordOfBytes_toNat, hstored_pc, ← byteAt_congr hpc, ← byteAt_congr hpc_next,
    byteAt_storeRange_regRange hm (Nat.le_of_lt hk), byteAt_storeRange_regRange hm hk]

/-! ### Truncation of an image -/

/-- `initialize` reads no byte of the image past the room above LOAD_ADDR (R69). -/
theorem bootMemory_take (p : Params) (image : List Byte) :
    bootMemory p (image.take (0x1000 - p.loadAddr.toNat)) = bootMemory p image := by
  simp only [bootMemory, Sizes.memSize_val, List.take_take, Nat.min_self]

/-- Settles O41. -/
theorem oversizeImageIsTruncated : Obligations.OversizeImageIsTruncated := by
  refine ⟨fun image mode s => ⟨?_, rfl⟩, by decide, by decide⟩
  have hmem := bootMemory_take { s.params with loadMode := mode } image
  exact congrArg (fun m => { initializeOp image mode s with mem := m }) hmem.symm

end Sys2Proof

/-! ## Decoding and encoding (R90-R97) -/

namespace Sys2Proof

open Machine

/-! ### The fields of a word (R91) -/

/-- Settles O4: a slice of a word is a quotient and a remainder of its number, and w[15:12] is below 0x10 by itself. -/
theorem fieldsAreBitRanges : Obligations.FieldsAreBitRanges := by
  intro w
  have hfamily : w.toNat / 0x1000 < 0x10 := (Nat.div_lt_iff_lt_mul (by decide)).2 w.isLt
  simp [fieldFamily, fieldX, fieldY, fieldN, fieldNN, fieldNNN, Nat.shiftRight_eq_div_pow, hfamily]

theorem layoutNNN_of_family {w : Word} {f : Nibble} (hf : fieldFamily w = f) : layoutNNN f (fieldNNN w) = w := by
  rw [← hf, layoutNNN_fields]

theorem layoutXNN_of_family {w : Word} {f : Nibble} (hf : fieldFamily w = f) :
    layoutXNN f (fieldX w) (fieldNN w) = w := by
  rw [← hf, layoutXNN_fields]

theorem layoutXNN_of_selector {w : Word} {f : Nibble} {b : Byte} (hf : fieldFamily w = f) (hb : fieldNN w = b) :
    layoutXNN f (fieldX w) b = w := by
  rw [← hb, layoutXNN_of_family hf]

theorem layoutXYN_of_family {w : Word} {f : Nibble} (hf : fieldFamily w = f) :
    layoutXYN f (fieldX w) (fieldY w) (fieldN w) = w := by
  rw [← hf, layoutXYN_fields]

theorem layoutXYN_of_selector {w : Word} {f n : Nibble} (hf : fieldFamily w = f) (hn : fieldN w = n) :
    layoutXYN f (fieldX w) (fieldY w) n = w := by
  rw [← hn, layoutXYN_of_family hf]

/-! ### What a word decodes to (R94) -/

/-- `i` encodes to `w`, and is well-formed unless it is the no-op of `w`. -/
def Reads (strict : Bool) (w : Word) (i : Instr) : Prop :=
  encode i = w ∧ (i = .nop w ∨ i.wf strict = true)

theorem reads_nop (strict : Bool) (w : Word) : Reads strict w (.nop w) := ⟨rfl, .inl rfl⟩

theorem decodeAlu_reads (strict : Bool) {w : Word} (hf : fieldFamily w = 0x8) : Reads strict w (decodeAlu w) := by
  unfold decodeAlu
  split
  case h_10 => exact reads_nop strict w
  all_goals
    next hn => exact ⟨layoutXYN_of_selector hf hn, .inr rfl⟩

theorem decodeKey_reads (strict : Bool) {w : Word} (hf : fieldFamily w = 0xE) : Reads strict w (decodeKey w) := by
  unfold decodeKey
  split
  case h_3 => exact reads_nop strict w
  all_goals
    next hb => exact ⟨layoutXNN_of_selector hf hb, .inr rfl⟩

theorem decodeMisc_reads (strict : Bool) {w : Word} (hf : fieldFamily w = 0xF) : Reads strict w (decodeMisc w) := by
  unfold decodeMisc
  split
  case h_10 => exact reads_nop strict w
  all_goals
    next hb => exact ⟨layoutXNN_of_selector hf hb, .inr rfl⟩

/-- Every word decodes to an instruction that encodes to it. -/
theorem decodeWord_reads (strict : Bool) (w : Word) : Reads strict w (decodeWord strict w) := by
  unfold decodeWord
  split
  case h_1 => -- 00E0, 00EE
    split
    · next h => exact ⟨h.symm, .inr rfl⟩
    · split
      · next h => exact ⟨h.symm, .inr rfl⟩
      · exact reads_nop strict w
  case h_6 hf => -- 5xyN
    split
    · next hn => exact ⟨layoutXYN_of_selector hf hn, .inr rfl⟩
    · exact reads_nop strict w
  case h_9 hf => exact decodeAlu_reads strict hf
  case h_10 hf => -- 9xyN
    split
    · next h => exact ⟨layoutXYN_of_family hf, .inr (by simpa [Instr.wf, or_comm] using h)⟩
    · exact reads_nop strict w
  case h_14 hf => -- Dxyn
    exact ⟨layoutXYN_of_family hf, .inr rfl⟩
  case h_15 hf => exact decodeKey_reads strict hf
  case h_16 hf => exact decodeMisc_reads strict hf
  case h_17 => exact reads_nop strict w
  case h_2 hf | h_3 hf | h_11 hf | h_12 hf => exact ⟨layoutNNN_of_family hf, .inr rfl⟩
  case h_4 hf | h_5 hf | h_7 hf | h_8 hf | h_13 hf => exact ⟨layoutXNN_of_family hf, .inr rfl⟩

/-! ### The words that the rows of the opcode table match -/

/-- Two rows whose patterns differ on the bits both masks keep match no common word. -/
theorem not_hits_both {p q : OpRow} (h : p.pattern &&& q.mask ≠ q.pattern &&& p.mask) (w : Word) :
    ¬(p.hits w = true ∧ q.hits w = true) := by
  rintro ⟨hp, hq⟩
  refine h ?_
  rw [← eq_of_beq hp, ← eq_of_beq hq, BitVec.and_assoc, BitVec.and_assoc, BitVec.and_comm p.mask]

theorem opcodeRows_disjoint (strict : Bool) :
    (opcodeRows strict).Pairwise fun p q => ∀ w, ¬(p.hits w = true ∧ q.hits w = true) := by
  have hpatterns : (opcodeRows strict).Pairwise fun p q => p.pattern &&& q.mask ≠ q.pattern &&& p.mask := by
    cases strict <;> decide
  exact hpatterns.imp not_hits_both

/-- A word that matches a row has the pattern's bits wherever the mask is all ones. -/
theorem extract_of_hits {r : OpRow} {w : Word} {start m : Nat} (h : r.hits w = true)
    (hmask : r.mask.extractLsb' start m = BitVec.allOnes m) :
    w.extractLsb' start m = r.pattern.extractLsb' start m := by
  rw [← eq_of_beq h, BitVec.extractLsb'_and, hmask, BitVec.and_allOnes]

theorem mnemonic_decodeAlu_congr {w p : Word} (h : fieldN w = fieldN p) :
    (decodeAlu w).mnemonic = (decodeAlu p).mnemonic := by
  unfold decodeAlu
  rw [h]
  split <;> rfl

theorem mnemonic_decodeKey_congr {w p : Word} (h : fieldNN w = fieldNN p) :
    (decodeKey w).mnemonic = (decodeKey p).mnemonic := by
  unfold decodeKey
  rw [h]
  split <;> rfl

theorem mnemonic_decodeMisc_congr {w p : Word} (h : fieldNN w = fieldNN p) :
    (decodeMisc w).mnemonic = (decodeMisc p).mnemonic := by
  unfold decodeMisc
  rw [h]
  split <;> rfl

/-- The mask of a row keeps every bit by which `decode` selects within the row's family. -/
theorem mask_keeps_selectors {strict : Bool} {r : OpRow} (hr : r ∈ opcodeRows strict) :
    r.mask.extractLsb' 12 4 = BitVec.allOnes 4 ∧
    (fieldFamily r.pattern = 0x0 → r.mask = BitVec.allOnes 16) ∧
    (fieldFamily r.pattern = 0x5 ∨ fieldFamily r.pattern = 0x8 ∨ fieldFamily r.pattern = 0x9 ∧ strict = true →
      r.mask.extractLsb' 0 4 = BitVec.allOnes 4) ∧
    (fieldFamily r.pattern = 0xE ∨ fieldFamily r.pattern = 0xF → r.mask.extractLsb' 0 8 = BitVec.allOnes 8) := by
  revert r
  cases strict <;> decide

/-- A word decodes to the mnemonic that the pattern of its row decodes to. -/
theorem mnemonic_decodeWord_pattern {strict : Bool} {r : OpRow} {w : Word} (hr : r ∈ opcodeRows strict)
    (h : r.hits w = true) : (decodeWord strict w).mnemonic = (decodeWord strict r.pattern).mnemonic := by
  obtain ⟨hfam, hall, hn, hnn⟩ := mask_keeps_selectors hr
  have hf : fieldFamily w = fieldFamily r.pattern := extract_of_hits h hfam
  unfold decodeWord
  rw [hf]
  split
  case h_1 h0 => -- 00E0, 00EE
    have hw : w = r.pattern := by rw [← eq_of_beq h, hall h0, BitVec.and_allOnes]
    rw [hw]
  case h_6 h5 => -- 5xyN
    have hN : fieldN w = fieldN r.pattern := extract_of_hits h (hn (.inl h5))
    rw [hN]
    split <;> rfl
  case h_9 h8 => exact mnemonic_decodeAlu_congr (extract_of_hits h (hn (.inr (.inl h8))))
  case h_10 h9 => -- 9xyN
    cases strict with
    | false => rw [if_pos (.inr rfl), if_pos (.inr rfl)]; rfl
    | true =>
      have hN : fieldN w = fieldN r.pattern := extract_of_hits h (hn (.inr (.inr ⟨h9, rfl⟩)))
      rw [hN]
      split <;> rfl
  case h_15 hE => exact mnemonic_decodeKey_congr (extract_of_hits h (hnn (.inl hE)))
  case h_16 hF => exact mnemonic_decodeMisc_congr (extract_of_hits h (hnn (.inr hF)))
  all_goals rfl

/-- A word that matches a row decodes to that row's mnemonic (R93, R94). -/
theorem mnemonic_decodeWord_of_hits {strict : Bool} {r : OpRow} {w : Word} (hr : r ∈ opcodeRows strict)
    (h : r.hits w = true) : (decodeWord strict w).mnemonic = r.mnemonic := by
  have hpattern : ∀ r ∈ opcodeRows strict, (decodeWord strict r.pattern).mnemonic = r.mnemonic := by
    cases strict <;> decide
  rw [mnemonic_decodeWord_pattern hr h, hpattern r hr]

/-! ### The words that instructions encode to -/

open Laws.EncodeHitsRow in
theorem encode_hits_row : ∀ i : Instr, Statement i
  | .clear => clear
  | .ret => ret
  | .jump nnn => jump nnn
  | .call nnn => call nnn
  | .skipEqImm x nn => skipEqImm x nn
  | .skipNeImm x nn => skipNeImm x nn
  | .skipEqReg x y => skipEqReg x y
  | .loadImm x nn => loadImm x nn
  | .addImm x nn => addImm x nn
  | .loadReg x y => loadReg x y
  | .orReg x y => orReg x y
  | .andReg x y => andReg x y
  | .xorReg x y => xorReg x y
  | .addWithCarry x y => addWithCarry x y
  | .subWithBorrow x y => subWithBorrow x y
  | .shiftRight x y => shiftRight x y
  | .subReverseWithBorrow x y => subReverseWithBorrow x y
  | .shiftLeft x y => shiftLeft x y
  | .skipNeReg x y n => skipNeReg x y n
  | .loadI nnn => loadI nnn
  | .jumpOffset nnn => jumpOffset nnn
  | .rand x nn => rand x nn
  | .draw x y n => draw x y n
  | .skipIfKey x => skipIfKey x
  | .skipIfNotKey x => skipIfNotKey x
  | .readDT x => readDT x
  | .waitKey x => waitKey x
  | .writeDT x => writeDT x
  | .writeST x => writeST x
  | .addI x => addI x
  | .fontAddr x => fontAddr x
  | .bcd x => bcd x
  | .storeRegs x => storeRegs x
  | .loadRegs x => loadRegs x
  | .nop w => nop w

/-- The table has a row of each instruction's mnemonic, the no-op's excepted (R95). -/
theorem exists_row_of_mnemonic {i : Instr} (hi : ∀ w, i ≠ .nop w) :
    ∃ r ∈ opcodeRows true, r.mnemonic = i.mnemonic := by
  rw [← List.mem_map]
  cases i with
  | nop w => exact absurd rfl (hi w)
  | _ => simp only [Instr.mnemonic]; decide

/-- SKIP9_STRICT = false lists every word that SKIP9_STRICT = true lists (R97): each row has one of no more mask bits. -/
theorem listed_false_of_listed_true {w : Word} (h : listed true w = true) : listed false w = true := by
  obtain ⟨r, hr, hhit⟩ := List.any_eq_true.1 h
  have hwider : ∀ r ∈ opcodeRows true, ∃ q ∈ opcodeRows false,
      r.mask &&& q.mask = q.mask ∧ r.pattern &&& q.mask = q.pattern := by decide
  obtain ⟨q, hq, hmask, hpattern⟩ := hwider r hr
  refine List.any_eq_true.2 ⟨q, hq, beq_iff_eq.2 ?_⟩
  rw [← hpattern, ← eq_of_beq hhit, BitVec.and_assoc, hmask]

/-- A well-formed instruction other than the no-op encodes to a listed word. -/
theorem listed_encode {strict : Bool} {i : Instr} (hwf : i.wf strict = true) (hi : ∀ w, i ≠ .nop w) :
    listed strict (encode i) = true := by
  have hstrict (h : i.wf true = true) : listed true (encode i) = true := by
    obtain ⟨r, hr, hm⟩ := exists_row_of_mnemonic hi
    exact List.any_eq_true.2 ⟨r, hr, encode_hits_row i h r hr hm⟩
  cases strict with
  | true => exact hstrict hwf
  | false =>
    cases i with
    | nop w => exact absurd rfl (hi w)
    | skipNeReg x y n =>
      have hhit : OpRow.hits ⟨"skip-ne-reg", 0x9000, 0xF000⟩ (layoutXYN 0x9 x y n) = true :=
        Laws.EncodeHitsRow.hits_layoutXYN _ 0x9 x y n 0 _ _ (by rw [show n &&& 0 = 0 from BitVec.and_zero]; decide)
          (by decide)
      exact List.any_eq_true.2 ⟨_, by decide, hhit⟩
    | _ => exact listed_false_of_listed_true (hstrict rfl)

/-! ### Listed words and the no-op (R95) -/

theorem decodeWord_of_not_listed {strict : Bool} {w : Word} (h : listed strict w = false) :
    decodeWord strict w = .nop w := by
  obtain ⟨henc, hnop | hwf⟩ := decodeWord_reads strict w
  · exact hnop
  · by_contra hne
    have hi : ∀ v, decodeWord strict w ≠ .nop v := by
      intro v hv
      obtain rfl : v = w := by rwa [hv] at henc
      exact hne hv
    have hlisted := listed_encode hwf hi
    rw [henc, h] at hlisted
    exact nomatch hlisted

theorem not_listed_of_decodeWord {strict : Bool} {w : Word} (h : decodeWord strict w = .nop w) :
    listed strict w = false := by
  have hnames : ∀ r ∈ opcodeRows strict, r.mnemonic ≠ "defined_no-op" := by cases strict <;> decide
  refine List.any_eq_false.2 fun r hr hhit => hnames r hr ?_
  rw [← mnemonic_decodeWord_of_hits hr hhit, h]
  rfl

/-- Settles O34: the no-op is `diag(UNLISTED)` (R95). -/
theorem unlistedWordsOnlyRecordUnlisted : Obligations.UnlistedWordsOnlyRecordUnlisted :=
  ⟨fun _ _ => decodeWord_of_not_listed, fun _ s =>
    ⟨diagIf true .unlisted s, rfl, records_diagIf True .unlisted s, rfl⟩⟩

/-- Settles O3, by the masks and patterns of the rows. -/
theorem decodeFollowsOpcodeTable : Obligations.DecodeFollowsOpcodeTable := fun strict =>
  ⟨opcodeRows_disjoint strict, fun _ => ⟨fun _ hr => mnemonic_decodeWord_of_hits hr, decodeWord_of_not_listed⟩⟩

/-! ### Decode and encode are inverse -/

/-- Settles O2: a word that decodes to the no-op is unlisted, so the no-op is well-formed too. -/
theorem encodeOfDecodeIsIdentity : Obligations.EncodeOfDecodeIsIdentity := by
  intro strict w
  obtain ⟨henc, hnop | hwf⟩ := decodeWord_reads strict w
  · refine ⟨henc, ?_⟩
    rw [hnop, Instr.wf, not_listed_of_decodeWord hnop, Bool.not_false]
  · exact ⟨henc, hwf⟩

/-- Decoding the layout of an instruction reads its fields back, one layout at a time. -/
theorem decodeWord_encode {strict : Bool} {i : Instr} (hwf : i.wf strict = true) :
    decodeWord strict (encode i) = i := by
  cases i with
  | nop w => exact decodeWord_of_not_listed (Bool.not_eq_true' _ ▸ hwf)
  | skipNeReg x y n =>
    have hn : n = 0 ∨ strict = false := by simpa [Instr.wf, or_comm] using hwf
    simp only [encode, decodeWord, fieldFamily_layoutXYN, fieldX_layoutXYN, fieldY_layoutXYN, fieldN_layoutXYN, if_pos hn]
  | clear | ret => rfl
  | jump | call | loadI | jumpOffset => simp [encode, decodeWord]
  | skipEqImm | skipNeImm | loadImm | addImm | rand => simp [encode, decodeWord]
  | skipEqReg | draw => simp [encode, decodeWord]
  | loadReg | orReg | andReg | xorReg | addWithCarry | subWithBorrow | shiftRight | subReverseWithBorrow | shiftLeft =>
    simp [encode, decodeWord, decodeAlu]
  | skipIfKey | skipIfNotKey => simp [encode, decodeWord, decodeKey]
  | readDT | waitKey | writeDT | writeST | addI | fontAddr | bcd | storeRegs | loadRegs =>
    simp [encode, decodeWord, decodeMisc]

/-- The two bytes of a word, read back, are the word, and what follows them is left (R63). -/
theorem decodeBytes_bytesOfWord (strict : Bool) (w : Word) (rest : List Byte) :
    decodeBytes strict (bytesOfWord w ++ rest) = .ok (decodeWord strict w, rest) := by
  have hword : wordOfBytes (w.extractLsb' 8 8) (w.extractLsb' 0 8) = w := by
    rw [wordOfBytes, BitVec.extractLsb'_append_extractLsb'_eq_extractLsb' (start₁ := 0) (len₁ := 8) rfl]
    exact BitVec.extractLsb'_eq_self
  rw [bytesOfWord, List.cons_append, List.cons_append, List.nil_append, decodeBytes, hword]

/-- Settles O1: the bytes of an instruction are the bytes of its word. -/
theorem decodeOfEncodeIsIdentity : Obligations.DecodeOfEncodeIsIdentity := by
  intro strict i rest hwf
  have hword := decodeWord_encode hwf
  refine ⟨hword, ?_⟩
  rw [encodeBytes, decodeBytes_bytesOfWord, hword]

/-- Settles O5: the vectors are closed words, evaluated. -/
theorem sampleWordsDecode : Obligations.SampleWordsDecode := by
  unfold Obligations.SampleWordsDecode
  decide

end Sys2Proof

/-! ## Display -/

namespace Sys2Proof

open Machine

/-- Settles O9. -/
theorem clearBlanksTheFramebuffer : Obligations.ClearBlanksTheFramebuffer := fun _ s =>
  ⟨rfl, (s.setFb clearedFb).setDrawReq true, rfl, pixelAt_clearedFb, rfl⟩

/-! ### The sprite of Dxyn as the claims name it -/

/-- The unreduced coordinates, (column, row), of the set bits of the sprite that Dxyn draws in `s` (R121, R122). -/
def spritePoints (x y n : Nibble) (s : State) : List (Nat × Nat) :=
  spriteCoords (fun r => s.byteAt (s.i.toNat + r)) ((s.reg x).toNat % 64) ((s.reg y).toNat % 32) (List.range n.toNat)

theorem drawSprite_eq_plotAll (x y n : Nibble) (s : State) :
    drawSprite x y n s =
      plotAll s.params.sizes s.params.drawEdge (spritePoints x y n s) { fb := s.fb, hit := false, edge := false } := by
  rw [drawSprite_eq, Sizes.fbW_val, Sizes.fbH_val, spritePoints]

/-- Quantifying over the points of a sprite is quantifying over its set bits. -/
theorem exists_mem_spritePoints {x y n : Nibble} {s : State} {P : Nat × Nat → Prop} :
    (∃ p ∈ spritePoints x y n s, P p) ↔
      ∃ r < n.toNat, ∃ c < 8, Claim.spriteBit s r c = true ∧ P (Claim.column s x c, Claim.row s y r) := by
  simp only [spritePoints, mem_spriteCoords, List.mem_range]
  constructor
  · rintro ⟨_, ⟨r, hr, c, hc, hbit, rfl⟩, hp⟩
    exact ⟨r, hr, c, hc, hbit, hp⟩
  · rintro ⟨r, hr, c, hc, hbit, hp⟩
    exact ⟨_, ⟨r, hr, c, hc, hbit, rfl⟩, hp⟩

/-- A sprite has at most 15 rows, so no two of its points fall on one pixel. -/
theorem pixelsDiffer_spritePoints (x y n : Nibble) (s : State) : PixelsDiffer s.params.sizes (spritePoints x y n s) :=
  pixelsDiffer_sprite _ _ _ _ _ (by have := n.isLt; omega)

theorem offScreen_eq_false_iff (z : Sizes) (ux uy : Nat) : offScreen z ux uy = false ↔ ux < 64 ∧ uy < 32 := by
  rw [offScreen_eq, Bool.or_eq_false_iff, decide_eq_false_iff_not, decide_eq_false_iff_not, Nat.not_le, Nat.not_le]

theorem plotted_spritePoints_iff {x y n : Nibble} {s : State} {py : Fin 32} {px : Fin 64} :
    Plotted s.params.sizes s.params.drawEdge (spritePoints x y n s) py px ↔ Claim.Plots s x y n py px := by
  rw [Plotted, exists_mem_spritePoints]
  simp only [Claim.Plots, offScreen_eq_false_iff, Fin.ext_iff, rowOf_val, columnOf_val, and_assoc, and_comm]

/-! ### What Dxyn does to the canvas and to DIAG -/

/-- A plotted pixel is inverted, every other is kept (R121). -/
theorem drawSprite_pixel (x y n : Nibble) (s : State) (py : Fin 32) (px : Fin 64) :
    (Claim.Plots s x y n py px → pixelAt (drawSprite x y n s).fb py px = !pixelAt s.fb py px) ∧
      (¬Claim.Plots s x y n py px → pixelAt (drawSprite x y n s).fb py px = pixelAt s.fb py px) := by
  rw [drawSprite_eq_plotAll, ← plotted_spritePoints_iff]
  exact plotAll_pixel (pixelsDiffer_spritePoints x y n s) _ py px

/-- A draw collides when a pixel it plots was 1 (R121). -/
theorem drawSprite_hit_iff (x y n : Nibble) (s : State) :
    (drawSprite x y n s).hit = true ↔ ∃ py px, Claim.Plots s x y n py px ∧ pixelAt s.fb py px = true := by
  rw [drawSprite_eq_plotAll, plotAll_hit (pixelsDiffer_spritePoints x y n s)]
  simp only [plotted_spritePoints_iff, Bool.false_eq_true, false_or]

/-- A draw crosses the edge when a set bit's unreduced coordinate does (R121). -/
theorem drawSprite_edge_iff (x y n : Nibble) (s : State) :
    (drawSprite x y n s).edge = true ↔
      ∃ r < n.toNat, ∃ c < 8, Claim.spriteBit s r c = true ∧ (Claim.column s x c ≥ 64 ∨ Claim.row s y r ≥ 32) := by
  rw [drawSprite_eq_plotAll, plotAll_edge, Bool.false_or, List.any_eq_true, exists_mem_spritePoints]
  simp only [offScreen_eq, Bool.or_eq_true, decide_eq_true_eq, ge_iff_le]

theorem spriteWraps_iff (n : Nibble) (s : State) : spriteWraps n s = true ↔ ∃ r < n.toNat, s.i.toNat + r > 0xFFF := by
  simp only [spriteWraps, List.any_eq_true, List.mem_range, decide_eq_true_eq]

/-- Two conditional diagnostics record their two causes and nothing else (R11). -/
theorem hasDiag_diagIf_diagIf_iff (a b : Bool) (c e d : DiagCause) (s : State) :
    (diagIf b e (diagIf a c s)).hasDiag d = true ↔
      s.hasDiag d = true ∨ (d = c ∧ a = true) ∨ (d = e ∧ b = true) := by
  simp only [hasDiag_diagIf, Bool.or_eq_true, Bool.and_eq_true, decide_eq_true_eq, or_assoc, and_comm, eq_comm (a := d)]

/-- Settles O10: the next state is `execDraw`'s, and each clause is the rule of the part of it that the clause speaks of. -/
theorem drawXorsTheSprite : Obligations.DrawXorsTheSprite := by
  intro strict x y n s
  refine ⟨decodeWord_encode (i := .draw x y n) rfl, _, rfl, drawSprite_pixel x y n s, fun hhit => ?_, fun hmiss => ?_,
    fun r hr => ?_, fun d => ?_, rfl⟩
  · exact (reg_setReg_same _ vf _).trans (congrArg flagByte ((drawSprite_hit_iff x y n s).2 hhit))
  · rw [← drawSprite_hit_iff, Bool.not_eq_true] at hmiss
    exact (reg_setReg_same _ vf _).trans (congrArg flagByte hmiss)
  · exact reg_setReg_of_ne _ hr
  · rw [← drawSprite_edge_iff, ← spriteWraps_iff]
    exact hasDiag_diagIf_diagIf_iff _ _ .iRange .drawEdge d s

/-! ### Drawing twice -/

/-- Which pixels a draw plots is settled by I, memory, the configuration and the two coordinate registers (R121). -/
theorem plots_congr {x y n : Nibble} {s t : State} (hi : t.i = s.i) (hmem : t.mem = s.mem) (hparams : t.params = s.params)
    (hx : t.reg x = s.reg x) (hy : t.reg y = s.reg y) (py : Fin 32) (px : Fin 64) :
    Claim.Plots t x y n py px ↔ Claim.Plots s x y n py px := by
  simp only [Claim.Plots, Claim.spriteBit, Claim.column, Claim.row, State.byteAt, hi, hmem, hparams, hx, hy]

/-- Settles O11, from O10 at both draws: the first leaves all that the second's sprite is read from, so both plot the same
pixels, and a pixel inverted twice is as it was. -/
theorem drawTwiceRestoresTheFramebuffer : Obligations.DrawTwiceRestoresTheFramebuffer := by
  intro x y n s hx hy
  obtain ⟨-, t, ht, hpix, hhit, -, hreg, -, hframe⟩ := drawXorsTheSprite false x y n s
  obtain ⟨-, u, hu, hpix', hhit', -⟩ := drawXorsTheSprite false x y n t
  have hplots (py px) : Claim.Plots t x y n py px ↔ Claim.Plots s x y n py px :=
    plots_congr (by rw [hframe]) (by rw [hframe]) (by rw [hframe]) (hreg x hx) (hreg y hy) py px
  refine ⟨t, u, ht, hu, framebuffer_ext fun py px => ?_, ?_⟩
  · by_cases h : Claim.Plots s x y n py px
    · rw [(hpix' py px).1 ((hplots py px).2 h), (hpix py px).1 h, Bool.not_not]
    · rw [(hpix' py px).2 (mt (hplots py px).1 h), (hpix py px).2 h]
  · rintro ⟨py, px, h⟩ hvf
    have hclear : pixelAt s.fb py px = false := by
      by_contra hset
      have hone := hhit ⟨py, px, h, Bool.not_eq_false _ ▸ hset⟩
      exact absurd (hvf.symm.trans hone) (by decide)
    refine hhit' ⟨py, px, (hplots py px).2 h, ?_⟩
    rw [(hpix py px).1 h, hclear, Bool.not_false]

end Sys2Proof

/-! ## Control transfer -/

namespace Sys2Proof

open Machine

/-! ### Jump targets -/

/-- An absolute target is the 12-bit operand itself (R92). -/
theorem absolute_toNat (nnn : Addr) : (absolute nnn).toNat = nnn.toNat :=
  BitVec.toNat_setWidth_of_le (by decide)

/-- The target of Bnnn is the sum of nnn and V0, reduced to the width of PC and no further (R143). -/
theorem offsetTarget_toNat (nnn : Addr) (s : State) :
    (offsetTarget nnn s).toNat = (nnn.toNat + (s.reg 0).toNat) % 65536 := by
  rw [offsetTarget, BitVec.toNat_add, absolute_toNat, BitVec.toNat_setWidth_of_le (by decide)]

/-- Settles O14. -/
theorem jumpsSetPc : Obligations.JumpsSetPc := fun _ nnn s =>
  ⟨decodeWord_encode (i := .jump nnn) rfl, decodeWord_encode (i := .jumpOffset nnn) rfl,
    ⟨s.setPc (absolute nnn), rfl, absolute_toNat nnn, rfl⟩,
    s.setPc (offsetTarget nnn s), rfl, offsetTarget_toNat nnn s, rfl⟩

/-! ### The stack under a return and a call -/

/-- A pop records STACK_UNF exactly when DEPTH was 0 (R31). -/
theorem records_pop (s : State) : Claim.Records s (pop s) .stackUnf (s.depth = 0) :=
  records_diagIf (s.depth = 0) .stackUnf s

/-- A push records STACK_OVF exactly when DEPTH was 16 (R30). -/
theorem records_push (a : Word) (s : State) : Claim.Records s (push a s) .stackOvf (s.depth = 16) := by
  rw [← Sizes.stackDepth_val s.params.sizes]
  exact records_diagIf _ .stackOvf s

/-- A pop counts DEPTH down and stops at 0 (R31). -/
theorem pop_depth_eq_sub (s : State) : (pop s).depth = s.depth - 1 := by
  rw [pop_depth]
  split <;> omega

/-- A push counts DEPTH up and stops at 16 (R30). -/
theorem push_depth_eq_ite (a : Word) (s : State) :
    (push a s).depth = if s.depth = 16 then 16 else s.depth + 1 := by
  rw [push_depth, Sizes.stackDepth_val]
  split <;> omega

/-- A push writes the entry that SP names and no other (R30). -/
theorem push_stack_getElem? (a : Word) {s : State} (h : s.sp.toNat < 16) (k : Nat) :
    (push a s).stack[k]? = if k = s.sp.toNat then some a else s.stack[k]? := by
  simp only [push_stack, State.stackIndex, Nat.mod_eq_of_lt h]
  by_cases hk : k = s.sp.toNat
  · rw [if_pos hk, hk, Vector.getElem?_set_self]
  · rw [if_neg hk, Vector.getElem?_set_ne _ (Ne.symm hk)]

/-- Settles O12. -/
theorem returnPopsPc : Obligations.ReturnPopsPc := fun _ s =>
  ⟨rfl, (pop s).setPc s.popValue, rfl, pop_sp_toNat s, Vector.getElem?_eq_getElem _, pop_depth_eq_sub s, records_pop s, rfl⟩

/-- Settles O13. -/
theorem callPushesPc : Obligations.CallPushesPc := by
  intro strict nnn s
  refine ⟨decodeWord_encode (i := .call nnn) rfl, fun hsp => ⟨(push s.pc s).setPc (absolute nnn), rfl, absolute_toNat nnn,
    ?_, ?_, fun k hk => ?_, push_depth_eq_ite s.pc s, records_push s.pc s, rfl⟩⟩
  · rw [setPc_sp, push_sp_toNat]
    omega
  · rw [setPc_stack, push_stack_getElem? _ hsp, if_pos rfl]
  · rw [setPc_stack, push_stack_getElem? _ hsp, if_neg hk]

/-- Settles O15, from O13 and O12: the entry that the return reads is the one that the call wrote. -/
theorem callThenReturnRestoresPc : Obligations.CallThenReturnRestoresPc := by
  intro nnn s hsp
  obtain ⟨-, hcall⟩ := callPushesPc false nnn s
  obtain ⟨t, ht, -, htsp, htop, -⟩ := hcall hsp
  refine ⟨t, ht, fun t' hstack hsp' => ?_⟩
  obtain ⟨-, u, hu, husp, hupc, -⟩ := returnPopsPc false t'
  have hback : (t'.sp.toNat + 1) % 16 = s.sp.toNat := by
    rw [hsp']
    omega
  rw [hback] at husp hupc
  rw [hstack, htop] at hupc
  exact ⟨u, hu, (Option.some.inj hupc).symm, BitVec.eq_of_toNat_eq husp⟩

end Sys2Proof

/-! ## Conditional skips -/

namespace Sys2Proof

open Machine

/-! ### The skip of R164, its conditions and its diagnostic -/

theorem skipIf_pc_toNat {b : Bool} (s : State) (h : b = true) :
    (skipIf b s).pc.toNat = (s.pc.toNat + 2) % 65536 := by
  rw [skipIf_pc, if_pos h, BitVec.toNat_add]
  rfl

theorem skipIf_pc_of_ne_true {b : Bool} (s : State) (h : ¬b = true) : (skipIf b s).pc = s.pc := by
  rw [skipIf_pc, if_neg h]

/-- An instruction whose whole effect is `skipIf` skips on the condition that its Boolean decides. -/
theorem skipsWhen_of_exec {i : Instr} {s : State} {b : Bool} {cond : Prop} (hexec : exec i s = .next (skipIf b s))
    (hb : b = true ↔ cond) : Claim.SkipsWhen i s cond :=
  ⟨skipIf b s, hexec, fun h => skipIf_pc_toNat s (hb.2 h), fun h => skipIf_pc_of_ne_true s (mt hb.1 h), rfl⟩

/-- The comparison of two bytes is the comparison of their numbers (R160, R162). -/
theorem beq_iff_toNat_eq (a b : Byte) : (a == b) = true ↔ a.toNat = b.toNat :=
  beq_iff_eq.trans BitVec.toNat_inj.symm

/-- The same, negated (R161, R163). -/
theorem bne_iff_toNat_ne (a b : Byte) : (a != b) = true ↔ a.toNat ≠ b.toNat :=
  bne_iff_ne.trans (not_congr BitVec.toNat_inj.symm)

/-- A diagnostic under a Boolean condition records its cause exactly when what the Boolean decides holds (R11). -/
theorem records_diagIf_of_iff {b : Bool} {p : Prop} (c : DiagCause) (s : State) (hb : b = true ↔ p) :
    Claim.Records s (diagIf b c s) c p := by
  obtain rfl := propext hb
  have hrec := records_diagIf (b = true) c s
  rwa [Bool.decide_eq_true] at hrec

/-! ### Families 5 and 9 with a low nibble other than 0 (R95, R97) -/

theorem decodeWord_5xyN_of_ne_zero (strict : Bool) (x y : Nibble) {n : Nibble} (hn : n ≠ 0) :
    decodeWord strict (layoutXYN 0x5 x y n) = .nop (layoutXYN 0x5 x y n) := by
  simpa [decodeWord] using hn

theorem decodeWord_true_9xyN_of_ne_zero (x y : Nibble) {n : Nibble} (hn : n ≠ 0) :
    decodeWord true (layoutXYN 0x9 x y n) = .nop (layoutXYN 0x9 x y n) := by
  simpa [decodeWord] using hn

/-! ### The skips on registers and constants (R160-R163) -/

/-- Settles O17. -/
theorem skipsCompareRegistersAndConstants : Obligations.SkipsCompareRegistersAndConstants := fun strict x y _ nn _ =>
  ⟨decodeWord_encode (i := .skipEqImm x nn) rfl, decodeWord_encode (i := .skipNeImm x nn) rfl,
    decodeWord_encode (i := .skipEqReg x y) rfl, decodeWord_5xyN_of_ne_zero strict x y,
    skipsWhen_of_exec rfl (beq_iff_toNat_eq _ nn), skipsWhen_of_exec rfl (bne_iff_toNat_ne _ nn),
    skipsWhen_of_exec rfl (beq_iff_toNat_eq _ _)⟩

/-- Settles O18: the skip of 9xyN is `skipIf` after the diagnostic, which reads no register and leaves PC alone. -/
theorem skipNeRegFollowsSkip9Strict : Obligations.SkipNeRegFollowsSkip9Strict := by
  intro strict x y n s
  have hskip := bne_iff_toNat_ne (s.reg x) (s.reg y)
  refine ⟨decodeWord_encode (i := .skipNeReg x y 0) ?_, decodeWord_encode (i := .skipNeReg x y n) rfl,
    decodeWord_true_9xyN_of_ne_zero x y, ⟨skipIf (s.reg x != s.reg y) (diagIf (n != 0) .unlisted s), rfl,
      fun hne => skipIf_pc_toNat _ (hskip.2 hne), fun heq => skipIf_pc_of_ne_true _ (mt hskip.1 (not_not_intro heq)),
      records_diagIf_of_iff .unlisted s bne_iff_ne, rfl⟩,
    diagIf true .unlisted s, rfl, records_diagIf True .unlisted s, rfl⟩
  cases strict <;> rfl

end Sys2Proof

/-! ## Loads and ALU -/

namespace Sys2Proof

open Machine

/-! ### Instructions that write one register and no flag (R180, R181, R183-R186, R192) -/

/-- An instruction whose whole effect is one register write. -/
theorem writesReg_of_exec {i : Instr} {s : State} {x : Nibble} {b : Byte} {val : Nat}
    (hexec : exec i s = .next (s.setReg x b)) (hval : b.toNat = val) : Claim.WritesReg i s x val :=
  ⟨s.setReg x b, hexec, fun r => by rw [reg_setReg, apply_ite BitVec.toNat, hval], rfl⟩

/-- Settles O19. -/
theorem immediateLoadsAndAdds : Obligations.ImmediateLoadsAndAdds := fun _ x nn _ =>
  ⟨decodeWord_encode (i := .loadImm x nn) rfl, decodeWord_encode (i := .addImm x nn) rfl,
    writesReg_of_exec rfl rfl, writesReg_of_exec rfl (BitVec.toNat_add _ _)⟩

/-- Settles O20. -/
theorem registerMovesAndLogic : Obligations.RegisterMovesAndLogic := fun _ x y _ =>
  ⟨decodeWord_encode (i := .loadReg x y) rfl, decodeWord_encode (i := .orReg x y) rfl,
    decodeWord_encode (i := .andReg x y) rfl, decodeWord_encode (i := .xorReg x y) rfl,
    writesReg_of_exec rfl rfl, writesReg_of_exec rfl (BitVec.toNat_or _ _), writesReg_of_exec rfl (BitVec.toNat_and _ _),
    writesReg_of_exec rfl (BitVec.toNat_xor _ _)⟩

/-- Settles O24: the draw is the one that the count before the instruction names. -/
theorem randMasksTheDraw : Obligations.RandMasksTheDraw := by
  intro _ x nn s
  refine ⟨decodeWord_encode (i := .rand x nn) rfl, randWith (Config.freeByte s.draws) x nn s.countDraw, rfl, ?_,
    fun _ hr => reg_setReg_of_ne _ hr, rfl⟩
  rw [randWith, reg_setReg_same, BitVec.toNat_and]

/-! ### The flag instructions (R182) -/

theorem flagByte_toNat (b : Bool) : (flagByte b).toNat = b.toNat := by cases b <;> rfl

/-- Writing VF and then Vx leaves the registers that R182 states, the result winning when x is F (R23). -/
theorem reg_setReg_vf_setReg_toNat (s : State) (x r : Nibble) (flag : Bool) (result : Byte) :
    (((s.setReg vf (flagByte flag)).setReg x result).reg r).toNat = Claim.flagValue s x r flag result.toNat := by
  rw [reg_setReg, reg_setReg, apply_ite BitVec.toNat, apply_ite BitVec.toNat, flagByte_toNat]
  rfl

/-- A flag and a result that do not read the second operand come out the same whichever register it is. -/
theorem flagThenResult_unary (flag : Byte → Bool) (result : Byte → Byte) (x y z : Nibble) (s : State) :
    flagThenResult (fun a _ => flag a) (fun a _ => result a) x y s =
      flagThenResult (fun a _ => flag a) (fun a _ => result a) x z s := by
  unfold flagThenResult
  cases s.params.operandRead <;> rfl

section FlagInstruction

variable {i : Instr} {s : State} {x y : Nibble} {flag : Byte → Byte → Bool} {result : Byte → Byte → Byte}
  {flagNat : Nat → Nat → Bool} {resultNat : Nat → Nat → Nat}

/-- An instruction that records VF_OPERAND and then writes flag and result obeys R182, with the flag and the result that its
functions on bytes compute as numbers. -/
theorem flagAlu_of_flagThenResult {b : Bool} {matters : Prop}
    (hexec : exec i s = .next (flagThenResult flag result x y (diagIf b .vfOperand s))) (hb : b = true ↔ matters)
    (hflag : ∀ a c, flag a c = flagNat a.toNat c.toNat) (hresult : ∀ a c, (result a c).toNat = resultNat a.toNat c.toNat) :
    Claim.FlagAlu i s x y flagNat resultNat matters := by
  have hframe := flagThenResult_eq flag result x y (diagIf b .vfOperand s)
  refine ⟨_, hexec, fun hmode r => ?_, fun hmode r => ?_, ?_, ?_⟩
  · rw [flagThenResult_latched (s := diagIf b .vfOperand s) hmode, reg_setReg_vf_setReg_toNat, hflag, hresult]
    rfl
  · rw [flagThenResult_sequential (s := diagIf b .vfOperand s) hmode, reg_setReg_vf_setReg_toNat, hflag, hresult,
      apply_ite BitVec.toNat, apply_ite BitVec.toNat, flagByte_toNat]
    rfl
  · rw [hframe]
    exact records_diagIf_of_iff .vfOperand s hb
  · rw [hframe]
    rfl

/-- The flag instructions of two operands record VF_OPERAND when either is VF (R182). -/
theorem flagAlu_of_flagBinary (hexec : exec i s = .next (flagBinary flag result x y s))
    (hflag : ∀ a c, flag a c = flagNat a.toNat c.toNat) (hresult : ∀ a c, (result a c).toNat = resultNat a.toNat c.toNat) :
    Claim.FlagAlu i s x y flagNat resultNat (x = 0xF ∨ y = 0xF) :=
  flagAlu_of_flagThenResult hexec ((Bool.or_eq_true _ _).to_iff.trans (or_congr beq_iff_eq beq_iff_eq)) hflag hresult

/-- The shifts record VF_OPERAND when their one operand is VF, and y names no operand (R182). -/
theorem flagAlu_of_flagShift {lost : Byte → Bool} {shifted : Byte → Byte} {lostNat : Nat → Bool} {shiftedNat : Nat → Nat}
    (hexec : exec i s = .next (flagShift lost shifted x s)) (hlost : ∀ a, lost a = lostNat a.toNat)
    (hshifted : ∀ a, (shifted a).toNat = shiftedNat a.toNat) :
    Claim.FlagAlu i s x y (fun a _ => lostNat a) (fun a _ => shiftedNat a) (x = 0xF) := by
  rw [flagShift, flagThenResult_unary lost shifted x x y] at hexec
  exact flagAlu_of_flagThenResult hexec beq_iff_eq (fun a _ => hlost a) (fun a _ => hshifted a)

end FlagInstruction

/-! ### The results as numbers (R187-R191) -/

/-- The difference of two bytes is the difference modulo 256 (R188, R190). -/
theorem byte_sub_toNat (a b : Byte) : (a - b).toNat = (a.toNat + 256 - b.toNat) % 256 := by
  rw [BitVec.toNat_sub', ← Nat.add_sub_assoc b.isLt.le]

/-- The bit that a shift to the left loses (R191). -/
theorem getLsbD_seven_eq_decide (a : Byte) : a.getLsbD 7 = decide (a.toNat ≥ 128) := by
  rw [← BitVec.msb_eq_getLsbD_last, BitVec.msb_eq_decide]

/-- A shift to the right by one halves (R189). -/
theorem byte_shiftRight_one_toNat (a : Byte) : (a >>> 1).toNat = a.toNat / 2 := by
  rw [BitVec.toNat_ushiftRight, Nat.shiftRight_one]

/-- A shift to the left by one doubles modulo 256 (R191). -/
theorem byte_shiftLeft_one_toNat (a : Byte) : (a <<< 1).toNat = a.toNat * 2 % 256 := by
  rw [BitVec.toNat_shiftLeft, Nat.shiftLeft_eq]

/-- Settles O21. -/
theorem addWithCarryResult : Obligations.AddWithCarryResult := fun _ x y _ =>
  ⟨decodeWord_encode (i := .addWithCarry x y) rfl, flagAlu_of_flagBinary rfl (fun _ _ => rfl) BitVec.toNat_add⟩

/-- Settles O22. -/
theorem subtractionResults : Obligations.SubtractionResults := fun _ x y _ =>
  ⟨decodeWord_encode (i := .subWithBorrow x y) rfl, decodeWord_encode (i := .subReverseWithBorrow x y) rfl,
    flagAlu_of_flagBinary rfl (fun _ _ => rfl) byte_sub_toNat,
    flagAlu_of_flagBinary rfl (fun _ _ => rfl) fun a b => byte_sub_toNat b a⟩

/-- Settles O23. -/
theorem shiftResults : Obligations.ShiftResults := fun _ x y _ =>
  ⟨decodeWord_encode (i := .shiftRight x y) rfl, decodeWord_encode (i := .shiftLeft x y) rfl,
    flagAlu_of_flagShift rfl (fun a => Nat.testBit_zero a.toNat) byte_shiftRight_one_toNat,
    flagAlu_of_flagShift rfl getLsbD_seven_eq_decide byte_shiftLeft_one_toNat⟩

end Sys2Proof

/-! ## Index register and memory transfers -/

namespace Sys2Proof

open Machine

/-! ### Values of I (R220-R222) -/

/-- Settles O25. -/
theorem indexLoadsTheAddress : Obligations.IndexLoadsTheAddress := fun _ nnn s =>
  ⟨decodeWord_encode (i := .loadI nnn) rfl, s.setI (absolute nnn), rfl, absolute_toNat nnn, rfl⟩

/-- A byte added to a word counts modulo 65536 (R221). -/
theorem word_add_byte_toNat (a : Word) (b : Byte) : (a + b.setWidth 16).toNat = (a.toNat + b.toNat) % 65536 := by
  rw [BitVec.toNat_add, BitVec.toNat_setWidth_of_le (by decide)]

/-- Settles O26. -/
theorem indexAddWrapsAtSixteenBits : Obligations.IndexAddWrapsAtSixteenBits := fun _ x s =>
  ⟨decodeWord_encode (i := .addI x) rfl, s.setI (s.i + (s.reg x).setWidth 16), rfl, word_add_byte_toNat _ _, rfl⟩

/-- The glyph address of a digit below 256 stays below 65536, so nothing is lost in I (R222). -/
theorem glyphAddress_toNat (base : Addr) {d : Nat} (hd : d < 256) :
    (glyphAddress base d).toNat = base.toNat + d * 5 := by
  have hbase := base.isLt
  rw [glyphAddress, BitVec.toNat_ofNat]
  omega

theorem fontDigit_full {s : State} (b : Byte) (h : s.params.fontLowNibble = false) : fontDigit b s = b.toNat := by
  rw [fontDigit, h, if_neg Bool.false_ne_true]

theorem fontDigit_low {s : State} (b : Byte) (h : s.params.fontLowNibble = true) : fontDigit b s = b.toNat % 16 := by
  rw [fontDigit, if_pos h]

theorem fontDigit_lt (b : Byte) (s : State) : fontDigit b s < 256 := by
  have hb := b.isLt
  cases h : s.params.fontLowNibble
  · rwa [fontDigit_full b h]
  · rw [fontDigit_low b h]
    omega

/-- Settles O27. -/
theorem fontAddrPointsAtTheGlyph : Obligations.FontAddrPointsAtTheGlyph := by
  intro _ x s
  have hi := glyphAddress_toNat s.params.fontBase (fontDigit_lt (s.reg x) s)
  refine ⟨decodeWord_encode (i := .fontAddr x) rfl, _, rfl, fun hfull => ?_, fun hlow => ?_, records_diagIf _ .fontRange s,
    rfl, rfl⟩
  · rw [setI_i, hi, fontDigit_full _ hfull]
  · rw [setI_i, hi, fontDigit_low _ hlow]

/-! ### The diagnostic of a run of accesses (R61) -/

/-- Two operations in a row that record the same cause record it when either does (R11). -/
theorem Claim.Records.trans {s t u : State} {c : DiagCause} {p q : Prop} (hst : Claim.Records s t c p)
    (htu : Claim.Records t u c q) : Claim.Records s u c (p ∨ q) := by
  intro d
  rw [htu d, hst d, or_assoc, ← and_or_left]

theorem Claim.Records.congr {s t : State} {c : DiagCause} {p q : Prop} (h : Claim.Records s t c p) (hpq : p ↔ q) :
    Claim.Records s t c q := propext hpq ▸ h

/-- Some address of the range is reduced exactly when its last one is (R61). -/
theorem any_regRange_iff (x : Nibble) (a : Nat) :
    ((regRange x).any fun k => decide (a + k > 0xFFF)) = true ↔ a + x.toNat > 0xFFF := by
  simp only [List.any_eq_true, mem_regRange, decide_eq_true_eq]
  constructor
  · rintro ⟨k, hk, hpast⟩
    omega
  · exact fun hpast => ⟨x.toNat, le_rfl, hpast⟩

/-- A transfer of V0..Vx whose addresses are checked one by one records I_RANGE exactly when `I + x` is reduced (R61). -/
theorem records_of_hasDiag_regRange {s t : State} {x : Nibble} (h : ∀ c, t.hasDiag c =
      (s.hasDiag c || decide (c = .iRange) && (regRange x).any fun k => decide (s.i.toNat + k > 0xFFF))) :
    Claim.Records s t .iRange (s.i.toNat + x.toNat > 0xFFF) := by
  intro d
  rw [h, Bool.or_eq_true, Bool.and_eq_true, decide_eq_true_eq, any_regRange_iff]

/-! ### The decimal digits of Vx (R223) -/

theorem bcdHundreds_toNat (b : Byte) : (bcdHundreds b).toNat = b.toNat / 100 := by
  have hb := b.isLt
  rw [bcdHundreds, BitVec.toNat_ofNat]
  omega

theorem bcdTens_toNat (b : Byte) : (bcdTens b).toNat = b.toNat / 10 % 10 := by
  rw [bcdTens, BitVec.toNat_ofNat]
  omega

theorem bcdOnes_toNat (b : Byte) : (bcdOnes b).toNat = b.toNat % 10 := by
  rw [bcdOnes, BitVec.toNat_ofNat]
  omega

/-- Reading an address below 0x1000 after one data write, as a number (R62). -/
theorem byteAt_dataWrite_toNat {s : State} (a : Nat) (b : Byte) {c : Nat} (hm : Memory.wf s.mem = true) (hc : c < 0x1000) :
    ((dataWrite a b s).byteAt c).toNat = if c = a % 0x1000 then b.toNat else (s.byteAt c).toNat := by
  rw [byteAt_dataWrite a b c hm, ea_of_lt hc, ea_eq, apply_ite BitVec.toNat]

/-- Settles O28: the three addresses differ, so the order in which R223 writes them does not matter. -/
theorem bcdWritesThreeDigits : Obligations.BcdWritesThreeDigits := by
  intro _ x s
  refine ⟨decodeWord_encode (i := .bcd x) rfl, fun hm => ⟨_, rfl, fun a ha => ?_, ?_, ?_⟩⟩
  · have hm₁ := wf_dataWrite (s.i.toNat + 0) (bcdHundreds (s.reg x)) hm
    have hm₂ := wf_dataWrite (s.i.toNat + 1) (bcdTens (s.reg x)) hm₁
    rw [byteAt_dataWrite_toNat _ _ hm₂ ha, byteAt_dataWrite_toNat _ _ hm₁ ha, byteAt_dataWrite_toNat _ _ hm ha,
      bcdHundreds_toNat, bcdTens_toNat, bcdOnes_toNat, Nat.add_zero]
    split_ifs <;> omega
  · refine (((records_dataWrite _ _ s).trans (records_dataWrite _ _ _)).trans (records_dataWrite _ _ _)).congr ?_
    omega
  · obtain ⟨m, d, h⟩ := execBcd_eq x s
    rw [Host.Outcome.next.inj h]

/-! ### The transfers of V0..Vx (R224, R225) -/

/-- Settles O29. -/
theorem storeRegsWritesTheRange : Obligations.StoreRegsWritesTheRange := by
  intro _ x s
  refine ⟨decodeWord_encode (i := .storeRegs x) rfl, fun hm => ⟨storeRange (regRange x) s, rfl, fun r hr => ?_,
    fun a ha hout => ?_, records_of_hasDiag_regRange (hasDiag_storeRange _ s), storeRange_eq _ s⟩⟩
  · rw [byteAt_mod, byteAt_storeRange_regRange hm hr, BitVec.ofNat_toNat, BitVec.setWidth_eq]
  · refine byteAt_storeRange_other hm fun k hk => ?_
    rw [ea_of_lt ha, ea_eq]
    exact hout k (mem_regRange.1 hk)

/-- Fx65 gives each register of the range its byte and leaves the others (R225). -/
theorem reg_loadRange_regRange (x r : Nibble) (s : State) :
    (loadRange (regRange x) s).reg r = if r.toNat ≤ x.toNat then s.byteAt (s.i.toNat + r.toNat) else s.reg r := by
  rw [reg_loadRange fun k hk => (mem_regRange.1 hk).trans_lt x.isLt]
  simp only [mem_regRange]

/-- Settles O30. -/
theorem loadRegsReadsTheRange : Obligations.LoadRegsReadsTheRange := by
  intro _ x s
  refine ⟨decodeWord_encode (i := .loadRegs x) rfl, loadRange (regRange x) s, rfl, fun r => ?_,
    records_of_hasDiag_regRange (hasDiag_loadRange _ s), loadRange_eq _ s⟩
  rw [reg_loadRange_regRange, State.byteAt, ea_eq]

end Sys2Proof

/-! ## Keypad, timers, wait -/

namespace Sys2Proof

open Machine

/-! ### The key skips (R250-R252) -/

/-- The key that `KeyDown` looks up is the one that Vx mod 16 names (R252). -/
theorem key_getElem?_mod (s : State) (b : Byte) : s.key[b.toNat % 16]? = some (s.keyAt (b.setWidth 4)) :=
  Vector.getElem?_eq_getElem _

theorem keyDown_fst_iff (s : State) (x : Nibble) : (keyDown (s.reg x) s).1 = true ↔ Claim.KeyIsDown s x := by
  rw [keyDown_fst, Claim.KeyIsDown]
  split
  · rw [key_getElem?_mod, Option.some_inj]
  · rfl

@[simp] theorem keyDown_pc (b : Byte) (s : State) : (keyDown b s).2.pc = s.pc := by rw [keyDown_snd]

/-- The DIAG of `KeyDown` is that of `if v > 0xF then diag(KEY_RANGE)` (R252). -/
theorem keyDown_diag (b : Byte) (s : State) :
    (keyDown b s).2.diag = (diagIf (decide (b.toNat > 0xF)) .keyRange s).diag := by
  rw [keyDown_snd, diagIf_diag]
  by_cases h : b.toNat ≤ 0xF
  · rw [if_pos h, decide_eq_false (Nat.not_lt.2 h), if_neg Bool.false_ne_true]
  · rw [if_neg h, decide_eq_true (Nat.not_le.1 h), if_pos rfl]

/-- `KeyDown` records KEY_RANGE exactly when its argument is past the keypad (R252). -/
theorem records_keyDown (b : Byte) (s : State) : Claim.Records s (keyDown b s).2 .keyRange (b.toNat > 0xF) := by
  intro d
  rw [State.hasDiag, keyDown_diag]
  exact records_diagIf (b.toNat > 0xF) .keyRange s d

/-- `KeyDown` takes a free value exactly under `draw`, for an argument past the keypad (R252, log 2). -/
theorem keyDown_draws (b : Byte) (s : State) :
    (keyDown b s).2.draws = if b.toNat > 0xF ∧ s.params.keyIndexMode = .draw then s.draws + 1 else s.draws := by
  have hmode : s.params.keyIndexMode = .draw ↔ ¬s.params.keyIndexMode = .lowNibble := by
    cases s.params.keyIndexMode <;> decide
  simp only [keyDown_snd, hmode, gt_iff_lt, ← Nat.not_le, ← not_or, ite_not]

/-- An instruction whose whole effect is `KeyDown(Vx)` and `skipIf` skips on the condition that its Boolean decides. -/
theorem keySkip_of_exec {i : Instr} {s : State} {x : Nibble} {b : Bool} {cond : Prop}
    (hexec : exec i s = .next (skipIf b (keyDown (s.reg x) s).2)) (hb : b = true ↔ cond) : Claim.KeySkip i s x cond := by
  refine ⟨_, hexec, fun h => ?_, fun h => ?_, records_keyDown _ s, keyDown_draws _ s, ?_⟩
  · rw [skipIf_pc_toNat _ (hb.2 h), keyDown_pc]
  · rw [skipIf_pc_of_ne_true _ (mt hb.1 h), keyDown_pc]
  · rw [keyDown_snd]
    rfl

/-- Settles O31: both skips are `skipIf` on what `KeyDown` answers, or on its negation. -/
theorem keySkipsSampleTheKeypad : Obligations.KeySkipsSampleTheKeypad := fun _ x s =>
  ⟨decodeWord_encode (i := .skipIfKey x) rfl, decodeWord_encode (i := .skipIfNotKey x) rfl,
    keySkip_of_exec rfl (keyDown_fst_iff s x),
    keySkip_of_exec rfl (by rw [Bool.not_eq_true', ← Bool.not_eq_true, keyDown_fst_iff])⟩

/-! ### The timers (R253, R255, R256) -/

/-- Only Fx15 changes DT (R43). -/
theorem exec_dt {i : Instr} {s t : State} (h : exec i s = .next t) (hi : ∀ x, i ≠ .writeDT x) : t.dt = s.dt := by
  cases exec_effect h with
  | writeDT x => exact absurd rfl (hi x)
  | regs | rand | branch | keySkip | call | ret | index | store | display | writeST | waitKey => rfl

/-- A timer that stands at 0 stays there (R310). -/
@[simp] theorem tickDown_zero : tickDown 0 = 0 := rfl

/-- The tick that takes a timer to 0 from above is the one at 1 (R311). -/
theorem tickDown_reaches_zero_iff (b : Byte) : b.toNat > 0 ∧ tickDown b = 0 ↔ b = 1 := by
  have htick := tickDown_toNat b
  bv_omega

/-- After a tick BEEP_REQ is set when it was set before, or by the tick that takes ST from 1 to 0 (R310, R311). -/
theorem tickTimers_beepReq (s : State) : (tickTimers s).beepReq = true ↔ s.beepReq = true ∨ s.st = 1 := by
  rw [← tickDown_reaches_zero_iff, tickTimers]
  split_ifs with h
  · exact iff_of_true rfl (.inr h)
  · exact (or_iff_left h).symm

/-- Settles O32. -/
theorem timerTransfers : Obligations.TimerTransfers := fun _ x s =>
  ⟨decodeWord_encode (i := .readDT x) rfl, decodeWord_encode (i := .writeDT x) rfl, decodeWord_encode (i := .writeST x) rfl,
    writesReg_of_exec rfl rfl, rfl, rfl, fun _ _ h hi => exec_dt h hi, fun h => (congrArg tickDown h).trans tickDown_zero,
    tickTimers_beepReq s⟩

/-! ### The wait for a key (R254, R312) -/

/-- The index of a key as a register value (R312). -/
theorem keyIndex_toNat (k : Nibble) : (k.setWidth 8).toNat = k.toNat :=
  BitVec.toNat_setWidth_of_le (by decide)

/-- A press while the latch holds `r` writes the key's index to Vr and no other register (R312). -/
theorem reg_setKey_press_toNat {s : State} {r : Nibble} (k : Nibble) (h : s.wait = some r) (q : Nibble) :
    ((setKey k true s).reg q).toNat = if q = r then k.toNat else (s.reg q).toNat := by
  rw [setKey_press_of_waiting h, setWait_reg, reg_setReg, apply_ite BitVec.toNat, keyIndex_toNat, setKeyAt_reg]

/-- Settles O33: Fx0A leaves a state whose latch holds x, and each operation on such a state is the one of its rule. -/
theorem waitKeyHaltsUntilAPress : Obligations.WaitKeyHaltsUntilAPress := by
  intro _ x s
  have hwait : (s.setWait (some x)).wait = some x := rfl
  refine ⟨decodeWord_encode (i := .waitKey x) rfl, s.setWait (some x), rfl, rfl, step_of_waiting hwait,
    fun _ => ⟨rfl, rfl⟩, ⟨rfl, tickDown_toNat s.dt⟩, fun k => ⟨?_, ?_, reg_setKey_press_toNat k hwait⟩⟩
  · rw [setKey_press_of_waiting hwait, setWait_wait]
  · rw [setKey_eq, setWait_pc]

end Sys2Proof

/-! ## Host operations (R307-R315) -/

namespace Sys2Proof

open Machine

/-! ### The invariant along a run (R307, R316) -/

/-- A tick changes DT, ST and BEEP_REQ (R310). -/
theorem tickTimers_eq (s : State) :
    tickTimers s = { s with dt := (tickTimers s).dt, st := (tickTimers s).st, beepReq := (tickTimers s).beepReq } := rfl

/-- Every operation of the host keeps the invariant: `initialize` gives it anew, a step keeps it, and the others leave memory,
SP, DEPTH and DIAG alone. -/
theorem MachineInv.applyOp {op : HostOp} {s t : State} (hs : MachineInv s) (h : applyOp op s = .next t) :
    MachineInv t := by
  cases op with
  | initializeOp image mode => cases h; exact .boot _ _ image
  | step => exact hs.step h
  | setKey k d =>
    cases h
    rw [setKey_eq]
    exact hs.of_diagGrows hs.mem_wf rfl rfl (.refl _)
  | tickTimers | ackDraw | ackBeep => cases h; exact hs.of_diagGrows hs.mem_wf rfl rfl (.refl _)

/-- Settles O47: by induction on the operations. -/
theorem runsKeepInvariant : Obligations.RunsKeepInvariant := by
  intro ops
  induction ops with
  | nil =>
    intro s t hs h
    exact Host.Outcome.next.inj h ▸ hs
  | cons op ops ih =>
    intro s t hs h
    obtain ⟨u, hu⟩ := applyOp_total op s
    rw [runOps_cons hu] at h
    exact ih u t (hs.applyOp hu) h

/-! ### The fetch (R309) -/

theorem pc_getLsbD_zero_iff (s : State) : s.pc.getLsbD 0 = true ↔ s.pc.toNat % 2 = 1 := by
  rw [BitVec.getLsbD, Nat.testBit_zero, decide_eq_true_eq]

theorem pcOutOfRange_iff (s : State) :
    pcOutOfRange s = true ↔ s.pc.toNat < s.params.loadAddr.toNat ∨ s.pc.toNat > 0xFFE := by
  rw [pcOutOfRange, Bool.or_eq_true, decide_eq_true_eq, decide_eq_true_eq]

/-- Settles O7: a fetch is two conditional diagnostics, then PC + 2. -/
theorem fetchReadsTwoBytesAndAdvancesPc : Obligations.FetchReadsTwoBytesAndAdvancesPc := by
  intro s
  refine ⟨?_, BitVec.toNat_add _ _, fun d => ?_, fetch_eq s⟩
  · rw [fetchWord, wordOfBytes_toNat, State.byteAt, State.byteAt, ea_eq, ea_eq]
  · rw [← pc_getLsbD_zero_iff, ← pcOutOfRange_iff]
    exact hasDiag_diagIf_diagIf_iff (s.pc.getLsbD 0) (pcOutOfRange s) .pcOdd .pcRange d s

/-! ### One step (R308, R300) -/

/-- Settles O6: the two bytes at PC decode to what the fetched word decodes to. -/
theorem stepRunsOneDecodedInstruction : Obligations.StepRunsOneDecodedInstruction := by
  refine fun s => ⟨fun r => step_of_waiting, fun hw i hi _ => ?_⟩
  have hdecode : decodeWord s.params.skip9Strict (fetchWord s) = i := congrArg Prod.fst (Except.ok.inj hi)
  rw [step_of_running hw, hdecode]

/-- Settles O8. -/
theorem everyStepHasANextState : Obligations.EveryStepHasANextState :=
  ⟨exec_total, step_total⟩

/-! ### Timers and acknowledges (R310, R311, R314, R315) -/

/-- Settles O35. -/
theorem tickTimersCountsDown : Obligations.TickTimersCountsDown := fun s =>
  ⟨tickDown_toNat s.dt, tickDown_toNat s.st, (tickTimers_beepReq s).trans (or_congr_right BitVec.toNat_inj.symm),
    tickTimers_eq s⟩

/-- Settles O39. -/
theorem acknowledgesClearOneFlag : Obligations.AcknowledgesClearOneFlag := fun _ => ⟨rfl, rfl⟩

/-- No instruction touches BEEP_REQ (R43). -/
theorem exec_beepReq {i : Instr} {s t : State} (h : exec i s = .next t) : t.beepReq = s.beepReq := by
  cases exec_effect h with
  | regs | rand | branch | keySkip | call | ret | index | store | display | writeDT | writeST | waitKey => rfl

theorem step_beepReq {s t : State} (h : step s = .next t) : t.beepReq = s.beepReq := by
  obtain ⟨r, -, rfl⟩ | ⟨-, hexec⟩ := step_cases h
  · rfl
  · exact (exec_beepReq hexec).trans (fetch_beepReq s)

theorem setKey_beepReq (k : Nibble) (d : Bool) (s : State) : (setKey k d s).beepReq = s.beepReq := by rw [setKey_eq]

/-- Settles O36: by cases on the operation; a step, a key and `ack_draw` leave BEEP_REQ alone, and a tick never lowers it. -/
theorem beepOnlyOnTheEdge : Obligations.BeepOnlyOnTheEdge := by
  intro op s t h
  have hkept (heq : t.beepReq = s.beepReq) {p q : Prop} :
      (s.beepReq = false → t.beepReq = true → p) ∧ (s.beepReq = true → t.beepReq = false → q) := by
    rw [heq]
    exact ⟨fun hs ht => absurd (hs.symm.trans ht) nofun, fun hs ht => absurd (hs.symm.trans ht) nofun⟩
  cases op with
  | initializeOp image mode => cases h; exact ⟨nofun, fun _ _ => .inr ⟨_, _, rfl⟩⟩
  | ackBeep => cases h; exact ⟨nofun, fun _ _ => .inl rfl⟩
  | tickTimers =>
    cases h
    have htick := tickTimers_beepReq s
    refine ⟨fun hs ht => ⟨rfl, (htick.1 ht).resolve_left (by simp [hs])⟩, fun hs ht => ?_⟩
    exact absurd (htick.2 (.inl hs)) (by simp [ht])
  | step => exact hkept (step_beepReq h)
  | setKey k d => cases h; exact hkept (setKey_beepReq k d s)
  | ackDraw => cases h; exact hkept rfl

/-! ### Keys and the wait latch (R312, R313) -/

/-- A release only writes the keypad (R312). -/
theorem setKey_release (k : Nibble) (s : State) : setKey k false s = s.setKeyAt k false := rfl

/-- With no wait pending `set_key` only writes the keypad (R312). -/
theorem setKey_of_running {k : Nibble} (d : Bool) {s : State} (h : s.wait = none) : setKey k d s = s.setKeyAt k d := by
  cases d with
  | false => exact setKey_release k s
  | true => exact setKey_press_of_running h

/-- The keypad after `set_key`, whether or not a wait is pending (R312). -/
theorem setKey_key (k : Nibble) (d : Bool) (s : State) : (setKey k d s).key = (s.setKeyAt k d).key := by
  cases d with
  | false => rfl
  | true =>
    cases hw : s.wait with
    | none => rw [setKey_press_of_running hw]
    | some r => rw [setKey_press_of_waiting hw, setWait_key, setReg_key]

/-- After a press no wait is pending (R312). -/
theorem setKey_press_wait (k : Nibble) (s : State) : (setKey k true s).wait = none := by
  cases hw : s.wait with
  | none => rw [setKey_press_of_running hw, setKeyAt_wait, hw]
  | some r => rw [setKey_press_of_waiting hw, setWait_wait]

/-- Settles O38. -/
theorem setKeyResolvesTheWait : Obligations.SetKeyResolvesTheWait := by
  intro k d s
  refine ⟨fun j => ?_, fun r hd hw => ?_, fun hidle => ?_, setKey_eq k d s⟩
  · rw [← keyAt_setKeyAt]
    simp only [State.keyAt, setKey_key]
  · subst hd
    exact ⟨setKey_press_wait k s, reg_setKey_press_toNat k hw⟩
  · have hkeypad : setKey k d s = s.setKeyAt k d := by
      obtain rfl | hw := hidle
      · exact setKey_release k s
      · exact setKey_of_running d hw
    rw [hkeypad]
    exact ⟨rfl, rfl⟩

/-- Only Fx0A changes the latch (R43). -/
theorem exec_wait {i : Instr} {s t : State} (h : exec i s = .next t) (hi : ∀ x, i ≠ .waitKey x) : t.wait = s.wait := by
  cases exec_effect h with
  | waitKey x => exact absurd rfl (hi x)
  | regs | rand | branch | keySkip | call | ret | index | store | display | writeDT | writeST => rfl

/-- An instruction that begins with no wait pending ends with a wait for Vr exactly when it is Fx0A with x = r (R254). -/
theorem exec_wait_eq_some_iff {i : Instr} {s t : State} {r : Nibble} (hw : s.wait = none) (h : exec i s = .next t) :
    t.wait = some r ↔ i = .waitKey r := by
  by_cases hi : ∃ x, i = .waitKey x
  · obtain ⟨x, rfl⟩ := hi
    cases h
    simp
  · have hkept := exec_wait h fun x hx => hi ⟨x, hx⟩
    rw [hkept, hw]
    exact ⟨nofun, fun hr => absurd ⟨r, hr⟩ hi⟩

/-- Settles O44: by cases on the operation. -/
theorem waitLatchStateMachine : Obligations.WaitLatchStateMachine := by
  intro op s t h
  cases op with
  | step =>
    refine ⟨fun _ hw r => ?_, fun _ hw => ?_, nofun, nofun, nofun, nofun⟩
    · exact exec_wait_eq_some_iff (s := fetch s) hw ((step_of_running hw).symm.trans h)
    · obtain ⟨r, hr⟩ := Option.ne_none_iff_exists'.1 hw
      exact Host.Outcome.next.inj (h.symm.trans (step_of_waiting hr))
  | setKey k d =>
    cases h
    refine ⟨nofun, nofun, fun j hj => ?_, fun j hj => ?_, nofun, nofun⟩
    · cases hj; exact setKey_press_wait k s
    · cases hj; rfl
  | initializeOp image mode => cases h; exact ⟨nofun, nofun, nofun, nofun, nofun, fun _ _ _ => rfl⟩
  | tickTimers | ackDraw | ackBeep => cases h; exact ⟨nofun, nofun, nofun, nofun, fun _ => rfl, nofun⟩

end Sys2Proof

/-! ## DIAG and DEPTH are write-only (R301, R39, R40) -/

namespace Sys2Proof.Machine

/-- The same state with other contents of DIAG and DEPTH. -/
def State.withDiagDepth (s : State) (d : BitVec 10) (k : Nat) : State := { s with diag := d, depth := k }

/-- `t'` is `t` but for DIAG and DEPTH. -/
def SameButDiagDepth (t t' : State) : Prop := ∃ d k, t' = t.withDiagDepth d k

namespace SameButDiagDepth

variable {s s' : State}

/-- An operation that reads neither DIAG nor DEPTH, except to write them, keeps the relation. -/
theorem keep (g : State → State) (h : SameButDiagDepth s s')
    (hg : ∀ u d k, SameButDiagDepth (g u) (g (u.withDiagDepth d k))) : SameButDiagDepth (g s) (g s') := by
  obtain ⟨d, k, rfl⟩ := h
  exact hg s d k

theorem storeRange (ks : List Nat) (h : SameButDiagDepth s s') :
    SameButDiagDepth (storeRange ks s) (storeRange ks s') := by
  induction ks generalizing s s' with
  | nil => exact h
  | cons k ks ih =>
    exact ih (h.keep (fun u => dataWrite (u.i.toNat + k) (u.reg (BitVec.ofNat 4 k)) u) fun _ _ _ => ⟨_, _, rfl⟩)

theorem loadRange (ks : List Nat) (h : SameButDiagDepth s s') :
    SameButDiagDepth (loadRange ks s) (loadRange ks s') := by
  induction ks generalizing s s' with
  | nil => exact h
  | cons k ks ih =>
    exact ih (h.keep (fun u => (dataRead (u.i.toNat + k) u).2.setReg (BitVec.ofNat 4 k) (dataRead (u.i.toNat + k) u).1)
      fun _ _ _ => ⟨_, _, rfl⟩)

end SameButDiagDepth

/-- The flag instructions read ALU_OPERAND_READ and registers only (R182). -/
theorem flagThenResult_withDiagDepth (flag : Byte → Byte → Bool) (result : Byte → Byte → Byte) (x y : Nibble) (s : State)
    (d : BitVec 10) (k : Nat) :
    flagThenResult flag result x y (s.withDiagDepth d k) = (flagThenResult flag result x y s).withDiagDepth d k := by
  cases hm : s.params.operandRead with
  | latched => rw [flagThenResult_latched hm, flagThenResult_latched (s := s.withDiagDepth d k) hm]; rfl
  | sequential => rw [flagThenResult_sequential hm, flagThenResult_sequential (s := s.withDiagDepth d k) hm]; rfl

/-- The answer of `KeyDown` reads neither DIAG nor DEPTH, and its one diagnostic is written to DIAG (R252). -/
theorem keyDown_withDiagDepth (b : Byte) (s : State) (d : BitVec 10) (k : Nat) :
    ∃ d', keyDown b (s.withDiagDepth d k) = ((keyDown b s).1, (keyDown b s).2.withDiagDepth d' k) := by
  refine ⟨(keyDown b (s.withDiagDepth d k)).2.diag, Prod.ext ?_ ?_⟩
  · rw [keyDown_fst, keyDown_fst]
    rfl
  · rw [keyDown_snd, keyDown_snd]
    rfl

/-- From any other DIAG and DEPTH an instruction gives the same result but for the two. -/
theorem exec_withDiagDepth {i : Instr} {s t : State} (d : BitVec 10) (k : Nat) (h : exec i s = .next t) :
    ∃ t', exec i (s.withDiagDepth d k) = .next t' ∧ SameButDiagDepth t t' := by
  have hs : SameButDiagDepth s (s.withDiagDepth d k) := ⟨d, k, rfl⟩
  cases i with
  | storeRegs x => cases h; exact ⟨_, rfl, hs.storeRange _⟩
  | loadRegs x => cases h; exact ⟨_, rfl, hs.loadRange _⟩
  | addWithCarry x y | subWithBorrow x y | subReverseWithBorrow x y =>
    cases h; exact ⟨_, rfl, _, k, flagThenResult_withDiagDepth _ _ x y (diagIf (x == vf || y == vf) .vfOperand s) _ k⟩
  | shiftRight x y | shiftLeft x y =>
    cases h; exact ⟨_, rfl, _, k, flagThenResult_withDiagDepth _ _ x x (diagIf (x == vf) .vfOperand s) _ k⟩
  | skipIfKey x =>
    cases h
    obtain ⟨d', hkey⟩ := keyDown_withDiagDepth (s.reg x) s d k
    exact ⟨_, rfl, d', k, congrArg (fun r => skipIf r.1 r.2) hkey⟩
  | skipIfNotKey x =>
    cases h
    obtain ⟨d', hkey⟩ := keyDown_withDiagDepth (s.reg x) s d k
    exact ⟨_, rfl, d', k, congrArg (fun r => skipIf (!r.1) r.2) hkey⟩
  | clear | ret | jump | call | skipEqImm | skipNeImm | skipEqReg | loadImm | addImm | loadReg | orReg | andReg | xorReg
  | skipNeReg | loadI | jumpOffset | rand | draw | readDT | waitKey | writeDT | writeST | addI | fontAddr | bcd | nop =>
    cases h; exact ⟨_, rfl, _, _, rfl⟩

/-- From any other DIAG and DEPTH a step gives the same result but for the two: the fetch only writes DIAG. -/
theorem step_withDiagDepth {s t : State} (d : BitVec 10) (k : Nat) (h : step s = .next t) :
    ∃ t', step (s.withDiagDepth d k) = .next t' ∧ SameButDiagDepth t t' := by
  obtain ⟨r, hw, rfl⟩ | ⟨hw, hexec⟩ := step_cases h
  · exact ⟨_, step_of_waiting (s := t.withDiagDepth d k) hw, d, k, rfl⟩
  · have hrun := step_of_running (s := s.withDiagDepth d k) hw
    obtain ⟨t', ht', hsame⟩ := exec_withDiagDepth (fetch (s.withDiagDepth d k)).diag k hexec
    exact ⟨t', hrun.trans ht', hsame⟩

end Sys2Proof.Machine

namespace Sys2Proof

open Machine

/-- Settles O50. -/
theorem diagAndDepthInfluenceNothing : Obligations.DiagAndDepthInfluenceNothing := by
  intro s t d k h
  obtain ⟨_, ht', d', k', rfl⟩ := step_withDiagDepth d k h
  exact ⟨d', k', ht'⟩

end Sys2Proof

/-! ## Reset and hazards (R350-R363) -/

namespace Sys2Proof

open Machine

/-! ### Memory after `initialize` (R350, R68, R69) -/

/-- The image is loaded last, over the memory of the empty image (R350). -/
theorem bootMemory_eq_loadBytes (p : Params) (image : List Byte) :
    bootMemory p image =
      loadBytes p.sizes (bootMemory p []) p.loadAddr.toNat (image.take (0x1000 - p.loadAddr.toNat)) := by
  rw [bootMemory, bootMemory, List.take_nil, loadBytes, Sizes.memSize_val]

/-- The image stands at LOAD_ADDR and above; its truncation keeps the bytes that reach the top of memory and lets none wrap
around to the addresses below (R69). -/
theorem memGet_bootMemory (p : Params) (image : List Byte) {a : Nat} (ha : a < 0x1000) :
    memGet (bootMemory p image) a =
      if p.loadAddr.toNat ≤ a then image[a - p.loadAddr.toNat]?.getD (memGet (bootMemory p []) a)
      else memGet (bootMemory p []) a := by
  have hload : p.loadAddr.toNat < 0x1000 := p.loadAddr.isLt
  have hlen := List.length_take_le (0x1000 - p.loadAddr.toNat) image
  rw [bootMemory_eq_loadBytes, memGet_loadBytes (wf_bootMemory p []) (by omega) ha, Nat.mod_eq_of_lt hload]
  split
  · next hle =>
    have hidx : (a + 0x1000 - p.loadAddr.toNat) % 0x1000 = a - p.loadAddr.toNat := by omega
    rw [hidx, List.getElem?_take_of_lt (by omega)]
  · next hlt =>
    have hpast : (a + 0x1000 - p.loadAddr.toNat) % 0x1000 = a + 0x1000 - p.loadAddr.toNat := by omega
    rw [hpast, List.getElem?_eq_none (by omega), Option.getD_none]

/-- Settles O40: what no byte of the image covers reads as after `initialize` of the empty image. -/
theorem initializeLoadsMemory : Obligations.InitializeLoadsMemory := by
  intro image mode s a ha
  have hfont := memGet_bootMemory_nil { s.params with loadMode := mode } ha
  rw [Vector.getElem?_toList] at hfont
  rw [State.byteAt, ea_of_lt ha, ← hfont]
  exact memGet_bootMemory { s.params with loadMode := mode } image ha

/-! ### Runs of the host's operations (R307, R316) -/

theorem runOps_append {ops ops' : List HostOp} {s t : State} (h : runOps ops s = .next t) :
    runOps (ops ++ ops') s = runOps ops' t := by
  induction ops generalizing s with
  | nil => rw [Host.Outcome.next.inj h, List.nil_append]
  | cons op ops ih =>
    obtain ⟨u, hu⟩ := applyOp_total op s
    rw [List.cons_append, runOps_cons hu]
    exact ih (runOps_cons hu ▸ h)

/-- An operation that leaves a state as it is does so any number of times. -/
theorem runOps_replicate_of_fixed {op : HostOp} {s : State} (n : Nat) (h : applyOp op s = .next s) :
    runOps (List.replicate n op) s = .next s := by
  induction n with
  | zero => rfl
  | succ n ih => rw [List.replicate_succ, runOps_cons h, ih]

/-- Key transitions without a press change the keypad only, whether or not a wait is pending (R312). -/
theorem runOps_releases {transitions : List (Nibble × Bool)} (s : State) (h : ∀ p ∈ transitions, p.2 = false) :
    ∃ key, runOps (transitions.map fun p => .setKey p.1 p.2) s = .next { s with key := key } := by
  induction transitions generalizing s with
  | nil => exact ⟨s.key, rfl⟩
  | cons p ps ih =>
    obtain ⟨hp, hps⟩ := List.forall_mem_cons.1 h
    obtain ⟨key, hrun⟩ := ih (s.setKeyAt p.1 false) hps
    have hfirst : applyOp (.setKey p.1 false) s = .next (s.setKeyAt p.1 false) :=
      congrArg Host.Outcome.next (setKey_release p.1 s)
    refine ⟨key, ?_⟩
    rw [List.map_cons, hp, runOps_cons hfirst, hrun]
    rfl

/-- Settles O45: the releases change the keypad, the steps of a waiting machine nothing, and the tick counts the timers. -/
theorem waitLastsAFrameWithoutPress : Obligations.WaitLastsAFrameWithoutPress := by
  intro transitions s r hwait hrelease
  obtain ⟨key, hkeys⟩ := runOps_releases s hrelease
  have hstep : applyOp .step { s with key := key } = .next { s with key := key } := step_of_waiting hwait
  have hsteps := runOps_replicate_of_fixed s.params.stepsPerFrame hstep
  refine ⟨tickTimers { s with key := key }, ?_, hwait, rfl, rfl, rfl, tickDown_toNat s.dt, tickDown_toNat s.st⟩
  rw [frameOps, List.append_assoc, runOps_append hkeys, runOps_append hsteps]
  rfl

/-! ### A whole step of a known word (R356) -/

/-- A step whose word is the encoding of an instruction runs it in the fetched state (R308). -/
theorem step_of_fetchWord {s : State} {i : Instr} (hwait : s.wait = none) (hwf : i.wf s.params.skip9Strict = true)
    (hword : fetchWord s = encode i) : step s = exec i (fetch s) := by
  rw [step_of_running hwait, hword, decodeWord_encode hwf]

/-- A whole step of 3xnn advances PC by 2, and by 2 more when Vx = nn (R160, R356). -/
theorem skipIf_fetch_pc_toNat (s : State) (x : Nibble) (nn : Byte) :
    (skipIf (s.reg x == nn) (fetch s)).pc.toNat = (s.pc.toNat + if s.reg x = nn then 4 else 2) % 65536 := by
  have hfetch : (fetch s).pc.toNat = (s.pc.toNat + 2) % 65536 := BitVec.toNat_add _ _
  by_cases heq : s.reg x = nn
  · rw [if_pos heq, skipIf_pc_toNat _ (beq_iff_eq.2 heq), hfetch]
    omega
  · rw [if_neg heq, skipIf_pc_of_ne_true _ (mt beq_iff_eq.1 heq), hfetch]

/-- Settles O59: each instruction's own rule, for the call O13, read in the fetched state, whose PC is already past it. -/
theorem pcIsAdvancedBeforeExecution : Obligations.PcIsAdvancedBeforeExecution := by
  refine fun s hwait => ⟨fun nnn hword hsp => ?_, fun x nn hword => ?_, fun nnn hword => ?_⟩
  · obtain ⟨-, hcall⟩ := callPushesPc s.params.skip9Strict nnn (fetch s)
    obtain ⟨t, ht, hpc, -, htop, -⟩ := hcall hsp
    exact ⟨t, (step_of_fetchWord (i := .call nnn) hwait rfl hword).trans ht, hpc, htop⟩
  · exact ⟨_, step_of_fetchWord (i := .skipEqImm x nn) hwait rfl hword, skipIf_fetch_pc_toNat s x nn⟩
  · exact ⟨_, step_of_fetchWord (i := .jump nnn) hwait rfl hword, absolute_toNat nnn⟩

/-! ### A finished program (R363) -/

/-- The jump undoes the fetch's advance of PC, and the fetch changes nothing else. -/
theorem step_of_finished {s : State} (h : s.Finished) : step s = .next s := by
  obtain ⟨hwait, ⟨nnn, hword, hpc⟩, hdiag⟩ := h
  have hstep : step s = .next ((fetch s).setPc (absolute nnn)) :=
    step_of_fetchWord (i := .jump nnn) hwait rfl hword
  have hfetch : (fetch s).setPc (absolute nnn) = { s with pc := absolute nnn, diag := (fetch s).diag } := rfl
  rw [hstep, hfetch, hpc, hdiag]

/-- A state that a step leaves as it is stays so along every run of steps. -/
theorem coreRun_of_fixed {s : State} (k : Nat) (h : step s = .next s) : core.run k s = .next s := by
  induction k with
  | zero => rfl
  | succ k ih => exact coreRun_succ.2 ⟨s, h, ih⟩

/-- Settles O58. -/
theorem finishedStateIsFixed : Obligations.FinishedStateIsFixed := fun _ k h =>
  ⟨step_of_finished h, coreRun_of_fixed k (step_of_finished h)⟩

end Sys2Proof
